-- ==== Sys2Proof/Word.lean ====
section
/-! DEFINITION. The machine's words: bytes of the serial stream, 16-bit frame fields, and the 32-bit words of the
command port (00_scope.md R6 `WORD_W`, R9; 20_memory.md R103, R104). -/

namespace Sys2Proof

/-- One byte of the serial stream or of a frame (R8, R104). -/
abbrev Byte := BitVec 8

/-- One 16-bit field of a frame (R100). -/
abbrev Half := BitVec 16

/-- One word of a command or a response (R6, R11). -/
abbrev Word := BitVec 32

end Sys2Proof
end

