-- ==== Sys2Proof/Config.lean ====
section
/-! DEFINITION. The implementation parameters of 00_scope.md R6 and the frame delimiters of R13.

The two open parameters of R6 are inputs, not constants: `TS_SOURCE` is the timestamp that each pending transaction
carries, `SCHEDULE` is the order of the list of pending transactions (Machine/State.lean). The spec leaves no value of a
result open, so there is no uninterpreted constant here. -/

namespace Sys2Proof.Config

/-- STX, the byte that starts a frame (R13). -/
def stx : Byte := 0x02#8

/-- ETX, the byte that ends a frame (R13). -/
def etx : Byte := 0x03#8

/-- `NCH`: the number of channel slices (R6). -/
def nch : Nat := 2

/-- `L(M2S, V1)` and `L(M2S, V2)` (R6). -/
def lenM2S : Nat := 7

/-- `L(S2M, V1)` (R6). -/
def lenS2MV1 : Nat := 9

/-- `L(S2M, V2)` (R6). -/
def lenS2MV2 : Nat := 10

/-- `L_MAX`: the largest frame length (R6). -/
def lenMax : Nat := 10

/-- `ASM_CAP`: the capacity of one assembler buffer, in bytes (R6). -/
def asmCap : Nat := 10

/-- `BUF_BOUND`: SM1's growth bound, never reached (R6; 40_frame_assembler.md R212). No definition of the model reads
it: it is dead code of the source. -/
def bufBound : Nat := 4 * lenMax

/-- The greatest value of a statistics counter, `2^CNT_W - 1` (R6, R9). -/
def counterMax : Nat := 4294967295

/-- `DEC_LEN_MAX`: the largest frame a DECODE command can carry (R6). -/
def decLenMax : Nat := 255

/-- The raw value that a center-offset field treats as zero (R13; 42_field_decode.md R305). -/
def center : Nat := 32768

end Sys2Proof.Config
end

