-- ==== Sys2Proof/Syntax.lean ====
section
/-! DEFINITION. The abstract syntax: channel numbers, protocol versions, directions, and the ONE inductive of
instructions, with one constructor for each row of spec/opcode_table.json. -/

namespace Sys2Proof

/-- A channel number: `ch0` is SM1's 1CH, `ch1` is 2CH (00_scope.md R6 `NCH`). -/
inductive Chan where
  | ch0
  | ch1
deriving DecidableEq, Repr

/-- The protocol version (00_scope.md R2). No other version exists. -/
inductive Version where
  | v1
  | v2
deriving DecidableEq, Repr

/-- The direction of a frame (00_scope.md R3): Master to SCADA or SCADA to Master. -/
inductive Direction where
  | m2s
  | s2m
deriving DecidableEq, Repr

/-- The instructions: the nine commands of 30_encoding.md R151, the reserved opcodes, and the four wire frames of R183. -/
inductive Instr where
  /-- FEED (R152): one byte received on a channel. -/
  | feed (ch : Chan) (byte : Byte)
  /-- DECODE (R153): a frame of 0 to 255 bytes, judged under the direction and version it names. The ignored padding
  bytes of its last word are no operand. -/
  | decode (dir : Direction) (ver : Version) (frame : List Byte)
  /-- ENCODE (R154): the fields of a command frame. The three operand words are signed (R159). -/
  | encode (ver : Version) (mode : BitVec 2) (start : Bool) (maxv minv cur : Word)
  /-- RESET_ASM (R155). -/
  | resetAsm (ch : Chan)
  /-- RESET_STATS (R155). -/
  | resetStats (ch : Chan)
  /-- RESET_CH (R155). -/
  | resetCh (ch : Chan)
  /-- READ_STATS (R155). -/
  | readStats (ch : Chan)
  /-- WRITE_CFG (R156). -/
  | writeCfg (rxdir : Direction) (cken : Bool) (ver : Version)
  /-- READ_CFG (R157). -/
  | readCfg
  /-- A one-word command with a reserved opcode, 0x0 or 0xA to 0xF, and its other 28 bits (R151, R181). -/
  | reserved (op : BitVec 4) (low : BitVec 28)
  /-- FRAME_SYSV, a system-voltage frame on the wire (R183): bit `f[1][2]`, the channel `f[1][1:0]`, the raw voltage,
  the reserved byte `f[4]` and the checksum byte. -/
  | frameSysv (rsv : BitVec 1) (chan : BitVec 2) (raw : Half) (f4 cks : Byte)
  /-- FRAME_SLAVE, a slave-data frame on the wire (R183): `f[1][7:3]`, `f[1][2:0]`, the raw current, the temperature
  and the checksum byte. -/
  | frameSlave (id : BitVec 5) (status : BitVec 3) (raw : Half) (temp cks : Byte)
  /-- FRAME_CMD_V1, a V1 command frame on the wire (R183): `f[1][7:1]`, `f[1][0]`, MaxV, MinV, current, checksum. -/
  | frameCmdV1 (undef : BitVec 7) (start : Bool) (maxv minv : Half) (cur cks : Byte)
  /-- FRAME_CMD_V2, a V2 command frame on the wire (R183): `f[1][7:3]`, `f[1][2:1]`, `f[1][0]`, MaxV, MinV, raw
  current, checksum. -/
  | frameCmdV2 (undef : BitVec 5) (mode : BitVec 2) (start : Bool) (maxv minv cur : Half) (cks : Byte)
deriving DecidableEq, Repr

/-- An instruction as the machine meets it: the words of one command at CMD (R150), or the bytes of a run received on a
serial link, first byte on the wire first (R8). -/
inductive Code where
  | words (ws : List Word)
  | bytes (bs : List Byte)
deriving DecidableEq, Repr

end Sys2Proof
end

