-- ==== Sys2Proof/WellFormed.lean ====
section
/-! DEFINITION. Which terms of `Instr` stand for an encoding of the spec. Everything the types do not already rule out is
checked here: the length of a DECODE frame, the opcode of a reserved command, the ID of a slave frame. -/

namespace Sys2Proof

/-- The reserved opcodes of 30_encoding.md R151: 0x0 and 0xA to 0xF. -/
def reservedOp (op : BitVec 4) : Bool :=
  op == 0x0#4 || decide (0xA#4 ≤ op)

/-- The well-formed instructions.

* DECODE carries at most `DEC_LEN_MAX` bytes (00_scope.md R6; 30_encoding.md R153).
* A reserved command has a reserved opcode (R151).
* A slave-data frame has an ID other than 0 (R183, R304): ID 0 is a system-voltage frame. -/
def Instr.wf : Instr → Bool
  | .feed _ _ => true
  | .decode _ _ frame => decide (frame.length ≤ Config.decLenMax)
  | .encode _ _ _ _ _ _ => true
  | .resetAsm _ => true
  | .resetStats _ => true
  | .resetCh _ => true
  | .readStats _ => true
  | .writeCfg _ _ _ => true
  | .readCfg => true
  | .reserved op _ => reservedOp op
  | .frameSysv _ _ _ _ _ => true
  | .frameSlave id _ _ _ _ => decide (id ≠ 0#5)
  | .frameCmdV1 _ _ _ _ _ _ => true
  | .frameCmdV2 _ _ _ _ _ _ _ => true

end Sys2Proof
end

