-- ==== Sys2Proof/Decode.lean ====
section
/-! DEFINITION. The decoder, total on any words or bytes, which rejects by name, and after it the encoder. Both are
written from the tables of 30_encoding.md: the command words of R150 to R159 and R181, the wire frames of R183, and the
byte packing of 20_memory.md R100, R101. -/

namespace Sys2Proof

/-! ## One-bit fields -/

/-- The bit of a channel number (30_encoding.md R152, R159). -/
def Chan.bit : Chan → BitVec 1
  | .ch0 => 0#1
  | .ch1 => 1#1

/-- The channel number of a bit (R159). -/
def Chan.ofBit (b : BitVec 1) : Chan :=
  if b = 1#1 then .ch1 else .ch0

/-- The bit of a version: 0 = V1, 1 = V2 (R153, R156). -/
def Version.bit : Version → BitVec 1
  | .v1 => 0#1
  | .v2 => 1#1

/-- The version of a bit. -/
def Version.ofBit (b : BitVec 1) : Version :=
  if b = 1#1 then .v2 else .v1

/-- The bit of a direction: 0 = M2S, 1 = S2M (R153, R156). -/
def Direction.bit : Direction → BitVec 1
  | .m2s => 0#1
  | .s2m => 1#1

/-- The direction of a bit. -/
def Direction.ofBit (b : BitVec 1) : Direction :=
  if b = 1#1 then .s2m else .m2s

/-- A flag as a bit. -/
def flagBit (b : Bool) : BitVec 1 :=
  if b then 1#1 else 0#1

/-- A bit as a flag. -/
def bitFlag (b : BitVec 1) : Bool :=
  b == 1#1

/-! ## Bytes and words -/

/-- The high byte of a 16-bit field, `v[15:8]` (20_memory.md R100). -/
def hi (v : Half) : Byte :=
  v.extractLsb' 8 8

/-- The low byte of a 16-bit field, `v[7:0]` (R100). -/
def lo (v : Half) : Byte :=
  v.extractLsb' 0 8

/-- `be16(hi, lo)`: a 16-bit field from its two bytes, the high byte first (00_scope.md R9; 20_memory.md R100). -/
def be16 (h l : Byte) : Half :=
  h ++ l

/-- The four bytes of a word, the one in bits [31:24] first (20_memory.md R101). -/
def wordBytes (w : Word) : List Byte :=
  [w.extractLsb' 24 8, w.extractLsb' 16 8, w.extractLsb' 8 8, w.extractLsb' 0 8]

/-- The bytes that a list of words carries (R101). -/
def unpackWords : List Word → List Byte
  | [] => []
  | w :: ws => wordBytes w ++ unpackWords ws

/-- A sequence of bytes packed four to a word, big-endian (R101). The unused positions of the last word are 0
(30_encoding.md R177, R188). -/
def packWords : List Byte → List Word
  | [] => []
  | [a] => [a ++ 0#24]
  | [a, b] => [a ++ b ++ 0#16]
  | [a, b, c] => [a ++ b ++ c ++ 0#8]
  | a :: b :: c :: d :: rest => (a ++ b ++ c ++ d) :: packWords rest

/-- `ceil(n/4)`, the words that `n` packed bytes take (R101; 30_encoding.md R153). -/
def packedLength (n : Nat) : Nat :=
  (n + 3) / 4

/-! ## Commands -/

/-- The opcodes that are not reserved (30_encoding.md R151). -/
inductive Opcode where
  | feed | decode | encode | resetAsm | resetStats | resetCh | readStats | writeCfg | readCfg
deriving DecidableEq, Repr

/-- The opcode of bits [31:28] of the first word; none for a reserved one (R151). -/
def opcodeOf (op : BitVec 4) : Option Opcode :=
  match op.toNat with
  | 1 => some .feed
  | 2 => some .decode
  | 3 => some .encode
  | 4 => some .resetAsm
  | 5 => some .resetStats
  | 6 => some .resetCh
  | 7 => some .readStats
  | 8 => some .writeCfg
  | 9 => some .readCfg
  | _ => none

/-- `RESV(op)`: the bits of the first word that must be 0 (R181). -/
def reservedMask : Opcode → Word
  | .feed => 0x07FFFF00#32
  | .decode => 0x09FFFF00#32
  | .encode => 0x0DFFFFF8#32
  | .resetAsm => 0x07FFFFFF#32
  | .resetStats => 0x07FFFFFF#32
  | .resetCh => 0x07FFFFFF#32
  | .readStats => 0x07FFFFFF#32
  | .writeCfg => 0x0FFFFFF8#32
  | .readCfg => 0x0FFFFFFF#32

/-- `LENGTH(op, w0)`: how many words the command has, from its first word alone (R158). -/
def commandLength (op : Opcode) (w0 : Word) : Nat :=
  match op with
  | .decode => 1 + packedLength (w0.extractLsb' 0 8).toNat
  | .encode => 4
  | _ => 1

/-- The instruction of a validated command: the operand fields of R152 to R157 and R159. `ws` are the operand words. -/
def commandFields (op : Opcode) (w0 : Word) (ws : List Word) : Instr :=
  match op with
  | .feed => .feed (.ofBit (w0.extractLsb' 27 1)) (w0.extractLsb' 0 8)
  | .decode =>
    .decode (.ofBit (w0.extractLsb' 26 1)) (.ofBit (w0.extractLsb' 25 1))
      ((unpackWords ws).take (w0.extractLsb' 0 8).toNat)
  | .encode =>
    .encode (.ofBit (w0.extractLsb' 25 1)) (w0.extractLsb' 1 2) (bitFlag (w0.extractLsb' 0 1))
      (ws.getD 0 0#32) (ws.getD 1 0#32) (ws.getD 2 0#32)
  | .resetAsm => .resetAsm (.ofBit (w0.extractLsb' 27 1))
  | .resetStats => .resetStats (.ofBit (w0.extractLsb' 27 1))
  | .resetCh => .resetCh (.ofBit (w0.extractLsb' 27 1))
  | .readStats => .readStats (.ofBit (w0.extractLsb' 27 1))
  | .writeCfg =>
    .writeCfg (.ofBit (w0.extractLsb' 2 1)) (bitFlag (w0.extractLsb' 1 1)) (.ofBit (w0.extractLsb' 0 1))
  | .readCfg => .readCfg

/-- Why the decoder rejects. The first four are the checks of R181 in its order; the last concerns bytes from a serial
link that are not one of the four layouts of R183. -/
inductive DecodeError where
  /-- A command of no words (R181, BadLength). -/
  | noWords
  /-- A reserved opcode followed by more words (R181, ReservedOpcode); a one-word one decodes to `Instr.reserved`. -/
  | reservedOpcode
  /-- A reserved bit of the first word is set (R181, ReservedBits). -/
  | reservedBits
  /-- The word count is not the command's length (R181, BadLength). -/
  | badLength
  /-- Bytes that are no wire frame of R183. -/
  | notAFrame
deriving DecidableEq, Repr

/-- The decoder of commands: the checks of R181 in their order, then the fields. -/
def decodeCommand : List Word → Except DecodeError Instr
  | [] => .error .noWords
  | w0 :: ws =>
    match opcodeOf (w0.extractLsb' 28 4) with
    | none =>
      match ws with
      | [] => .ok (.reserved (w0.extractLsb' 28 4) (w0.extractLsb' 0 28))
      | _ :: _ => .error .reservedOpcode
    | some op =>
      if w0 &&& reservedMask op ≠ 0#32 then .error .reservedBits
      else if ws.length + 1 ≠ commandLength op w0 then .error .badLength
      else .ok (commandFields op w0 ws)

/-! ## Wire frames -/

/-- The decoder of wire frames (30_encoding.md R183): STX first, ETX last, and the layout that the length and, for 7
bytes, the ID `f[1][7:3]` select. The checksum byte is a field: a frame with a wrong one is a frame. -/
def decodeWire : List Byte → Except DecodeError Instr
  | [f0, f1, f2, f3, f4, f5, f6] =>
    if f0 = Config.stx ∧ f6 = Config.etx then
      if f1.extractLsb' 3 5 = 0#5 then
        .ok (.frameSysv (f1.extractLsb' 2 1) (f1.extractLsb' 0 2) (be16 f2 f3) f4 f5)
      else
        .ok (.frameSlave (f1.extractLsb' 3 5) (f1.extractLsb' 0 3) (be16 f2 f3) f4 f5)
    else .error .notAFrame
  | [f0, f1, f2, f3, f4, f5, f6, f7, f8] =>
    if f0 = Config.stx ∧ f8 = Config.etx then
      .ok (.frameCmdV1 (f1.extractLsb' 1 7) (bitFlag (f1.extractLsb' 0 1)) (be16 f2 f3) (be16 f4 f5) f6 f7)
    else .error .notAFrame
  | [f0, f1, f2, f3, f4, f5, f6, f7, f8, f9] =>
    if f0 = Config.stx ∧ f9 = Config.etx then
      .ok (.frameCmdV2 (f1.extractLsb' 3 5) (f1.extractLsb' 1 2) (bitFlag (f1.extractLsb' 0 1))
        (be16 f2 f3) (be16 f4 f5) (be16 f6 f7) f8)
    else .error .notAFrame
  | _ => .error .notAFrame

/-- The decoder. -/
def decode : Code → Except DecodeError Instr
  | .words ws => decodeCommand ws
  | .bytes bs => decodeWire bs

/-! ## The encoder -/

/-- The first word of the four commands of R155, of opcode `op`. -/
def channelWord (op : BitVec 4) (ch : Chan) : Word :=
  op ++ ch.bit ++ 0#27

/-- The bytes of a system-voltage frame (R183). -/
def sysvBytes (rsv : BitVec 1) (chan : BitVec 2) (raw : Half) (f4 cks : Byte) : List Byte :=
  [Config.stx, 0#5 ++ rsv ++ chan, hi raw, lo raw, f4, cks, Config.etx]

/-- The bytes of a slave-data frame (R183). -/
def slaveBytes (id : BitVec 5) (status : BitVec 3) (raw : Half) (temp cks : Byte) : List Byte :=
  [Config.stx, id ++ status, hi raw, lo raw, temp, cks, Config.etx]

/-- The bytes of a V1 command frame (R183). -/
def cmdV1Bytes (undef : BitVec 7) (start : Bool) (maxv minv : Half) (cur cks : Byte) : List Byte :=
  [Config.stx, undef ++ flagBit start, hi maxv, lo maxv, hi minv, lo minv, cur, cks, Config.etx]

/-- The bytes of a V2 command frame (R183). -/
def cmdV2Bytes (undef : BitVec 5) (mode : BitVec 2) (start : Bool) (maxv minv cur : Half) (cks : Byte) : List Byte :=
  [Config.stx, undef ++ mode ++ flagBit start, hi maxv, lo maxv, hi minv, lo minv, hi cur, lo cur, cks, Config.etx]

/-- The encoder: the words of a command (R152 to R157, R188) or the bytes of a wire frame (R183). -/
def encode : Instr → Code
  | .feed ch b => .words [0x1#4 ++ ch.bit ++ 0#19 ++ b]
  | .decode dir ver frame =>
    .words ((0x2#4 ++ 0#1 ++ dir.bit ++ ver.bit ++ 0#17 ++ BitVec.ofNat 8 frame.length) :: packWords frame)
  | .encode ver mode start maxv minv cur =>
    .words [0x3#4 ++ 0#2 ++ ver.bit ++ 0#22 ++ mode ++ flagBit start, maxv, minv, cur]
  | .resetAsm ch => .words [channelWord 0x4#4 ch]
  | .resetStats ch => .words [channelWord 0x5#4 ch]
  | .resetCh ch => .words [channelWord 0x6#4 ch]
  | .readStats ch => .words [channelWord 0x7#4 ch]
  | .writeCfg rxdir cken ver => .words [0x8#4 ++ 0#25 ++ rxdir.bit ++ flagBit cken ++ ver.bit]
  | .readCfg => .words [0x90000000#32]
  | .reserved op low => .words [op ++ low]
  | .frameSysv rsv chan raw f4 cks => .bytes (sysvBytes rsv chan raw f4 cks)
  | .frameSlave id status raw temp cks => .bytes (slaveBytes id status raw temp cks)
  | .frameCmdV1 undef start maxv minv cur cks => .bytes (cmdV1Bytes undef start maxv minv cur cks)
  | .frameCmdV2 undef mode start maxv minv cur cks => .bytes (cmdV2Bytes undef mode start maxv minv cur cks)

/-! ## The numbering of spec/opcode_table.json -/

/-- The `n` words of the number `w`, the first in its 32 least significant bits. -/
def tableWords (n w : Nat) : List Word :=
  (List.range n).map fun k => BitVec.ofNat 32 (w >>> (32 * k))

/-- The `n` bytes of the number `w`, the first in its 8 least significant bits. -/
def tableBytes (n w : Nat) : List Byte :=
  (List.range n).map fun k => BitVec.ofNat 8 (w >>> (8 * k))

/-- How many words a command of first word `w0` has (R158); 1 for a reserved opcode (R151). -/
def wordsOf (w0 : Word) : Nat :=
  match opcodeOf (w0.extractLsb' 28 4) with
  | none => 1
  | some op => commandLength op w0

/-- The instruction code that `nbits` bits of the number `w` stand for, as the opcode table numbers bits: the lengths of
the wire frames are bytes, any other length is words. Operand words that the table gives no bits are words of zeros, up to
the command's own length. -/
def tableCode (nbits w : Nat) : Code :=
  if nbits = 8 * Config.lenM2S ∨ nbits = 8 * Config.lenS2MV1 ∨ nbits = 8 * Config.lenS2MV2 then
    .bytes (tableBytes (nbits / 8) w)
  else
    .words (tableWords (max (nbits / 32) (wordsOf (BitVec.ofNat 32 w))) w)

/-- The instruction that the decoder reads from an opcode-table word. -/
def decodeTableWord (nbits w : Nat) : Option Instr :=
  match decode (tableCode nbits w) with
  | .ok i => some i
  | .error _ => none

end Sys2Proof
end

