-- ==== Sys2Proof/Machine/Operands.lean ====
section
/-! DEFINITION. The values of fields and operands: frame lengths (00_scope.md R6), reading a byte of a frame (R8), and the
conversions between bit fields and integers (R9; 42_field_decode.md R305; 43_field_encode.md R352, R353). -/

namespace Sys2Proof.Machine

/-- `L(dir, ver)`: the exact length of a frame (00_scope.md R6; 30_encoding.md R187). -/
def frameLen (dir : Direction) (ver : Version) : Nat :=
  match dir, ver with
  | .m2s, _ => Config.lenM2S
  | .s2m, .v1 => Config.lenS2MV1
  | .s2m, .v2 => Config.lenS2MV2

/-- `f[k]` (R8). Rules read a frame only at indices below its length; beyond them this answers 0 and no rule uses it. -/
def byteAt (f : List Byte) (k : Nat) : Byte :=
  f.getD k 0#8

/-- The 16-bit field at `f[k], f[k+1]` (30_encoding.md R184). -/
def halfAt (f : List Byte) (k : Nat) : Half :=
  be16 (byteAt f k) (byteAt f (k + 1))

/-- `sext_16(v)` (R9). -/
def sext16 (v : Half) : Int :=
  v.toInt

/-- `zext_16(v)` (R9). -/
def zext16 (v : Half) : Int :=
  v.toNat

/-- `sext_8(v)` (R9). -/
def sext8 (v : Byte) : Int :=
  v.toInt

/-- `sext_32(v)` (R9): an ENCODE operand word (30_encoding.md R159). -/
def sext32 (v : Word) : Int :=
  v.toInt

/-- `CO16(r)`: a center-offset field (42_field_decode.md R305). -/
def co16 (v : Half) : Int :=
  zext16 v - (Config.center : Int)

/-- `t16(x)`: the 16-bit two's-complement pattern of an integer (43_field_encode.md R352). -/
def t16 (x : Int) : Half :=
  BitVec.ofInt 16 x

/-- `t8(x)`: the 8-bit two's-complement pattern of an integer (R352). -/
def t8 (x : Int) : Byte :=
  BitVec.ofInt 8 x

/-- The raw value of a center-offset field, `x + 32768` (43_field_encode.md R353). -/
def coRaw (x : Int) : Half :=
  BitVec.ofInt 16 (x + (Config.center : Int))

/-- An integer as the `i32` word of a response (30_encoding.md R172 to R174). -/
def i32 (x : Int) : Word :=
  BitVec.ofInt 32 x

/-- `ID = f[1][7:3]` (42_field_decode.md R304). -/
def idField (f1 : Byte) : BitVec 5 :=
  f1.extractLsb' 3 5

/-- `CHAN = f[1][1:0]` (R306). -/
def chanField (f1 : Byte) : BitVec 2 :=
  f1.extractLsb' 0 2

/-- Bit 0 of `f[1]`: DAB_OK of a slave frame (R307), START of a command frame (R308, R309). -/
def lowFlag (f1 : Byte) : Bool :=
  bitFlag (f1.extractLsb' 0 1)

/-- `MODE = f[1][2:1]` of a V2 command frame (R309). -/
def modeField (f1 : Byte) : BitVec 2 :=
  f1.extractLsb' 1 2

end Sys2Proof.Machine
end

