-- ==== Sys2Proof/Machine/Flags.lean ====
section
/-! DEFINITION. The core has no condition codes (10_state.md R52). Here stand the tests and sums that its rules compute:
the checksum (41_checksum.md R250), the marker bits (42_field_decode.md R303), the range check of ENCODE
(43_field_encode.md R351) and the saturating increment (00_scope.md R9; 44_channel_stats.md R402). -/

namespace Sys2Proof.Machine

/-- The sum of bytes, each taken as 0 to 255, reduced mod 256 at the end (R250). -/
def byteSum (bs : List Byte) : Byte :=
  BitVec.ofNat 8 (bs.map BitVec.toNat).sum

/-- The bytes that the checksum of a frame covers, `f[1..n-3]` (R250, R251). -/
def payload (f : List Byte) : List Byte :=
  (f.drop 1).take (f.length - 3)

/-- `CKS(f, n)` (R250). -/
def cks (f : List Byte) : Byte :=
  byteSum (payload f)

/-- The checksum byte of a frame, `f[n-2]` (R250). -/
def cksByte (f : List Byte) : Byte :=
  byteAt f (f.length - 2)

/-- `stxbad` (42_field_decode.md R303). -/
def stxBad (f : List Byte) : Bool :=
  byteAt f 0 != Config.stx

/-- `etxbad` (R303). -/
def etxBad (f : List Byte) : Bool :=
  byteAt f (f.length - 1) != Config.etx

/-- `sat32(x + 1)`: a counter one up, or where it is at `2^32 - 1` (R402). -/
def satInc (x : Word) : Word :=
  BitVec.ofNat 32 (min (x.toNat + 1) Config.counterMax)

/-- The operand that a RangeError names (30_encoding.md R178). -/
inductive RangeField where
  | mode | maxv | minv | cur
deriving DecidableEq, Repr

/-- `FIELD` (R178). -/
def fieldCode : RangeField → BitVec 4
  | .mode => 1#4
  | .maxv => 2#4
  | .minv => 3#4
  | .cur => 4#4

/-- Whether an integer lies outside `[-32768, 32767]` (R351). -/
def outside16 (x : Int) : Bool :=
  decide (x < -32768 ∨ 32767 < x)

/-- Whether an integer lies outside `[-128, 127]` (R351). -/
def outside8 (x : Int) : Bool :=
  decide (x < -128 ∨ 127 < x)

/-- Whether the mode operand fails: V1 carries no mode, and V2 has no mode 3 (R351). -/
def modeBad (ver : Version) (mode : BitVec 2) : Bool :=
  match ver with
  | .v1 => mode != 0#2
  | .v2 => mode == 3#2

/-- Whether the current operand fails (R351). -/
def curBad (ver : Version) (cur : Int) : Bool :=
  match ver with
  | .v1 => outside8 cur
  | .v2 => outside16 cur

/-- `RANGE_CHECK`: the first operand that fails, in the order MODE, MAXV, MINV, CUR; none if all pass (R351). -/
def rangeCheck (ver : Version) (mode : BitVec 2) (maxv minv cur : Int) : Option RangeField :=
  if modeBad ver mode then some .mode
  else if outside16 maxv then some .maxv
  else if outside16 minv then some .minv
  else if curBad ver cur then some .cur
  else none

end Sys2Proof.Machine
end

