-- ==== Sys2Proof/Machine/Codec.lean ====
section
/-! DEFINITION. The two pure functions of the field codec: DECODE_FRAME with its field extraction (42_field_decode.md R301
to R309) and the frame construction of ENCODE (43_field_encode.md R352, R353). They read and write no state (R301, R355). -/

namespace Sys2Proof.Machine

/-- The record of a valid frame (42_field_decode.md R306 to R309). Physical values are counts of a fixed unit (R314). -/
inductive Record where
  /-- System voltage (R306); VOLT in units of 0.1 V. -/
  | sysv (chan : BitVec 2) (f1 : Byte) (raw : Half) (volt : Int) (f4 : Byte)
  /-- Slave data (R307); CURR in units of 0.01 A, TEMP of 0.5 °C. -/
  | slave (f1 : Byte) (dab : Bool) (raw : Half) (curr : Int) (temp : Byte)
  /-- Command frame (R308, R309); voltages in units of 1 V, CURC of 1 A in V1 and 0.1 A in V2. -/
  | cmd (f1 : Byte) (start modeValid : Bool) (mode : BitVec 2) (maxv minv curc : Int) (curraw : Half)
deriving DecidableEq, Repr

/-- The outcome of DECODE_FRAME (R301), which is also the event of a candidate (40_frame_assembler.md R202). -/
inductive FrameOutcome where
  | record (r : Record)
  | lengthMismatch (len : Nat)
  | markerError (len : Nat) (stxbad etxbad : Bool)
  | checksumError (computed received : Byte)
deriving DecidableEq, Repr

/-- SYSV_FIELDS (R306): V1 signed, V2 unsigned with no centering. -/
def sysvFields (f : List Byte) (ver : Version) : Record :=
  .sysv (chanField (byteAt f 1)) (byteAt f 1) (halfAt f 2)
    (match ver with
      | .v1 => sext16 (halfAt f 2)
      | .v2 => zext16 (halfAt f 2))
    (byteAt f 4)

/-- SLAVE_FIELDS (R307): V1 signed, V2 center-offset. -/
def slaveFields (f : List Byte) (ver : Version) : Record :=
  .slave (byteAt f 1) (lowFlag (byteAt f 1)) (halfAt f 2)
    (match ver with
      | .v1 => sext16 (halfAt f 2)
      | .v2 => co16 (halfAt f 2))
    (byteAt f 4)

/-- CMD_V1_FIELDS (R308). -/
def cmdV1Fields (f : List Byte) : Record :=
  .cmd (byteAt f 1) (lowFlag (byteAt f 1)) false 0#2 (sext16 (halfAt f 2)) (sext16 (halfAt f 4)) (sext8 (byteAt f 6))
    (0#8 ++ byteAt f 6)

/-- CMD_V2_FIELDS (R309). -/
def cmdV2Fields (f : List Byte) : Record :=
  .cmd (byteAt f 1) (lowFlag (byteAt f 1)) true (modeField (byteAt f 1)) (sext16 (halfAt f 2)) (sext16 (halfAt f 4))
    (co16 (halfAt f 6)) (halfAt f 6)

/-- The record of a frame that passed its checks: step (4) and (5) of R301, classified by R304. -/
def recordOf (f : List Byte) (dir : Direction) (ver : Version) : Record :=
  match dir, ver with
  | .m2s, ver => if idField (byteAt f 1) = 0#5 then sysvFields f ver else slaveFields f ver
  | .s2m, .v1 => cmdV1Fields f
  | .s2m, .v2 => cmdV2Fields f

/-- DECODE_FRAME (R301): length (R302), markers (R303), checksum (41_checksum.md R252), fields; the first check that fails
decides. -/
def decodeFrame (f : List Byte) (dir : Direction) (ver : Version) (cken : Bool) : FrameOutcome :=
  if f.length ≠ frameLen dir ver then .lengthMismatch f.length
  else if stxBad f || etxBad f then .markerError f.length (stxBad f) (etxBad f)
  else if cken && cks f != cksByte f then .checksumError (cks f) (cksByte f)
  else .record (recordOf f dir ver)

/-- A frame around its payload: STX, the payload, the checksum over it, ETX (41_checksum.md R253). -/
def wrapFrame (body : List Byte) : List Byte :=
  Config.stx :: (body ++ [byteSum body, Config.etx])

/-- V1 frame construction (43_field_encode.md R352). -/
def buildV1 (start : Bool) (maxv minv cur : Int) : List Byte :=
  wrapFrame [0#7 ++ flagBit start, hi (t16 maxv), lo (t16 maxv), hi (t16 minv), lo (t16 minv), t8 cur]

/-- V2 frame construction (R353). -/
def buildV2 (mode : BitVec 2) (start : Bool) (maxv minv cur : Int) : List Byte :=
  wrapFrame [0#5 ++ mode ++ flagBit start, hi (t16 maxv), lo (t16 maxv), hi (t16 minv), lo (t16 minv),
    hi (coRaw cur), lo (coRaw cur)]

/-- The frame of ENCODE operands that passed the range check (R355). -/
def buildFrame (ver : Version) (mode : BitVec 2) (start : Bool) (maxv minv cur : Int) : List Byte :=
  match ver with
  | .v1 => buildV1 start maxv minv cur
  | .v2 => buildV2 mode start maxv minv cur

end Sys2Proof.Machine
end

