-- ==== Sys2Proof/Machine/State.lean ====
section
/-! DEFINITION. The state of the core as plain data: the configuration register and the two channel slices of
10_state.md R53 and R55, and the block's four ports (R49) as lists and values a step reads and writes. -/

namespace Sys2Proof.Machine

/-- `cfg`, the one configuration register (10_state.md R53). Every value of every field is legal. -/
structure Cfg where
  /-- `cfg.ver`: the protocol version that FEED uses. -/
  ver : Version
  /-- `cfg.cken`: whether the checksum is checked. -/
  cken : Bool
  /-- `cfg.rxdir`: the direction of the frames FEED expects. -/
  rxdir : Direction
deriving DecidableEq, Repr

/-- `ch[c]`, one channel slice (10_state.md R55). -/
structure Slice where
  /-- The assembler's residual bytes, the oldest first (R56). -/
  buf : List Byte
  /-- `framesOk`, saturating (R57). -/
  ok : Word
  /-- `checksumFailures`, saturating (R57). -/
  ckf : Word
  /-- `malformedFrames`, saturating (R57). -/
  mal : Word
  /-- `lastSeenTimestamp` (R59). -/
  lastTs : Word
  /-- Whether `lastTs` holds a sample (R59). -/
  seen : Bool
deriving DecidableEq, Repr

/-- One input transaction of the block (10_state.md R49). The order in which they arrive is the parameter `SCHEDULE`, the
timestamps are the parameter `TS_SOURCE` (00_scope.md R6). -/
inductive PortInput where
  /-- One command at CMD, as it is offered, with the value on TS_IN while it executes (R58). -/
  | command (words : List Word) (ts : Word)
  /-- A run of bytes received on the serial link of a channel: the transport gives the core one FEED for each (R49).
  TS_IN holds one value for the whole run (log 3). -/
  | wire (link : Chan) (bytes : List Byte) (ts : Word)
  /-- One pulse of RST, with the command that it interrupts, if any (70_reset_and_hazards.md R600). -/
  | rst (during : Option (List Word))
deriving DecidableEq, Repr

/-- The state of the machine. The first three fields are all that the core keeps between commands (R50, R53 to R59). The
other four are the model's own: the ports (logs 1 to 5). -/
structure State where
  /-- The configuration register (R53). -/
  cfg : Cfg
  /-- `ch[0]` (R55). -/
  ch0 : Slice
  /-- `ch[1]` (R55). -/
  ch1 : Slice
  /-- The transactions still to arrive, oldest first (R49, R51; log 1). -/
  inputs : List PortInput
  /-- TS_IN while the current command executes (R58; log 2). -/
  tsIn : Word
  /-- The serial link that the current run of bytes comes from (R49; log 4). -/
  rxLink : Chan
  /-- The responses delivered at RSP, oldest first (R49; 30_encoding.md R170; log 5). -/
  sent : List (List Word)
deriving DecidableEq, Repr

/-- Why the machine stops with a fault. -/
inductive Fault where
  /-- Raised by FEED alone, when its scan would assign a second event (40_frame_assembler.md R210;
  93_implementation_defined.md U16, treatment `fault`). Safe: the spec proves that no command sequence reaches it, and no
  state that meets R211 raises it. -/
  | secondEvent
deriving DecidableEq, Repr

/-- Why the model has no meaning for an instruction. -/
inductive Refusal where
  /-- An instruction not modelled yet, by its mnemonic. Raised by no instruction: every row of the opcode table has its
  meaning. Safe: the model stops. -/
  | notModelled (mnemonic : String)
deriving DecidableEq, Repr

/-- What a meaning answers. -/
abbrev Result := Host.Outcome State Fault Refusal

/-- The configuration after power-on reset (70_reset_and_hazards.md R601; 00_scope.md R6 `RESET_VER`, `RESET_CKEN`,
`RESET_RXDIR`): V2, checked, M2S. -/
def Cfg.reset : Cfg :=
  { ver := .v2, cken := true, rxdir := .m2s }

/-- A channel slice after power-on reset (R601). -/
def Slice.reset : Slice :=
  { buf := [], ok := 0#32, ckf := 0#32, mal := 0#32, lastTs := 0#32, seen := false }

/-- The machine right after reset (R600, R601). The ports hold nothing: no transaction pending, no response delivered;
TS_IN and the link number at 0 (logs 1, 2, 4, 5; DESIGN CHOICE, unsafe: the spec gives a port no value). -/
def State.reset : State :=
  { cfg := Cfg.reset, ch0 := Slice.reset, ch1 := Slice.reset, inputs := [], tsIn := 0#32, rxLink := .ch0, sent := [] }

end Sys2Proof.Machine
end

