-- ==== Sys2Proof/Machine/Response.lean ====
section
/-! DEFINITION. The response words (30_encoding.md R170 to R182). Each first word is written as the concatenation of its
fields from bit 31 down; a zero constant is a run of bits that no layout names (R170). -/

namespace Sys2Proof.Machine

/-- One response: 1 to 5 words (R170). -/
abbrev Response := List Word

/-- `RCODE`, bits [31:28] of the first word (R170). -/
def rcode (r : Response) : BitVec 4 :=
  (r.headD 0#32).extractLsb' 28 4

/-- DONE (R171). -/
def respDone : Response :=
  [0x00000000#32]

/-- The response of a record: SYSV (R172), SLAVE (R173) or CMD (R174). -/
def respRecord (ch : Chan) (ver : Version) : Record → Response
  | .sysv chan f1 raw volt f4 =>
    [0x1#4 ++ ch.bit ++ ver.bit ++ chan ++ f1 ++ raw, i32 volt, 0#24 ++ f4]
  | .slave f1 dab raw curr temp =>
    [0x2#4 ++ ch.bit ++ ver.bit ++ flagBit dab ++ 0#1 ++ f1 ++ raw, i32 curr, 0#24 ++ temp]
  | .cmd f1 start modeValid mode maxv minv curc curraw =>
    [0x3#4 ++ ch.bit ++ ver.bit ++ flagBit modeValid ++ mode ++ flagBit start ++ 0#14 ++ f1,
      i32 maxv, i32 minv, i32 curc, 0#16 ++ curraw]

/-- CKFAIL (R175). -/
def respCkfail (ch : Chan) (ver : Version) (dir : Direction) (computed received : Byte) : Response :=
  [0x4#4 ++ ch.bit ++ ver.bit ++ dir.bit ++ 0#9 ++ computed ++ received]

/-- MALFORMED (R176). -/
def respMalformed (ch : Chan) (ver : Version) (dir : Direction) (len : Nat) (stxbad etxbad : Bool)
    (reason : BitVec 4) : Response :=
  [0x5#4 ++ ch.bit ++ ver.bit ++ dir.bit ++ 0#9 ++ BitVec.ofNat 8 len ++ 0#2 ++ flagBit stxbad ++ flagBit etxbad ++
    reason]

/-- The response of an outcome of DECODE_FRAME or of a FEED's event (42_field_decode.md R310; 40_frame_assembler.md R202).
REASON 1 is LengthMismatch, REASON 2 is FrameMarkerError (R176). -/
def respOutcome (ch : Chan) (ver : Version) (dir : Direction) : FrameOutcome → Response
  | .record r => respRecord ch ver r
  | .lengthMismatch len => respMalformed ch ver dir len false false 1#4
  | .markerError len stxbad etxbad => respMalformed ch ver dir len stxbad etxbad 2#4
  | .checksumError computed received => respCkfail ch ver dir computed received

/-- FRAME (R177). -/
def respFrame (f : List Byte) : Response :=
  (0x6#4 ++ 0#20 ++ BitVec.ofNat 8 f.length) :: packWords f

/-- RANGEERR (R178). -/
def respRangeErr (field : RangeField) : Response :=
  [0x7#4 ++ 0#24 ++ fieldCode field]

/-- STATS (R179). -/
def respStats (ch : Chan) (x : Slice) : Response :=
  [0x8#4 ++ ch.bit ++ flagBit x.seen ++ 0#22 ++ BitVec.ofNat 4 x.buf.length, x.ok, x.ckf, x.mal, x.lastTs]

/-- CFG (R180). -/
def respCfg (cfg : Cfg) : Response :=
  [0x9#4 ++ 0#25 ++ cfg.rxdir.bit ++ flagBit cfg.cken ++ cfg.ver.bit]

/-- Why a command is refused (R181, R182). -/
inductive IllegalReason where
  | reservedOpcode | reservedBits | badLength
deriving DecidableEq, Repr

/-- `REASON` of ILLEGAL (R182). -/
def reasonCode : IllegalReason → BitVec 4
  | .reservedOpcode => 1#4
  | .reservedBits => 2#4
  | .badLength => 3#4

/-- ILLEGAL (R182). -/
def respIllegal (r : IllegalReason) : Response :=
  [0xF#4 ++ 0#24 ++ reasonCode r]

/-- The reason that each rejection of a command reports (R181). Bytes that are no frame are no command; the last line is
never used for one. -/
def illegalOf : DecodeError → IllegalReason
  | .noWords => .badLength
  | .reservedOpcode => .reservedOpcode
  | .reservedBits => .reservedBits
  | .badLength => .badLength
  | .notAFrame => .badLength

end Sys2Proof.Machine
end

