-- ==== Sys2Proof/Machine/Ops.lean ====
section
/-! DEFINITION. The named operations over the state: reading and replacing a channel slice, delivering a response, the
error response that stands for an exception on this core (60_exceptions.md R500), the statistics update, the assembler's
scan, one FEED, a run of FEEDs, accepting a transaction and power-on reset. -/

namespace Sys2Proof.Machine

/-! ## Slices -/

/-- `ch[c]` (10_state.md R55). -/
def State.slice (s : State) : Chan → Slice
  | .ch0 => s.ch0
  | .ch1 => s.ch1

/-- `ch[c] <- x`: the other slice stays as it is (R63). -/
def State.setSlice (s : State) (c : Chan) (x : Slice) : State :=
  match c with
  | .ch0 => { s with ch0 := x }
  | .ch1 => { s with ch1 := x }

/-- `ch[c].buf <- buf` on a slice. -/
def Slice.withBuf (x : Slice) (buf : List Byte) : Slice :=
  { x with buf := buf }

/-- The slice with its five statistics elements at 0 and its buffer kept (44_channel_stats.md R403). -/
def Slice.clearStats (x : Slice) : Slice :=
  { x with ok := 0#32, ckf := 0#32, mal := 0#32, lastTs := 0#32, seen := false }

/-! ## Responses and errors -/

/-- `respond(R)`: the response leaves at RSP (00_scope.md R11; 30_encoding.md R170). -/
def State.respond (s : State) (r : Response) : State :=
  { s with sent := s.sent ++ [r] }

/-- `raise E(info)`: on this core an error is an ordinary response and changes nothing else (00_scope.md R11;
60_exceptions.md R500, R505). There is no trap to enter and none to return from (R506). -/
def raiseError (r : Response) (s : State) : State :=
  s.respond r

/-- The refusal of a command (30_encoding.md R181, R182). -/
def raiseIllegal (reason : IllegalReason) (s : State) : State :=
  raiseError (respIllegal reason) s

/-! ## Statistics -/

/-- STATS_UPDATE on the slice (44_channel_stats.md R401): a record counts in `ok` and a checksum failure in `ckf`, both
with the timestamp; a malformed candidate, whatever its reason, counts in `mal` alone. -/
def statsUpdate (ev : FrameOutcome) (ts : Word) (x : Slice) : Slice :=
  match ev with
  | .record _ => { x with ok := satInc x.ok, lastTs := ts, seen := true }
  | .checksumError _ _ => { x with ckf := satInc x.ckf, lastTs := ts, seen := true }
  | .lengthMismatch _ => { x with mal := satInc x.mal }
  | .markerError _ _ _ => { x with mal := satInc x.mal }

/-- The statistics update of a FEED, which happens only when its scan produced an event (40_frame_assembler.md R202). -/
def statsUpdateIf (ev : Option FrameOutcome) (ts : Word) (x : Slice) : Slice :=
  match ev with
  | none => x
  | some e => statsUpdate e ts x

/-! ## The assembler -/

/-- `Lrx = L(cfg.rxdir, cfg.ver)` (40_frame_assembler.md R201). -/
def Cfg.rxLen (cfg : Cfg) : Nat :=
  frameLen cfg.rxdir cfg.ver

/-- DECODE_FRAME of a candidate under the configuration (R202). -/
def candidateOutcome (cfg : Cfg) (frame : List Byte) : FrameOutcome :=
  decodeFrame frame cfg.rxdir cfg.ver cfg.cken

/-- The event of a candidate with no ETX at its offset (R204). -/
def rejection (cfg : Cfg) : FrameOutcome :=
  .markerError cfg.rxLen false true

/-- What one pass of the loop of R202 does to a buffer. -/
inductive ScanStep where
  /-- The buffer is empty, or holds an open candidate: the loop ends. -/
  | stop
  /-- A byte before STX is dropped (R205). -/
  | drop (buf : List Byte)
  /-- A candidate was taken (R207) or rejected (R204). -/
  | event (ev : FrameOutcome) (buf : List Byte)
deriving DecidableEq, Repr

/-- One pass of the loop of R202. The terminator is tested at offset `Lrx - 1` alone (R206). -/
def scanStep (cfg : Cfg) (buf : List Byte) : ScanStep :=
  match buf with
  | [] => .stop
  | b :: rest =>
    if b ≠ Config.stx then .drop rest
    else if (b :: rest).length < cfg.rxLen then .stop
    else if byteAt (b :: rest) (cfg.rxLen - 1) = Config.etx then
      .event (candidateOutcome cfg ((b :: rest).take cfg.rxLen)) ((b :: rest).drop cfg.rxLen)
    else .event (rejection cfg) rest

/-- The loop of R202, which assigns at most one event (R210); a second one is the fault of
93_implementation_defined.md U16. Every pass that does not end the loop shortens the buffer, so the buffer's length is
fuel enough. -/
def scan (cfg : Cfg) : Nat → List Byte → Option FrameOutcome → Except Fault (List Byte × Option FrameOutcome)
  | 0, buf, ev => .ok (buf, ev)
  | n + 1, buf, ev =>
    match scanStep cfg buf, ev with
    | .stop, ev => .ok (buf, ev)
    | .drop rest, ev => scan cfg n rest ev
    | .event e rest, none => scan cfg n rest (some e)
    | .event _ _, some _ => .error .secondEvent

/-- The scan of a FEED: the new byte is appended, then the loop runs (R202). -/
def feedScan (cfg : Cfg) (buf : List Byte) (b : Byte) : Except Fault (List Byte × Option FrameOutcome) :=
  scan cfg (buf.length + 1) (buf ++ [b]) none

/-- `RESP(ev, c)` (R202). -/
def respEvent (cfg : Cfg) (c : Chan) : Option FrameOutcome → Response
  | none => respDone
  | some ev => respOutcome c cfg.ver cfg.rxdir ev

/-- The state after a FEED on channel `c` whose scan left `buf` and `ev` (R202). -/
def feedDone (c : Chan) (buf : List Byte) (ev : Option FrameOutcome) (s : State) : State :=
  (s.setSlice c (statsUpdateIf ev s.tsIn ((s.slice c).withBuf buf))).respond (respEvent s.cfg c ev)

/-- One FEED (R202). TS_IN is read here and nowhere else (10_state.md R58). -/
def feedByte (c : Chan) (b : Byte) (s : State) : Result :=
  match feedScan s.cfg (s.slice c).buf b with
  | .error e => .fault e
  | .ok (buf, ev) => .next (feedDone c buf ev s)

/-- `FEEDS`: one FEED for each byte, in order (30_encoding.md R189; 40_frame_assembler.md R213; 10_state.md R49). -/
def feedAll (c : Chan) : List Byte → State → Result
  | [], s => .next s
  | b :: bs, s =>
    match feedByte c b s with
    | .next s' => feedAll c bs s'
    | .fault e => .fault e
    | .refused r => .refused r

/-! ## Configuration -/

/-- The buffers after a WRITE_CFG (45_configuration.md R450, R451): all empty if `ver` or `rxdir` changes, else kept. -/
def bufAfterCfg (old new : Cfg) (x : Slice) : Slice :=
  if new.ver ≠ old.ver ∨ new.rxdir ≠ old.rxdir then x.withBuf [] else x

/-- `cfg <- new`, with what that does to every channel's buffer (R450). -/
def State.setCfg (s : State) (new : Cfg) : State :=
  { s with cfg := new, ch0 := bufAfterCfg s.cfg new s.ch0, ch1 := bufAfterCfg s.cfg new s.ch1 }

/-! ## Accepting a transaction -/

/-- A command is taken from CMD, with TS_IN at its value while the command executes (10_state.md R49, R58). -/
def State.accept (s : State) (rest : List PortInput) (ts : Word) : State :=
  { s with inputs := rest, tsIn := ts }

/-- A run of received bytes is taken from a serial link (R49). -/
def State.acceptWire (s : State) (rest : List PortInput) (link : Chan) (ts : Word) : State :=
  { s with inputs := rest, tsIn := ts, rxLink := link }

/-- Power-on reset (70_reset_and_hazards.md R600, R601): every state element of the core at its reset value. No response is
sent. The ports keep what they hold: the transactions still to arrive and the responses already delivered (log 6). -/
def State.powerOn (s : State) (rest : List PortInput) : State :=
  { s with cfg := Cfg.reset, ch0 := Slice.reset, ch1 := Slice.reset, inputs := rest }

end Sys2Proof.Machine
end

