-- ==== Sys2Proof/Machine/Assembler.lean ====
section
/-! DEFINITION. The meanings of FEED and RESET_ASM (40_frame_assembler.md). -/

namespace Sys2Proof.Machine

/-- FEED (R200, R202). -/
def execFeed (ch : Chan) (byte : Byte) (s : State) : Result :=
  feedByte ch byte s

/-- RESET_ASM (R203): the buffer alone is cleared. -/
def execResetAsm (ch : Chan) (s : State) : Result :=
  .next ((s.setSlice ch ((s.slice ch).withBuf [])).respond respDone)

end Sys2Proof.Machine
end

