-- ==== Sys2Proof/Machine/ChannelStats.lean ====
section
/-! DEFINITION. The meanings of RESET_STATS, RESET_CH and READ_STATS (44_channel_stats.md). -/

namespace Sys2Proof.Machine

/-- RESET_STATS (R403): the five statistics elements are cleared, the buffer is kept. -/
def execResetStats (ch : Chan) (s : State) : Result :=
  .next ((s.setSlice ch (s.slice ch).clearStats).respond respDone)

/-- RESET_CH (R404): the whole slice is cleared. -/
def execResetCh (ch : Chan) (s : State) : Result :=
  .next ((s.setSlice ch ((s.slice ch).withBuf []).clearStats).respond respDone)

/-- READ_STATS (R405): nothing is written. -/
def execReadStats (ch : Chan) (s : State) : Result :=
  .next (s.respond (respStats ch (s.slice ch)))

end Sys2Proof.Machine
end

