-- ==== Sys2Proof/Machine/Configuration.lean ====
section
/-! DEFINITION. The meanings of WRITE_CFG and READ_CFG (45_configuration.md). -/

namespace Sys2Proof.Machine

/-- WRITE_CFG (R450, R451). -/
def execWriteCfg (rxdir : Direction) (cken : Bool) (ver : Version) (s : State) : Result :=
  .next ((s.setCfg { ver := ver, cken := cken, rxdir := rxdir }).respond respDone)

/-- READ_CFG (R452): nothing is written. -/
def execReadCfg (s : State) : Result :=
  .next (s.respond (respCfg s.cfg))

end Sys2Proof.Machine
end

