-- ==== Sys2Proof/Machine/FieldCodec.lean ====
section
/-! DEFINITION. The meanings of DECODE (42_field_decode.md) and ENCODE (43_field_encode.md). -/

namespace Sys2Proof.Machine

/-- DECODE (R311): only `cfg.cken` is read and nothing is written. The response carries CH 0. An error of the frame is a
response like a record's (60_exceptions.md R500). -/
def execDecode (dir : Direction) (ver : Version) (frame : List Byte) (s : State) : Result :=
  .next (s.respond (respOutcome .ch0 ver dir (decodeFrame frame dir ver s.cfg.cken)))

/-- ENCODE (R355): the range check, then the frame. No state is read or written. -/
def execEncode (ver : Version) (mode : BitVec 2) (start : Bool) (maxv minv cur : Word) (s : State) : Result :=
  match rangeCheck ver mode (sext32 maxv) (sext32 minv) (sext32 cur) with
  | some field => .next (raiseError (respRangeErr field) s)
  | none => .next (s.respond (respFrame (buildFrame ver mode start (sext32 maxv) (sext32 minv) (sext32 cur))))

end Sys2Proof.Machine
end

