-- ==== Sys2Proof/Machine/Reserved.lean ====
section
/-! DEFINITION. The meaning of the reserved opcodes (30_encoding.md R151, R181, R186): the core refuses them with a
response; it does not stop, and none executes as a no-op. -/

namespace Sys2Proof.Machine

/-- A reserved opcode (R181, R182): ILLEGAL ReservedOpcode, no state written, whatever the opcode and its other bits. -/
def execReserved (_op : BitVec 4) (_low : BitVec 28) (s : State) : Result :=
  .next (raiseIllegal .reservedOpcode s)

end Sys2Proof.Machine
end

