-- ==== Sys2Proof/Machine/WireFrames.lean ====
section
/-! DEFINITION. The meanings of the four wire frames (30_encoding.md R183): a frame received on a serial link is one FEED
on that link's channel for each of its bytes, in order (10_state.md R49; 30_encoding.md R189; 40_frame_assembler.md R213;
log 3). What the core makes of the bytes (a record, a checksum failure, a rejected candidate, part of another candidate) is
what those FEEDs make of them under the configuration in force. -/

namespace Sys2Proof.Machine

/-- The bytes of a frame arrive on the link that State names. -/
def receive (bytes : List Byte) (s : State) : Result :=
  feedAll s.rxLink bytes s

/-- FRAME_SYSV (30_encoding.md R183; 42_field_decode.md R306). -/
def execFrameSysv (rsv : BitVec 1) (chan : BitVec 2) (raw : Half) (f4 cks : Byte) (s : State) : Result :=
  receive (sysvBytes rsv chan raw f4 cks) s

/-- FRAME_SLAVE (30_encoding.md R183; 42_field_decode.md R307). -/
def execFrameSlave (id : BitVec 5) (status : BitVec 3) (raw : Half) (temp cks : Byte) (s : State) : Result :=
  receive (slaveBytes id status raw temp cks) s

/-- FRAME_CMD_V1 (30_encoding.md R183; 42_field_decode.md R308). -/
def execFrameCmdV1 (undef : BitVec 7) (start : Bool) (maxv minv : Half) (cur cks : Byte) (s : State) : Result :=
  receive (cmdV1Bytes undef start maxv minv cur cks) s

/-- FRAME_CMD_V2 (30_encoding.md R183; 42_field_decode.md R309). -/
def execFrameCmdV2 (undef : BitVec 5) (mode : BitVec 2) (start : Bool) (maxv minv cur : Half) (cks : Byte)
    (s : State) : Result :=
  receive (cmdV2Bytes undef mode start maxv minv cur cks) s

end Sys2Proof.Machine
end

