-- ==== Sys2Proof/Machine/Dispatch.lean ====
section
/-! DEFINITION. The dispatch: one arm for each instruction, each a direct call of its meaning. -/

namespace Sys2Proof.Machine

def exec (i : Instr) (s : State) : Host.Outcome State Fault Refusal :=
  match i with
  | .feed ch byte => Sys2Proof.Machine.execFeed ch byte s
  | .decode dir ver frame => Sys2Proof.Machine.execDecode dir ver frame s
  | .encode ver mode start maxv minv cur => Sys2Proof.Machine.execEncode ver mode start maxv minv cur s
  | .resetAsm ch => Sys2Proof.Machine.execResetAsm ch s
  | .resetStats ch => Sys2Proof.Machine.execResetStats ch s
  | .resetCh ch => Sys2Proof.Machine.execResetCh ch s
  | .readStats ch => Sys2Proof.Machine.execReadStats ch s
  | .writeCfg rxdir cken ver => Sys2Proof.Machine.execWriteCfg rxdir cken ver s
  | .readCfg => Sys2Proof.Machine.execReadCfg s
  | .reserved op low => Sys2Proof.Machine.execReserved op low s
  | .frameSysv rsv chan raw f4 cks => Sys2Proof.Machine.execFrameSysv rsv chan raw f4 cks s
  | .frameSlave id status raw temp cks => Sys2Proof.Machine.execFrameSlave id status raw temp cks s
  | .frameCmdV1 undef start maxv minv cur cks => Sys2Proof.Machine.execFrameCmdV1 undef start maxv minv cur cks s
  | .frameCmdV2 undef mode start maxv minv cur cks => Sys2Proof.Machine.execFrameCmdV2 undef mode start maxv minv cur cks s

end Sys2Proof.Machine
end

