-- ==== Sys2Proof/Machine/Fetch.lean ====
section
/-! DEFINITION. Taking the next transaction. The core has no program counter and fetches no instruction (10_state.md R51;
20_memory.md R115): the next instruction is the next transaction that arrives, and it is validated before it executes
(30_encoding.md R181). -/

namespace Sys2Proof.Machine

/-- What the next transaction is. -/
inductive Fetched where
  /-- No transaction is pending (log 7). -/
  | idle
  /-- A power-on reset; the state is the one after it. -/
  | reset (s : State)
  /-- An instruction, and the state in which it executes. -/
  | instr (i : Instr) (s : State)
  /-- A command that the validation of R181 refuses. -/
  | illegal (e : DecodeError) (s : State)
  /-- Received bytes that are not one whole wire frame: noise, part of a frame, several frames (R104). -/
  | stray (bytes : List Byte) (s : State)
deriving DecidableEq, Repr

/-- The next transaction of the state. -/
def fetch (s : State) : Fetched :=
  match s.inputs with
  | [] => .idle
  | .rst _ :: rest => .reset (s.powerOn rest)
  | .command ws ts :: rest =>
    match decode (.words ws) with
    | .ok i => .instr i (s.accept rest ts)
    | .error e => .illegal e (s.accept rest ts)
  | .wire link bs ts :: rest =>
    match decode (.bytes bs) with
    | .ok i => .instr i (s.acceptWire rest link ts)
    | .error _ => .stray bs (s.acceptWire rest link ts)

/-- A transaction that carries an instruction code, with TS_IN and the link as the state has them. -/
def codeInput (c : Code) (s : State) : PortInput :=
  match c with
  | .words ws => .command ws s.tsIn
  | .bytes bs => .wire s.rxLink bs s.tsIn

end Sys2Proof.Machine
end

