-- ==== Sys2Proof/Machine/Step.lean ====
section
/-! DEFINITION. One step: one transaction, executed whole (20_memory.md R105, R108, R110). -/

namespace Sys2Proof.Machine

/-- One step. A refused command takes its ILLEGAL response (30_encoding.md R181); bytes that are no whole frame are FEEDs
like any others (10_state.md R49); with nothing pending the state stays as it is (60_exceptions.md R512; log 7). -/
def step (s : State) : Host.Outcome State Fault Refusal :=
  match fetch s with
  | .idle => .next s
  | .reset s' => .next s'
  | .instr i s' => exec i s'
  | .illegal e s' => .next (raiseIllegal (illegalOf e) s')
  | .stray bs s' => feedAll s'.rxLink bs s'

/-- The state with one more transaction, the next to arrive: the instruction of the opcode-table word `w` (log 9). -/
def State.withFetchWord (s : State) (nbits w : Nat) : State :=
  { s with inputs := codeInput (tableCode nbits w) s :: s.inputs }

end Sys2Proof.Machine
end

