-- ==== Sys2Proof/Machine/AsmText.lean ====
section
/-! DEFINITION. The assembler syntax of 30_encoding.md R188 and the pseudo-instructions of R189: one line of text to the
commands it stands for. What R188 leaves open of the text form (where blanks may stand, that keywords keep their case), and
that a DECODE line of more than 255 bytes and a RAW operand that is no 32-bit word are refused, is log 12. No step reads this
file. -/

namespace Sys2Proof.Machine

/-- One line of the assembler, as its fields (R188, R189). -/
inductive AsmLine where
  | feed (ch : Chan) (byte : Byte)
  | decode (dir : Direction) (ver : Version) (bytes : List Byte)
  | encode (ver : Version) (start : Bool) (mode : BitVec 2) (maxv minv cur : Int)
  | resetAsm (ch : Chan)
  | resetStats (ch : Chan)
  | resetCh (ch : Chan)
  | readStats (ch : Chan)
  | writeCfg (ver : Version) (cken : Bool) (rxdir : Direction)
  | readCfg
  /-- `FEEDS`: one FEED for each byte, in order (R189). -/
  | feeds (ch : Chan) (bytes : List Byte)
  /-- `RAW`: one command of exactly these words (R189). -/
  | raw (ws : List Word)
deriving DecidableEq, Repr

/-- The words of a command; none for a wire frame, which is no command. -/
def commandWords (i : Instr) : List Word :=
  match encode i with
  | .words ws => ws
  | .bytes _ => []

/-- Whether an integer fits a 32-bit operand word (R188). -/
def fitsWord (x : Int) : Bool :=
  decide (-2147483648 ≤ x ∧ x ≤ 2147483647)

/-- The commands of a line, each a list of words; none for an assembler error: an ENCODE integer that fits no operand word
(R188), or a DECODE line of more bytes than the length field of R153 carries (log 12). -/
def assemble : AsmLine → Option (List (List Word))
  | .feed ch b => some [commandWords (.feed ch b)]
  | .decode dir ver bs =>
    if bs.length ≤ Config.decLenMax then some [commandWords (.decode dir ver bs)] else none
  | .encode ver start mode maxv minv cur =>
    if fitsWord maxv && fitsWord minv && fitsWord cur then
      some [commandWords (.encode ver mode start (.ofInt 32 maxv) (.ofInt 32 minv) (.ofInt 32 cur))]
    else none
  | .resetAsm ch => some [commandWords (.resetAsm ch)]
  | .resetStats ch => some [commandWords (.resetStats ch)]
  | .resetCh ch => some [commandWords (.resetCh ch)]
  | .readStats ch => some [commandWords (.readStats ch)]
  | .writeCfg ver cken rxdir => some [commandWords (.writeCfg rxdir cken ver)]
  | .readCfg => some [commandWords .readCfg]
  | .feeds ch bs => some (bs.map fun b => commandWords (.feed ch b))
  | .raw ws => some [ws]

/-! ## Text to tokens -/

/-- One token of a line. -/
abbrev Token := List Char

/-- The token collected so far, if any; its characters are held in reverse. -/
def flushToken (acc : List Char) : List Token :=
  match acc with
  | [] => []
  | _ :: _ => [acc.reverse]

/-- The tokens of a line: a comment starts at `;`, blanks separate, and each of `,`, `=`, `[`, `]` is a token. -/
def tokens : List Char → List Char → List Token
  | [], acc => flushToken acc
  | c :: cs, acc =>
    if c = ';' then flushToken acc
    else if c = ' ' ∨ c = '\t' then flushToken acc ++ tokens cs []
    else if c = ',' ∨ c = '=' ∨ c = '[' ∨ c = ']' then flushToken acc ++ [c] :: tokens cs []
    else tokens cs (c :: acc)

/-- The value of a digit, decimal or hex, of either case. -/
def digitValue (c : Char) : Option Nat :=
  let n := c.toNat
  if 48 ≤ n ∧ n ≤ 57 then some (n - 48)
  else if 65 ≤ n ∧ n ≤ 70 then some (n - 55)
  else if 97 ≤ n ∧ n ≤ 102 then some (n - 87)
  else none

/-- A run of digits in a base, most significant first, continuing the value `acc`. -/
def digitsValue (base : Nat) : List Char → Nat → Option Nat
  | [], acc => some acc
  | c :: cs, acc =>
    match digitValue c with
    | none => none
    | some d => if d < base then digitsValue base cs (base * acc + d) else none

/-- A run of at least one digit. -/
def natToken (base : Nat) (t : Token) : Option Nat :=
  match t with
  | [] => none
  | _ :: _ => digitsValue base t 0

/-- A number: decimal with an optional `-`, or hex `0x..` (R188). -/
def intToken (t : Token) : Option Int :=
  match t with
  | '-' :: ds => (natToken 10 ds).map fun n => -(n : Int)
  | '0' :: 'x' :: ds => (natToken 16 ds).map fun n => (n : Int)
  | ds => (natToken 10 ds).map fun n => (n : Int)

/-- A number from 0 up to a bound, in any form that R188 gives numbers; any other number is an assembler error, which R188 says
of ENCODE integers alone (DESIGN CHOICE, log 12). -/
def boundedToken (bound : Nat) (t : Token) : Option Nat :=
  match intToken t with
  | some (.ofNat n) => if n < bound then some n else none
  | _ => none

/-- A byte of a list: two hex digits (R188). -/
def byteToken (t : Token) : Option Byte :=
  match t with
  | [_, _] => (natToken 16 t).map (BitVec.ofNat 8)
  | _ => none

/-- Every byte of a list (R188). -/
def byteTokens : List Token → Option (List Byte)
  | [] => some []
  | t :: ts =>
    match byteToken t, byteTokens ts with
    | some b, some bs => some (b :: bs)
    | _, _ => none

/-- Words separated by commas, for `RAW` (R189). An operand written as a negative number, or as one of `2^32` or more, is an
assembler error: DESIGN CHOICE (log 12), since R189 says only that the operands are 32-bit words. -/
def wordTokens : List Token → Option (List Word)
  | [] => some []
  | [t] => (boundedToken 4294967296 t).map fun n => [BitVec.ofNat 32 n]
  | t :: [','] :: ts =>
    match boundedToken 4294967296 t, wordTokens ts with
    | some n, some ws => if ws.isEmpty then none else some (BitVec.ofNat 32 n :: ws)
    | _, _ => none
  | _ => none

/-- `ch0` or `ch1`. -/
def chanToken (t : Token) : Option Chan :=
  if t = "ch0".toList then some .ch0 else if t = "ch1".toList then some .ch1 else none

/-- `v1` or `v2`. -/
def versionToken (t : Token) : Option Version :=
  if t = "v1".toList then some .v1 else if t = "v2".toList then some .v2 else none

/-- `m2s` or `s2m`. -/
def directionToken (t : Token) : Option Direction :=
  if t = "m2s".toList then some .m2s else if t = "s2m".toList then some .s2m else none

/-- `0` or `1`, in any form of a number (log 12). -/
def flagToken (t : Token) : Option Bool :=
  (boundedToken 2 t).map fun n => n == 1

/-- The value of `<key> = <value>`. -/
def keyed (key : String) (ts : List Token) : Option Token :=
  match ts with
  | [k, ['='], v] => if k = key.toList then some v else none
  | _ => none

/-- The operands of a line: its tokens cut at the commas. -/
def operands : List Token → List Token → List (List Token)
  | [], acc => [acc]
  | t :: ts, acc => if t = [','] then acc :: operands ts [] else operands ts (acc ++ [t])

/-- The bytes between `[` and `]`. -/
def bracketed (ts : List Token) : Option (List Byte) :=
  match ts with
  | ['['] :: rest =>
    if rest.getLast? = some [']'] then byteTokens rest.dropLast else none
  | _ => none

/-! ## Tokens to a line -/

/-- The line of a command with one channel operand. -/
def channelLine (mk : Chan → AsmLine) (args : List (List Token)) : Option AsmLine :=
  match args with
  | [[c]] => (chanToken c).map mk
  | _ => none

/-- `FEED ch<c>, <byte>` (R188); a number outside 0 to 255 is an assembler error (log 12). -/
def feedLine (args : List (List Token)) : Option AsmLine :=
  match args with
  | [[c], [b]] => do
    let ch ← chanToken c
    let n ← boundedToken 256 b
    pure (.feed ch (BitVec.ofNat 8 n))
  | _ => none

/-- `FEEDS ch<c>, <b0> <b1> ...` (R189). -/
def feedsLine (args : List (List Token)) : Option AsmLine :=
  match args with
  | [[c], bs] => do
    let ch ← chanToken c
    let bytes ← byteTokens bs
    pure (.feeds ch bytes)
  | _ => none

/-- `DECODE m2s|s2m, v1|v2, [<b0> <b1> ...]` (R188). -/
def decodeLine (args : List (List Token)) : Option AsmLine :=
  match args with
  | [[d], [v], bs] => do
    let dir ← directionToken d
    let ver ← versionToken v
    let bytes ← bracketed bs
    pure (.decode dir ver bytes)
  | _ => none

/-- `ENCODE v1|v2, start=.., mode=.., maxv=.., minv=.., cur=..` (R188). -/
def encodeLine (args : List (List Token)) : Option AsmLine :=
  match args with
  | [[v], st, mo, ma, mi, cu] => do
    let ver ← versionToken v
    let start ← flagToken (← keyed "start" st)
    let mode ← boundedToken 4 (← keyed "mode" mo)
    let maxv ← intToken (← keyed "maxv" ma)
    let minv ← intToken (← keyed "minv" mi)
    let cur ← intToken (← keyed "cur" cu)
    pure (.encode ver start (BitVec.ofNat 2 mode) maxv minv cur)
  | _ => none

/-- `WRITE_CFG ver=v1|v2, cken=<0|1>, rxdir=m2s|s2m` (R188). -/
def writeCfgLine (args : List (List Token)) : Option AsmLine :=
  match args with
  | [v, k, d] => do
    let ver ← versionToken (← keyed "ver" v)
    let cken ← flagToken (← keyed "cken" k)
    let rxdir ← directionToken (← keyed "rxdir" d)
    pure (.writeCfg ver cken rxdir)
  | _ => none

/-- The line that a mnemonic and its operand tokens form (R188, R189). -/
def parseLine (m : Token) (ts : List Token) : Option AsmLine :=
  if m = "FEED".toList then feedLine (operands ts [])
  else if m = "FEEDS".toList then feedsLine (operands ts [])
  else if m = "DECODE".toList then decodeLine (operands ts [])
  else if m = "ENCODE".toList then encodeLine (operands ts [])
  else if m = "RESET_ASM".toList then channelLine .resetAsm (operands ts [])
  else if m = "RESET_STATS".toList then channelLine .resetStats (operands ts [])
  else if m = "RESET_CH".toList then channelLine .resetCh (operands ts [])
  else if m = "READ_STATS".toList then channelLine .readStats (operands ts [])
  else if m = "WRITE_CFG".toList then writeCfgLine (operands ts [])
  else if m = "READ_CFG".toList then (if ts.isEmpty then some .readCfg else none)
  else if m = "RAW".toList then (wordTokens ts).map .raw
  else none

/-- The commands that one line of text stands for (R188, R189): none for an assembler error, no command for a line that
is blank or only a comment. -/
def assembleText (line : List Char) : Option (List (List Word)) :=
  match tokens line [] with
  | [] => some []
  | m :: ts =>
    match parseLine m ts with
    | none => none
    | some l => assemble l

end Sys2Proof.Machine
end

