-- ==== Sys2Proof/Machine/Units.lean ====
section
/-! DEFINITION. The exact quantities that a host or a model computes from the core's integers: the physical values of
42_field_decode.md R314 (00_scope.md R12) and the error rate of 44_channel_stats.md R406. The core computes none of them;
no step reads this file. -/

namespace Sys2Proof.Machine

/-- System voltage in V: VOLT / 10 (R314). -/
def sysvVolts (volt : Int) : Rat :=
  mkRat volt 10

/-- Slave current in A: CURR / 100 (R314). -/
def slaveAmps (curr : Int) : Rat :=
  mkRat curr 100

/-- Slave temperature in °C: TEMP / 2 (R314). -/
def slaveCelsius (temp : Byte) : Rat :=
  mkRat temp.toNat 2

/-- Command current in A: CURC in V1, CURC / 10 in V2 (R314). -/
def cmdAmps (ver : Version) (curc : Int) : Rat :=
  match ver with
  | .v1 => curc
  | .v2 => mkRat curc 10

/-- `errorRate = ckf / max(1, ok + ckf)`, the sum unbounded (R406), from the OK and CKF words of one READ_STATS. -/
def errorRate (ok ckf : Word) : Rat :=
  mkRat ckf.toNat (max 1 (ok.toNat + ckf.toNat))

end Sys2Proof.Machine
end

