-- ==== Sys2Proof/Machine/Stream.lean ====
section
/-! DEFINITION. SM1's `feed(bytes)` as one loop over a whole byte sequence (40_frame_assembler.md R213): the reference that
a series of one-byte FEEDs is held against. No step reads this file. -/

namespace Sys2Proof.Machine

/-- The loop of R202 without the bound of one event: every event in order, and the bytes left over. -/
def streamScan (cfg : Cfg) : Nat → List Byte → List Byte × List FrameOutcome
  | 0, buf => (buf, [])
  | n + 1, buf =>
    match scanStep cfg buf with
    | .stop => (buf, [])
    | .drop rest => streamScan cfg n rest
    | .event e rest => ((streamScan cfg n rest).1, e :: (streamScan cfg n rest).2)

/-- `feed(bytes)` on a buffer: all bytes appended at once, then the loop (R213). -/
def streamFeed (cfg : Cfg) (buf bs : List Byte) : List Byte × List FrameOutcome :=
  streamScan cfg (buf.length + bs.length) (buf ++ bs)

/-- The statistics of a slice after a list of events with one timestamp (44_channel_stats.md R401). -/
def statsUpdates (evs : List FrameOutcome) (ts : Word) (x : Slice) : Slice :=
  evs.foldl (fun x e => statsUpdate e ts x) x

/-- The responses of a list that report an event, in order: all but DONE (44_channel_stats.md R408). -/
def eventResponses (rs : List Response) : List Response :=
  rs.filter fun r => rcode r != 0x0#4

end Sys2Proof.Machine
end

