-- ==== Sys2Proof/Safety.lean ====
section
/-! DEFINITION. What a good state and a safe run are, in the terms that claims use. -/

namespace Sys2Proof.Machine

/-- `Inv(c)` of 40_frame_assembler.md R211 on one buffer, for an expected length: empty, or STX first and shorter than a
frame. -/
abbrev bufInv (len : Nat) (buf : List Byte) : Prop :=
  buf = [] ∨ (byteAt buf 0 = Config.stx ∧ buf.length < len)

/-- While `seen` is 0 the channel has counted no candidate since the last clear and `last_ts` is 0 (10_state.md R59;
44_channel_stats.md R401). -/
abbrev seenInv (x : Slice) : Prop :=
  x.seen = false → x.ok = 0#32 ∧ x.ckf = 0#32 ∧ x.lastTs = 0#32

/-- The states between commands (40_frame_assembler.md R211): both buffers meet `bufInv`. -/
abbrev AsmInv (s : State) : Prop :=
  bufInv s.cfg.rxLen s.ch0.buf ∧ bufInv s.cfg.rxLen s.ch1.buf

/-- The invariant of every reachable state: R211 on both buffers, and `seenInv` on both slices. -/
abbrev Inv (s : State) : Prop :=
  AsmInv s ∧ seenInv s.ch0 ∧ seenInv s.ch1

/-- An answer that is a next state: the machine goes on (60_exceptions.md R500, R506: no error stops the core). -/
abbrev Completes (r : Result) : Prop :=
  ∃ t, r = .next t

/-- The channel that a command names (44_channel_stats.md R407): the five commands with a CH field. -/
def channelOf : Instr → Option Chan
  | .feed ch _ => some ch
  | .resetAsm ch => some ch
  | .resetStats ch => some ch
  | .resetCh ch => some ch
  | .readStats ch => some ch
  | .decode _ _ _ => none
  | .encode _ _ _ _ _ _ => none
  | .writeCfg _ _ _ => none
  | .readCfg => none
  | .reserved _ _ => none
  | .frameSysv _ _ _ _ _ => none
  | .frameSlave _ _ _ _ _ => none
  | .frameCmdV1 _ _ _ _ _ _ => none
  | .frameCmdV2 _ _ _ _ _ _ _ => none

/-- The state elements of the core, without the ports: what the spec calls state (10_state.md R50). -/
def State.core (s : State) : Cfg × Slice × Slice :=
  (s.cfg, s.ch0, s.ch1)

/-- Bytes that hold no STX (40_frame_assembler.md R214: noise). -/
abbrev noStx (bs : List Byte) : Prop :=
  ∀ b ∈ bs, b ≠ Config.stx

/-- A frame of the length and markers that a configuration expects (40_frame_assembler.md R202). -/
abbrev framed (cfg : Cfg) (f : List Byte) : Prop :=
  f.length = cfg.rxLen ∧ byteAt f 0 = Config.stx ∧ byteAt f (f.length - 1) = Config.etx

/-- A frame that is valid for a configuration (R214): framed, with its checksum right or not checked. -/
abbrev validFrame (cfg : Cfg) (f : List Byte) : Prop :=
  framed cfg f ∧ (cfg.cken = true → cks f = cksByte f)

/-- The record that a valid frame decodes to under a configuration. -/
def cfgRecord (cfg : Cfg) (f : List Byte) : Record :=
  recordOf f cfg.rxdir cfg.ver

/-- A frame with bit `j` of byte `k` flipped (41_checksum.md R254). -/
def flipBit (f : List Byte) (k j : Nat) : List Byte :=
  f.set k (byteAt f k ^^^ (1#8 <<< j))

/-- `RESV(op)` as R181 of 30_encoding.md lists it, by opcode number. -/
def resvTable : Nat → Word
  | 1 => 0x07FFFF00#32
  | 2 => 0x09FFFF00#32
  | 3 => 0x0DFFFFF8#32
  | 4 => 0x07FFFFFF#32
  | 5 => 0x07FFFFFF#32
  | 6 => 0x07FFFFFF#32
  | 7 => 0x07FFFFFF#32
  | 8 => 0x0FFFFFF8#32
  | 9 => 0x0FFFFFFF#32
  | _ => 0#32

/-- `LENGTH(op, w0)` as R158 of 30_encoding.md gives it, by opcode number. -/
def lengthTable (op : Nat) (w0 : Word) : Nat :=
  if op = 2 then 1 + (w0.toNat % 256 + 3) / 4 else if op = 3 then 4 else 1

/-- `validate(cmd)` of 30_encoding.md R181, transcribed: the reason of the refusal, none if the command is accepted. -/
def illegalReason : List Word → Option Nat
  | [] => some 3
  | w0 :: ws =>
    if w0.toNat / 2 ^ 28 = 0 ∨ 10 ≤ w0.toNat / 2 ^ 28 then some 1
    else if w0 &&& resvTable (w0.toNat / 2 ^ 28) ≠ 0#32 then some 2
    else if ws.length + 1 ≠ lengthTable (w0.toNat / 2 ^ 28) w0 then some 3
    else none

/-- The input ports of `t` are as in `s`: nothing accepted, TS_IN and the link as they were. -/
abbrev portsKept (s t : State) : Prop :=
  t.inputs = s.inputs ∧ t.tsIn = s.tsIn ∧ t.rxLink = s.rxLink

/-- Everything outside the slice of channel `c` and the responses is in `t` as in `s`: the configuration, the other
channel's slice, the input ports (10_state.md R63). -/
abbrev outsideKept (c : Chan) (s t : State) : Prop :=
  t.cfg = s.cfg ∧ (∀ d, d ≠ c → t.slice d = s.slice d) ∧ portsKept s t

/-- The responses that `t` has delivered after those of `s`. -/
def newResponses (s t : State) : List (List Word) :=
  t.sent.drop s.sent.length

/-- What a run of FEEDs of `bs` on channel `c` makes of that channel (40_frame_assembler.md R213): the buffer and the counted
events of the loop over the whole sequence, one response for each byte, and everything else as it was. -/
abbrev receivedAs (c : Chan) (bs : List Byte) (s t : State) : Prop :=
  t.slice c = statsUpdates (streamFeed s.cfg (s.slice c).buf bs).2 s.tsIn
      ((s.slice c).withBuf (streamFeed s.cfg (s.slice c).buf bs).1) ∧
    (newResponses s t).length = bs.length ∧
    eventResponses (newResponses s t) =
      (streamFeed s.cfg (s.slice c).buf bs).2.map (respOutcome c s.cfg.ver s.cfg.rxdir) ∧
    outsideKept c s t

/-- A bit as a number. -/
def bitNat (b : Bool) : Nat :=
  if b then 1 else 0

/-- The number of a channel, a version and a direction (30_encoding.md R152, R153). -/
def chanNat : Chan → Nat
  | .ch0 => 0
  | .ch1 => 1

/-- The number of a version: 0 = V1, 1 = V2. -/
def verNat : Version → Nat
  | .v1 => 0
  | .v2 => 1

/-- The number of a direction: 0 = M2S, 1 = S2M. -/
def dirNat : Direction → Nat
  | .m2s => 0
  | .s2m => 1

end Sys2Proof.Machine
end

