-- ==== Sys2Proof/Certificates/Slice0/Obligations.lean ====
section
/-! DEFINITION. The statements for the provers. Each docstring names the rules of spec/ it formalises; a clause that rests
on a choice of the model names the log entry. -/

open Sys2Proof Sys2Proof.Machine

/-! ## Encodings -/

/-- The encodings of 30_encoding.md R152 to R157 and R183: decoding the encoding of a well-formed instruction gives it back,
with every operand at every value. That a reserved opcode is an instruction is the model's choice
(log 10). -/
def Obligations.DecodeOfEncode : Prop :=
  ∀ i : Instr, i.wf = true → decode (encode i) = .ok i

/-- Each code has one meaning: what decodes to an instruction is that instruction's encoding, but for the padding bytes of a
DECODE, which R153 says are ignored. A reserved opcode is an instruction by log 10. -/
def Obligations.EncodeOfDecode : Prop :=
  ∀ (c : Code) (i : Instr), decode c = .ok i →
    match i with
    | .decode dir ver f =>
      ∃ w0 ops, c = .words (w0 :: ops) ∧ encode (.decode dir ver f) = .words (w0 :: packWords f) ∧
        ops.length = (packWords f).length ∧ (unpackWords ops).take f.length = f
    | i => encode i = c

/-- Everything the decoder answers is well formed: a DECODE carries at most 255 bytes, a reserved command has a reserved
opcode (an instruction by log 10), a slave frame has an ID other than 0 (30_encoding.md R151, R153, R183). -/
def Obligations.DecodedIsWellFormed : Prop :=
  ∀ (c : Code) (i : Instr), decode c = .ok i → i.wf = true

/-- Words written out from the encodings of R152 to R157 and R183 decode to the instruction they stand for; that of the reserved
opcode is an instruction by log 10. -/
def Obligations.SpecWordsDecode : Prop :=
  decode (.words [0x180000FE#32]) = .ok (.feed .ch1 0xFE#8) ∧
    decode (.words [0x26000003#32, 0x02056412#32]) = .ok (.decode .s2m .v2 [0x02#8, 0x05#8, 0x64#8]) ∧
    decode (.words [0x32000005#32, 0x64#32, 0xFFFFFFCE#32, 0x320#32]) =
      .ok (.encode .v2 2#2 true 0x64#32 0xFFFFFFCE#32 0x320#32) ∧
    decode (.words [0x48000000#32]) = .ok (.resetAsm .ch1) ∧
    decode (.words [0x50000000#32]) = .ok (.resetStats .ch0) ∧
    decode (.words [0x68000000#32]) = .ok (.resetCh .ch1) ∧
    decode (.words [0x70000000#32]) = .ok (.readStats .ch0) ∧
    decode (.words [0x80000006#32]) = .ok (.writeCfg .s2m true .v1) ∧
    decode (.words [0x90000000#32]) = .ok .readCfg ∧
    decode (.words [0xA0000001#32]) = .ok (.reserved 0xA#4 1#28) ∧
    decode (.bytes [0x02#8, 0x06#8, 0x0B#8, 0xB8#8, 0xAA#8, 0x73#8, 0x03#8]) =
      .ok (.frameSysv 1#1 2#2 0x0BB8#16 0xAA#8 0x73#8) ∧
    decode (.bytes [0x02#8, 0x29#8, 0xE0#8, 0xC0#8, 0x32#8, 0xFB#8, 0x03#8]) =
      .ok (.frameSlave 5#5 1#3 0xE0C0#16 0x32#8 0xFB#8)

/-- The validation of 30_encoding.md R181: at a pending command the step refuses exactly what `validate` refuses, with its
reason in ILLEGAL (R182) and no element of the core written, and runs everything else. That the next state of a refused
command has the rest of the list to come and TS_IN at the command's value is the model's choice (logs 1 and 2): the spec says
that a refused command samples nothing, and `tsIn` is what the wire carries, not a sample of it. -/
def Obligations.CommandsValidatedInOrder : Prop :=
  ∀ (s : State) (ws : List Word) (ts : Word) (rest : List PortInput),
    s.inputs = .command ws ts :: rest →
      match illegalReason ws with
      | some r =>
        step s = .next { s with
          inputs := rest, tsIn := ts, sent := s.sent ++ [[BitVec.ofNat 32 (0xF0000000 + r)]] }
      | none =>
        ∃ i, decode (.words ws) = .ok i ∧ step s = exec i { s with inputs := rest, tsIn := ts }

/-- The reserved opcodes (30_encoding.md R151, R181, R182, R186): the command decodes, and executing it delivers ILLEGAL
ReservedOpcode and changes nothing. R181 refuses such a command before it executes; that it decodes to an instruction whose
execution is that refusal is the model's choice (log 10), since the opcode table has a row for it. -/
def Obligations.ReservedOpcodesRefused : Prop :=
  ∀ (op : BitVec 4) (low : BitVec 28) (s : State),
    (op.toNat = 0 ∨ 10 ≤ op.toNat → decode (.words [op ++ low]) = .ok (.reserved op low)) ∧
      exec (.reserved op low) s = .next { s with sent := s.sent ++ [[0xF0000001#32]] }

/-- A step runs the decoded instruction (20_memory.md R105, R108; 10_state.md R49, R51): the next transaction is taken from
the list of those that arrive, TS_IN and the link take its values, and the instruction executes in that state. The model's
choices in it: the list (log 1); TS_IN as a field that each transaction sets (log 2); in the second clause, that a run of
received bytes is one transaction, one step and one instruction, where R49 makes one FEED of each byte (log 3), and the link as
a field (log 4). `WireRunEqualsFeedCommands` says what such a run stands for. -/
def Obligations.StepRunsDecodedInstruction : Prop :=
  ∀ (s : State) (i : Instr) (ts : Word) (rest : List PortInput),
    (∀ ws, s.inputs = .command ws ts :: rest → decode (.words ws) = .ok i →
      step s = exec i { s with inputs := rest, tsIn := ts }) ∧
    (∀ link bs, s.inputs = .wire link bs ts :: rest → decode (.bytes bs) = .ok i →
      step s = exec i { s with inputs := rest, tsIn := ts, rxLink := link })

/-! ## Reset -/

/-- The values after power-on reset (70_reset_and_hazards.md R601), and what READ_CFG and READ_STATS then return. -/
def Obligations.PowerOnValues : Prop :=
  State.reset.cfg = { ver := .v2, cken := true, rxdir := .m2s } ∧
    (∀ c, State.reset.slice c =
      { buf := [], ok := 0#32, ckf := 0#32, mal := 0#32, lastTs := 0#32, seen := false }) ∧
    exec .readCfg State.reset = .next { State.reset with sent := [[0x90000003#32]] } ∧
    exec (.readStats .ch0) State.reset =
      .next { State.reset with sent := [[0x80000000#32, 0#32, 0#32, 0#32, 0#32]] } ∧
    exec (.readStats .ch1) State.reset =
      .next { State.reset with sent := [[0x88000000#32, 0#32, 0#32, 0#32, 0#32]] }

/-- A pulse of RST (70_reset_and_hazards.md R600), whatever command it interrupts: every element of the core at its reset
value, no response sent. That one pulse is one input, and that the ports keep what they hold, is the model's choice (log 6). -/
def Obligations.ResetPulseRestoresPowerOnState : Prop :=
  ∀ (s : State) (during : Option (List Word)) (rest : List PortInput),
    s.inputs = .rst during :: rest →
      ∃ t, step s = .next t ∧ t.core = State.reset.core ∧ t.sent = s.sent ∧ t.inputs = rest ∧ t.tsIn = s.tsIn ∧
        t.rxLink = s.rxLink

/-! ## Invariants of the machine -/

/-- The invariant holds at reset (40_frame_assembler.md R211; 10_state.md R59). -/
def Obligations.InvariantAtReset : Prop :=
  Inv State.reset

/-- Every step keeps the invariant: each buffer is empty, or starts with STX and is shorter than a frame (40_frame_assembler.md
R211), and a channel that has seen no candidate has no count of one and `last_ts` 0 (10_state.md R59). -/
def Obligations.InvariantKeptByStep : Prop :=
  ∀ s t : State, Inv s → step s = .next t → Inv t

/-- No error stops the core (60_exceptions.md R500, R506): from every state whose buffers meet R211, whatever transaction
comes next, the step answers a next state. -/
def Obligations.StepAlwaysCompletes : Prop :=
  ∀ s : State, AsmInv s → Completes (step s)

/-- Counters saturate and never decrease (44_channel_stats.md R402): an increment adds 1 below `2^32 - 1` and leaves a
counter there; no step makes a counter of a channel smaller, but RESET_STATS or RESET_CH on that channel and power-on
reset. -/
def Obligations.CountersNeverDecrease : Prop :=
  (∀ x : Word, satInc x = if x = 0xFFFFFFFF#32 then x else x + 1#32) ∧
    ∀ (s t : State) (c : Chan), step s = .next t →
      (∀ d rest, s.inputs ≠ .rst d :: rest) →
      (∀ ws ts rest, s.inputs = .command ws ts :: rest →
        decode (.words ws) ≠ .ok (.resetStats c) ∧ decode (.words ws) ≠ .ok (.resetCh c)) →
      (s.slice c).ok ≤ (t.slice c).ok ∧ (s.slice c).ckf ≤ (t.slice c).ckf ∧ (s.slice c).mal ≤ (t.slice c).mal

/-- Only WRITE_CFG writes `cfg` (10_state.md R53; 70_reset_and_hazards.md R602). -/
def Obligations.OnlyWriteCfgChangesCfg : Prop :=
  ∀ (i : Instr) (s t : State), exec i s = .next t →
    (∀ rxdir cken ver, i ≠ .writeCfg rxdir cken ver) → t.cfg = s.cfg

/-- Only FEED counts up (44_channel_stats.md R401), here also as the bytes of a wire frame: any other instruction leaves the
five statistics elements of each channel as they are or clears all five. -/
def Obligations.OnlyFeedsCount : Prop :=
  ∀ (i : Instr) (s t : State) (c : Chan), exec i s = .next t →
    match i with
    | .feed _ _ | .frameSysv _ _ _ _ _ | .frameSlave _ _ _ _ _ | .frameCmdV1 _ _ _ _ _ _
    | .frameCmdV2 _ _ _ _ _ _ _ => True
    | _ => (t.slice c).withBuf [] = (s.slice c).withBuf [] ∨ (t.slice c).withBuf [] = Slice.reset

/-- A command on one channel changes no element of the other channel's slice (44_channel_stats.md R407). -/
def Obligations.SiblingChannelUntouched : Prop :=
  ∀ (i : Instr) (c : Chan) (s t : State), channelOf i = some c → exec i s = .next t →
    ∀ d, d ≠ c → t.slice d = s.slice d

/-- Every command gets exactly one response, of the length that its RCODE fixes, and the codes 0xA to 0xE are never
produced (30_encoding.md R170). -/
def Obligations.OneResponsePerCommand : Prop :=
  ∀ (i : Instr) (s t : State), exec i s = .next t →
    match i with
    | .frameSysv _ _ _ _ _ | .frameSlave _ _ _ _ _ | .frameCmdV1 _ _ _ _ _ _ | .frameCmdV2 _ _ _ _ _ _ _ => True
    | _ => ∃ r, t.sent = s.sent ++ [r] ∧
        ((rcode r).toNat, r.length) ∈
          [(0, 1), (1, 3), (2, 3), (3, 5), (4, 1), (5, 1), (6, 4), (7, 1), (8, 5), (9, 1), (15, 1)]

/-- TS_IN is read only by a FEED that takes a candidate (10_state.md R58; 70_reset_and_hazards.md R609): any other command
does the same at every value of TS_IN, and so does a FEED whose response is DONE or MALFORMED. -/
def Obligations.TimestampReadOnlyByCandidates : Prop :=
  ∀ (i : Instr) (s t : State) (w : Word), exec i s = .next t →
    match i with
    | .frameSysv _ _ _ _ _ | .frameSlave _ _ _ _ _ | .frameCmdV1 _ _ _ _ _ _ | .frameCmdV2 _ _ _ _ _ _ _ => True
    | .feed _ _ =>
      (∃ r, t.sent = s.sent ++ [r] ∧ (rcode r = 0x0#4 ∨ rcode r = 0x5#4)) →
        exec i { s with tsIn := w } = .next { t with tsIn := w }
    | _ => exec i { s with tsIn := w } = .next { t with tsIn := w }

/-- Commands on different channels commute (20_memory.md R112, first case): in either order the same state of the core, and
each command gets the same response. -/
def Obligations.ChannelCommandsCommute : Prop :=
  ∀ (i j : Instr) (c d : Chan) (s : State), channelOf i = some c → channelOf j = some d → c ≠ d → AsmInv s →
    ∃ s1 s2 s12 s21 ri rj,
      exec i s = .next s1 ∧ exec j s1 = .next s12 ∧ exec j s = .next s2 ∧ exec i s2 = .next s21 ∧
        s12.core = s21.core ∧
        s1.sent = s.sent ++ [ri] ∧ s21.sent = s2.sent ++ [ri] ∧
        s2.sent = s.sent ++ [rj] ∧ s12.sent = s1.sent ++ [rj]

/-- DECODE, ENCODE, READ_CFG and a reserved opcode (an instruction by log 10) against any command but WRITE_CFG, and ENCODE
against WRITE_CFG (20_memory.md R112, second and third case): the reader gets the same response before and after, and the other command has
the same effect and the same responses. -/
def Obligations.ReadersCommute : Prop :=
  ∀ (i j : Instr) (s s2 : State), exec j s = .next s2 →
    (match i with
      | .decode _ _ _ | .readCfg | .reserved _ _ => ∀ rxdir cken ver, j ≠ .writeCfg rxdir cken ver
      | .encode _ _ _ _ _ _ => True
      | _ => False) →
    ∃ s1 s12 s21 r,
      exec i s = .next s1 ∧ exec j s1 = .next s12 ∧ exec i s2 = .next s21 ∧
        s12.core = s2.core ∧ s21.core = s2.core ∧ s1.core = s.core ∧
        s1.sent = s.sent ++ [r] ∧ s21.sent = s2.sent ++ [r] ∧
        newResponses s1 s12 = newResponses s s2

/-- A command other than FEED, issued twice in a row, changes nothing the second time and gets the same response
(20_memory.md R106); DECODE, ENCODE, READ_STATS, READ_CFG and a refused command write nothing at all. The refused command
is a reserved opcode, an instruction by log 10. -/
def Obligations.CommandsIdempotent : Prop :=
  ∀ (i : Instr) (s : State),
    match i with
    | .feed _ _ | .frameSysv _ _ _ _ _ | .frameSlave _ _ _ _ _ | .frameCmdV1 _ _ _ _ _ _
    | .frameCmdV2 _ _ _ _ _ _ _ => True
    | .decode _ _ _ | .encode _ _ _ _ _ _ | .readStats _ | .readCfg | .reserved _ _ =>
      ∃ t u r, exec i s = .next t ∧ exec i t = .next u ∧ t.core = s.core ∧ u.core = s.core ∧
        t.sent = s.sent ++ [r] ∧ u.sent = t.sent ++ [r]
    | .resetAsm _ | .resetStats _ | .resetCh _ | .writeCfg _ _ _ =>
      ∃ t u r, exec i s = .next t ∧ exec i t = .next u ∧ u.core = t.core ∧
        t.sent = s.sent ++ [r] ∧ u.sent = t.sent ++ [r]

/-! ## FEED and RESET_ASM -/

/-- FEED on a channel whose buffer meets R211 (40_frame_assembler.md R202, R204 to R207; 44_channel_stats.md R401). The four
cases: garbage before STX is dropped; an open candidate grows; a candidate with ETX at its offset is decoded, counted and
timestamped; one without is rejected and the bytes behind its STX are scanned again. -/
def Obligations.FeedResult : Prop :=
  ∀ (s : State) (c : Chan) (b : Byte), bufInv s.cfg.rxLen (s.slice c).buf →
    ∃ t, exec (.feed c b) s = .next t ∧ outsideKept c s t ∧
      (if (s.slice c).buf = [] ∧ b ≠ Config.stx then
        t.slice c = s.slice c ∧ t.sent = s.sent ++ [[0#32]]
      else if (s.slice c).buf.length + 1 < s.cfg.rxLen then
        t.slice c = { s.slice c with buf := (s.slice c).buf ++ [b] } ∧ t.sent = s.sent ++ [[0#32]]
      else if b = Config.etx then
        t.sent = s.sent ++ [respOutcome c s.cfg.ver s.cfg.rxdir
          (decodeFrame ((s.slice c).buf ++ [b]) s.cfg.rxdir s.cfg.ver s.cfg.cken)] ∧
        (if s.cfg.cken = true ∧ cks ((s.slice c).buf ++ [b]) ≠ cksByte ((s.slice c).buf ++ [b]) then
          t.slice c = { s.slice c with
            buf := [], ckf := satInc (s.slice c).ckf, lastTs := s.tsIn, seen := true }
        else
          t.slice c = { s.slice c with
            buf := [], ok := satInc (s.slice c).ok, lastTs := s.tsIn, seen := true })
      else
        t.sent = s.sent ++ [respMalformed c s.cfg.ver s.cfg.rxdir s.cfg.rxLen false true 2#4] ∧
        t.slice c = { s.slice c with
          buf := ((s.slice c).buf.tail ++ [b]).dropWhile (· != Config.stx), mal := satInc (s.slice c).mal })

/-- A candidate that FEED takes and the same bytes given to DECODE under the configuration's direction and version get the
same outcome (42_field_decode.md R312, R315): a record or a checksum failure, and the two responses differ at most in CH. -/
def Obligations.CandidateMatchesDecode : Prop :=
  ∀ (s : State) (c : Chan) (f : List Byte), framed s.cfg f → (s.slice c).buf = f.dropLast →
    ∃ t u out,
      exec (.feed c Config.etx) s = .next t ∧ exec (.decode s.cfg.rxdir s.cfg.ver f) s = .next u ∧
        t.sent = s.sent ++ [respOutcome c s.cfg.ver s.cfg.rxdir out] ∧
        u.sent = s.sent ++ [respOutcome .ch0 s.cfg.ver s.cfg.rxdir out] ∧
        (out = .record (cfgRecord s.cfg f) ∨ out = .checksumError (cks f) (cksByte f))

/-- SM1's `feed(bytes)` is a series of FEEDs (40_frame_assembler.md R213): the loop run once over the whole sequence leaves
the same buffer and yields the same events in the same order, counted alike. -/
def Obligations.FeedSeriesEqualsLoop : Prop :=
  ∀ (s : State) (c : Chan) (bs : List Byte), bufInv s.cfg.rxLen (s.slice c).buf →
    ∃ t, feedAll c bs s = .next t ∧
      t.slice c = statsUpdates (streamFeed s.cfg (s.slice c).buf bs).2 s.tsIn
        ((s.slice c).withBuf (streamFeed s.cfg (s.slice c).buf bs).1) ∧
      eventResponses (newResponses s t) =
        (streamFeed s.cfg (s.slice c).buf bs).2.map (respOutcome c s.cfg.ver s.cfg.rxdir) ∧
      (newResponses s t).length = bs.length

/-- Garbage resilience (40_frame_assembler.md R214): valid frames among noise that holds no STX yield exactly their records,
in order, and no other event. -/
def Obligations.GarbageResilience : Prop :=
  ∀ (s : State) (c : Chan) (parts : List (List Byte × List Byte)) (noise : List Byte),
    (s.slice c).buf = [] → (∀ p ∈ parts, noStx p.1 ∧ validFrame s.cfg p.2) → noStx noise →
      ∃ t, feedAll c (parts.flatMap (fun p => p.1 ++ p.2) ++ noise) s = .next t ∧ (t.slice c).buf = [] ∧
        eventResponses (newResponses s t) =
          parts.map (fun p => respRecord c s.cfg.ver (cfgRecord s.cfg p.2)) ∧
        (t.slice c).ckf = (s.slice c).ckf ∧ (t.slice c).mal = (s.slice c).mal

/-- A false STX (40_frame_assembler.md R215, first case): if the byte at its ETX offset is not ETX, one MALFORMED event comes
out, and a valid frame behind it is still found whole when no other STX lies between. -/
def Obligations.FalseStxThenFrameFound : Prop :=
  ∀ (s : State) (c : Chan) (noise f : List Byte),
    (s.slice c).buf = [] → noStx noise → validFrame s.cfg f →
    byteAt (Config.stx :: (noise ++ f)) (s.cfg.rxLen - 1) ≠ Config.etx →
      ∃ t, feedAll c (Config.stx :: (noise ++ f)) s = .next t ∧ (t.slice c).buf = [] ∧
        eventResponses (newResponses s t) =
          [respMalformed c s.cfg.ver s.cfg.rxdir s.cfg.rxLen false true 2#4,
            respRecord c s.cfg.ver (cfgRecord s.cfg f)] ∧
        (t.slice c).mal = satInc (s.slice c).mal ∧ (t.slice c).ok = satInc (s.slice c).ok

/-- Events and counters (44_channel_stats.md R408): over a run of FEEDs in which no counter saturates, `ok + ckf + mal` grows
by the number of responses that report an event, `ok + ckf` by the candidates taken, `mal` by those rejected. -/
def Obligations.CountersCountEvents : Prop :=
  ∀ (s t : State) (c : Chan) (bs : List Byte), bufInv s.cfg.rxLen (s.slice c).buf → feedAll c bs s = .next t →
    (s.slice c).ok.toNat + bs.length < 2 ^ 32 → (s.slice c).ckf.toNat + bs.length < 2 ^ 32 →
    (s.slice c).mal.toNat + bs.length < 2 ^ 32 →
      (t.slice c).ok.toNat + (t.slice c).ckf.toNat + (t.slice c).mal.toNat =
        (s.slice c).ok.toNat + (s.slice c).ckf.toNat + (s.slice c).mal.toNat +
          (eventResponses (newResponses s t)).length ∧
      (t.slice c).mal.toNat =
        (s.slice c).mal.toNat + ((newResponses s t).filter fun r => rcode r == 0x5#4).length ∧
      (t.slice c).ckf.toNat =
        (s.slice c).ckf.toNat + ((newResponses s t).filter fun r => rcode r == 0x4#4).length

/-- RESET_ASM (40_frame_assembler.md R203): its encoding, the empty buffer, the response DONE, and nothing else changed. -/
def Obligations.ResetAsmResult : Prop :=
  ∀ (s : State) (c : Chan),
    decode (.words [BitVec.ofNat 32 (0x40000000 + 0x08000000 * chanNat c)]) = .ok (.resetAsm c) ∧
      ∃ t, exec (.resetAsm c) s = .next t ∧ outsideKept c s t ∧ t.sent = s.sent ++ [[0#32]] ∧
        t.slice c = { s.slice c with buf := [] }

/-! ## Statistics -/

/-- STATS_UPDATE (44_channel_stats.md R401). -/
def Obligations.StatsUpdateByEvent : Prop :=
  ∀ (x : Slice) (ts : Word) (r : Record) (a b : Byte) (n : Nat) (p q : Bool),
    statsUpdate (.record r) ts x = { x with ok := satInc x.ok, lastTs := ts, seen := true } ∧
      statsUpdate (.checksumError a b) ts x = { x with ckf := satInc x.ckf, lastTs := ts, seen := true } ∧
      statsUpdate (.lengthMismatch n) ts x = { x with mal := satInc x.mal } ∧
      statsUpdate (.markerError n p q) ts x = { x with mal := satInc x.mal }

/-- RESET_STATS (44_channel_stats.md R403): its encoding, the five statistics elements at 0, the buffer kept, DONE, and
nothing else changed. -/
def Obligations.ResetStatsResult : Prop :=
  ∀ (s : State) (c : Chan),
    decode (.words [BitVec.ofNat 32 (0x50000000 + 0x08000000 * chanNat c)]) = .ok (.resetStats c) ∧
      ∃ t, exec (.resetStats c) s = .next t ∧ outsideKept c s t ∧ t.sent = s.sent ++ [[0#32]] ∧
        t.slice c =
          { buf := (s.slice c).buf, ok := 0#32, ckf := 0#32, mal := 0#32, lastTs := 0#32, seen := false }

/-- RESET_CH (44_channel_stats.md R404): its encoding, the whole slice cleared, DONE, and nothing else changed. -/
def Obligations.ResetChResult : Prop :=
  ∀ (s : State) (c : Chan),
    decode (.words [BitVec.ofNat 32 (0x60000000 + 0x08000000 * chanNat c)]) = .ok (.resetCh c) ∧
      ∃ t, exec (.resetCh c) s = .next t ∧ outsideKept c s t ∧ t.sent = s.sent ++ [[0#32]] ∧
        t.slice c = { buf := [], ok := 0#32, ckf := 0#32, mal := 0#32, lastTs := 0#32, seen := false }

/-- READ_STATS (44_channel_stats.md R405; 30_encoding.md R179): its encoding, the five response words, and nothing changed.
ASMLEN is 0 to 9, which is the buffer's length in every state that meets R211. -/
def Obligations.ReadStatsResult : Prop :=
  ∀ (s : State) (c : Chan),
    decode (.words [BitVec.ofNat 32 (0x70000000 + 0x08000000 * chanNat c)]) = .ok (.readStats c) ∧
      (bufInv s.cfg.rxLen (s.slice c).buf → (s.slice c).buf.length ≤ 9) ∧
      ((s.slice c).buf.length ≤ 9 →
        exec (.readStats c) s = .next { s with
          sent := s.sent ++ [[BitVec.ofNat 32 (0x80000000 + 0x08000000 * chanNat c +
            0x04000000 * bitNat (s.slice c).seen + (s.slice c).buf.length),
            (s.slice c).ok, (s.slice c).ckf, (s.slice c).mal, (s.slice c).lastTs]] })

/-- The error rate (44_channel_stats.md R406): the exact rational number, between 0 and 1, and 0 with no failure. -/
def Obligations.ErrorRateExact : Prop :=
  ∀ ok ckf : Word,
    errorRate ok ckf = (ckf.toNat : ℚ) / (max 1 (ok.toNat + ckf.toNat) : ℕ) ∧
      0 ≤ errorRate ok ckf ∧ errorRate ok ckf ≤ 1 ∧ (ckf = 0#32 → errorRate ok ckf = 0) ∧
      (ok = 0#32 → ckf ≠ 0#32 → errorRate ok ckf = 1)

/-! ## Configuration -/

/-- WRITE_CFG (45_configuration.md R450, R451): its encoding; `cfg` takes the three values; if `ver` or `rxdir` changes both
buffers are emptied, else both slices stay; no counter changes; DONE. -/
def Obligations.WriteCfgResult : Prop :=
  ∀ (s : State) (rxdir : Direction) (cken : Bool) (ver : Version),
    decode (.words [BitVec.ofNat 32 (0x80000000 + 4 * dirNat rxdir + 2 * bitNat cken + verNat ver)]) =
        .ok (.writeCfg rxdir cken ver) ∧
      ∃ t, exec (.writeCfg rxdir cken ver) s = .next t ∧ portsKept s t ∧ t.sent = s.sent ++ [[0#32]] ∧
        t.cfg = { ver := ver, cken := cken, rxdir := rxdir } ∧
        ∀ c, t.slice c =
          if ver ≠ s.cfg.ver ∨ rxdir ≠ s.cfg.rxdir then { s.slice c with buf := [] } else s.slice c

/-- READ_CFG (45_configuration.md R452; 30_encoding.md R180): its encoding, the response word, and nothing changed. -/
def Obligations.ReadCfgResult : Prop :=
  ∀ s : State,
    decode (.words [0x90000000#32]) = .ok .readCfg ∧
      exec .readCfg s = .next { s with
        sent := s.sent ++ [[BitVec.ofNat 32
          (0x90000000 + 4 * dirNat s.cfg.rxdir + 2 * bitNat s.cfg.cken + verNat s.cfg.ver)]] }

/-! ## DECODE -/

/-- DECODE (42_field_decode.md R301, R311; 30_encoding.md R175, R176): the checks in their order, each with its response
word, else the record's response; no state but the response changes. -/
def Obligations.DecodeResult : Prop :=
  ∀ (s : State) (dir : Direction) (ver : Version) (f : List Byte), f.length ≤ 255 →
    exec (.decode dir ver f) s = .next { s with
      sent := s.sent ++ [
        if f.length ≠ frameLen dir ver then
          [BitVec.ofNat 32 (0x50000000 + 0x04000000 * verNat ver + 0x02000000 * dirNat dir + 256 * f.length + 1)]
        else if byteAt f 0 ≠ 0x02#8 ∨ byteAt f (f.length - 1) ≠ 0x03#8 then
          [BitVec.ofNat 32 (0x50000000 + 0x04000000 * verNat ver + 0x02000000 * dirNat dir + 256 * f.length +
            32 * bitNat (decide (byteAt f 0 ≠ 0x02#8)) +
            16 * bitNat (decide (byteAt f (f.length - 1) ≠ 0x03#8)) + 2)]
        else if s.cfg.cken = true ∧ cks f ≠ cksByte f then
          [BitVec.ofNat 32 (0x40000000 + 0x04000000 * verNat ver + 0x02000000 * dirNat dir +
            256 * (cks f).toNat + (cksByte f).toNat)]
        else respRecord .ch0 ver (recordOf f dir ver)] }

/-- The length check comes first and reads no byte (42_field_decode.md R302): the outcome is LengthMismatch exactly when the
length is not the expected one, and then it depends on the length alone. -/
def Obligations.LengthCheckFirst : Prop :=
  ∀ (f g : List Byte) (dir : Direction) (ver : Version) (cken cken' : Bool),
    (f.length ≠ frameLen dir ver ↔ decodeFrame f dir ver cken = .lengthMismatch f.length) ∧
      (f.length ≠ frameLen dir ver → g.length = f.length →
        decodeFrame g dir ver cken' = decodeFrame f dir ver cken)

/-- System-voltage fields (42_field_decode.md R306), on the frame of R183 with STX, ETX and a checksum that passes. -/
def Obligations.SysvFrameFields : Prop :=
  ∀ (f1 f2 f3 f4 k : Byte) (ver : Version) (cken : Bool),
    f1.toNat / 8 = 0 → (cken = true → k.toNat = (f1.toNat + f2.toNat + f3.toNat + f4.toNat) % 256) →
      decodeFrame [0x02#8, f1, f2, f3, f4, k, 0x03#8] .m2s ver cken =
        .record (.sysv (BitVec.ofNat 2 (f1.toNat % 4)) f1 (BitVec.ofNat 16 (256 * f2.toNat + f3.toNat))
          (match ver with
            | .v1 => if 128 ≤ f2.toNat then 256 * (f2.toNat : Int) + f3.toNat - 65536
              else 256 * (f2.toNat : Int) + f3.toNat
            | .v2 => 256 * (f2.toNat : Int) + f3.toNat)
          f4)

/-- Slave-data fields (42_field_decode.md R307, R313): the ID is not 0, DAB is bit 0, V1 signed, V2 center-offset. -/
def Obligations.SlaveFrameFields : Prop :=
  ∀ (f1 f2 f3 f4 k : Byte) (ver : Version) (cken : Bool),
    f1.toNat / 8 ≠ 0 → (cken = true → k.toNat = (f1.toNat + f2.toNat + f3.toNat + f4.toNat) % 256) →
      decodeFrame [0x02#8, f1, f2, f3, f4, k, 0x03#8] .m2s ver cken =
        .record (.slave f1 (decide (f1.toNat % 2 = 1)) (BitVec.ofNat 16 (256 * f2.toNat + f3.toNat))
          (match ver with
            | .v1 => if 128 ≤ f2.toNat then 256 * (f2.toNat : Int) + f3.toNat - 65536
              else 256 * (f2.toNat : Int) + f3.toNat
            | .v2 => 256 * (f2.toNat : Int) + f3.toNat - 32768)
          f4)

/-- V1 command fields (42_field_decode.md R308): no mode, two signed voltages, an 8-bit signed current. -/
def Obligations.CmdV1FrameFields : Prop :=
  ∀ (f1 f2 f3 f4 f5 f6 k : Byte) (cken : Bool),
    (cken = true →
      k.toNat = (f1.toNat + f2.toNat + f3.toNat + f4.toNat + f5.toNat + f6.toNat) % 256) →
      decodeFrame [0x02#8, f1, f2, f3, f4, f5, f6, k, 0x03#8] .s2m .v1 cken =
        .record (.cmd f1 (decide (f1.toNat % 2 = 1)) false 0#2
          (if 128 ≤ f2.toNat then 256 * (f2.toNat : Int) + f3.toNat - 65536 else 256 * (f2.toNat : Int) + f3.toNat)
          (if 128 ≤ f4.toNat then 256 * (f4.toNat : Int) + f5.toNat - 65536 else 256 * (f4.toNat : Int) + f5.toNat)
          (if 128 ≤ f6.toNat then (f6.toNat : Int) - 256 else f6.toNat)
          (BitVec.ofNat 16 f6.toNat))

/-- V2 command fields (42_field_decode.md R309): the mode, two signed voltages, a center-offset current. -/
def Obligations.CmdV2FrameFields : Prop :=
  ∀ (f1 f2 f3 f4 f5 f6 f7 k : Byte) (cken : Bool),
    (cken = true →
      k.toNat = (f1.toNat + f2.toNat + f3.toNat + f4.toNat + f5.toNat + f6.toNat + f7.toNat) % 256) →
      decodeFrame [0x02#8, f1, f2, f3, f4, f5, f6, f7, k, 0x03#8] .s2m .v2 cken =
        .record (.cmd f1 (decide (f1.toNat % 2 = 1)) true (BitVec.ofNat 2 (f1.toNat / 2 % 4))
          (if 128 ≤ f2.toNat then 256 * (f2.toNat : Int) + f3.toNat - 65536 else 256 * (f2.toNat : Int) + f3.toNat)
          (if 128 ≤ f4.toNat then 256 * (f4.toNat : Int) + f5.toNat - 65536 else 256 * (f4.toNat : Int) + f5.toNat)
          (256 * (f6.toNat : Int) + f7.toNat - 32768)
          (BitVec.ofNat 16 (256 * f6.toNat + f7.toNat)))

/-- The layouts of SYSV, SLAVE, CMD, CKFAIL and MALFORMED (30_encoding.md R170, R172 to R176), as numbers, on either channel:
every named field at its bits, every other bit 0. These are the responses of the four outcomes of DECODE_FRAME (`respOutcome`),
with which the statements about FEED, DECODE and received frames name what comes out; LEN of MALFORMED is 0 to 255. -/
def Obligations.RecordResponseLayouts : Prop :=
  ∀ (c : Chan) (ver : Version) (f1 f4 : Byte) (raw : Half),
    (∀ (chan : BitVec 2) (volt : Int),
      respRecord c ver (.sysv chan f1 raw volt f4) =
        [BitVec.ofNat 32 (0x10000000 + 0x08000000 * chanNat c + 0x04000000 * verNat ver + 0x01000000 * chan.toNat +
            0x10000 * f1.toNat + raw.toNat),
          BitVec.ofInt 32 volt, BitVec.ofNat 32 f4.toNat]) ∧
    (∀ (dab : Bool) (curr : Int),
      respRecord c ver (.slave f1 dab raw curr f4) =
        [BitVec.ofNat 32 (0x20000000 + 0x08000000 * chanNat c + 0x04000000 * verNat ver + 0x02000000 * bitNat dab +
            0x10000 * f1.toNat + raw.toNat),
          BitVec.ofInt 32 curr, BitVec.ofNat 32 f4.toNat]) ∧
    (∀ (start modeValid : Bool) (mode : BitVec 2) (maxv minv curc : Int),
      respRecord c ver (.cmd f1 start modeValid mode maxv minv curc raw) =
        [BitVec.ofNat 32 (0x30000000 + 0x08000000 * chanNat c + 0x04000000 * verNat ver +
            0x02000000 * bitNat modeValid + 0x00800000 * mode.toNat + 0x00400000 * bitNat start + f1.toNat),
          BitVec.ofInt 32 maxv, BitVec.ofInt 32 minv, BitVec.ofInt 32 curc, BitVec.ofNat 32 raw.toNat]) ∧
    (∀ (dir : Direction) (r : Record), respOutcome c ver dir (.record r) = respRecord c ver r) ∧
    (∀ (dir : Direction) (computed received : Byte),
      respOutcome c ver dir (.checksumError computed received) = respCkfail c ver dir computed received ∧
      respCkfail c ver dir computed received =
        [BitVec.ofNat 32 (0x40000000 + 0x08000000 * chanNat c + 0x04000000 * verNat ver + 0x02000000 * dirNat dir +
          0x100 * computed.toNat + received.toNat)]) ∧
    (∀ (dir : Direction) (len : Nat) (stxbad etxbad : Bool) (reason : BitVec 4),
      respOutcome c ver dir (.lengthMismatch len) = respMalformed c ver dir len false false 1#4 ∧
      respOutcome c ver dir (.markerError len stxbad etxbad) = respMalformed c ver dir len stxbad etxbad 2#4 ∧
      (len ≤ 255 →
        respMalformed c ver dir len stxbad etxbad reason =
          [BitVec.ofNat 32 (0x50000000 + 0x08000000 * chanNat c + 0x04000000 * verNat ver +
            0x02000000 * dirNat dir + 0x100 * len + 0x20 * bitNat stxbad + 0x10 * bitNat etxbad + reason.toNat)]))

/-- Center-offset decoding (42_field_decode.md R305). -/
def Obligations.CenterOffsetDecoding : Prop :=
  (∀ r : Half, co16 r = (r.toNat : Int) - 32768 ∧ -32768 ≤ co16 r ∧ co16 r ≤ 32767) ∧
    co16 0x8000#16 = 0 ∧ co16 0x0000#16 = -32768 ∧ co16 0xFFFF#16 = 32767 ∧
    co16 0x8320#16 = 800 ∧ co16 0x7CE0#16 = -800

/-- A version mismatch on an M2S link goes unnoticed (70_reset_and_hazards.md R606): a 7-byte frame gets the same checks
under both versions, and a record under one is a record under the other. -/
def Obligations.VersionMismatchUndetected : Prop :=
  ∀ (f : List Byte) (cken : Bool),
    match decodeFrame f .m2s .v1 cken with
    | .record _ => ∃ r, decodeFrame f .m2s .v2 cken = .record r
    | out => decodeFrame f .m2s .v2 cken = out

/-! ## The checksum -/

/-- CKS (41_checksum.md R250): the sum of `f[1]` to `f[n-3]` as unsigned bytes, mod 256; the checksum byte is `f[n-2]`. -/
def Obligations.ChecksumIsByteSum : Prop :=
  (∀ f : List Byte, 3 ≤ f.length →
    (cks f).toNat = (∑ k ∈ Finset.range (f.length - 3), (byteAt f (k + 1)).toNat) % 256 ∧
      cksByte f = byteAt f (f.length - 2)) ∧
    ∀ a e k : Byte, cks [a, 0x00#8, 0x0B#8, 0xB8#8, 0x00#8, k, e] = 0xC3#8

/-- The checksum covers neither marker, and the markers are judged before it (41_checksum.md R256). -/
def Obligations.MarkersJudgedBeforeChecksum : Prop :=
  (∀ (f : List Byte) (a b : Byte), 3 ≤ f.length → cks ((f.set 0 a).set (f.length - 1) b) = cks f) ∧
    ∀ (f : List Byte) (dir : Direction) (ver : Version) (cken : Bool), f.length = frameLen dir ver →
      (byteAt f 0 ≠ Config.stx ∨ byteAt f (f.length - 1) ≠ Config.etx) →
        decodeFrame f dir ver cken = .markerError f.length
          (decide (byteAt f 0 ≠ Config.stx)) (decide (byteAt f (f.length - 1) ≠ Config.etx))

/-- Sensitivity (41_checksum.md R254): one flipped bit between STX and ETX makes a frame that passes fail with
ChecksumError when the check is on, and decode with the flipped byte when it is off. -/
def Obligations.SingleBitFlipDetected : Prop :=
  ∀ (f : List Byte) (dir : Direction) (ver : Version) (r : Record) (k j : Nat),
    decodeFrame f dir ver true = .record r → 1 ≤ k → k ≤ f.length - 2 → j < 8 →
      decodeFrame (flipBit f k j) dir ver true =
          .checksumError (cks (flipBit f k j)) (cksByte (flipBit f k j)) ∧
        decodeFrame (flipBit f k j) dir ver false = .record (recordOf (flipBit f k j) dir ver) ∧
        byteAt (flipBit f k j) k = byteAt f k ^^^ (1#8 <<< j) ∧ byteAt (flipBit f k j) k ≠ byteAt f k

/-- What the checksum misses (41_checksum.md R255): a reordering of the summed bytes, and any change whose total is 0
mod 256. -/
def Obligations.ChecksumBlindSpots : Prop :=
  ∀ (p q : List Byte) (k : Byte) (dir : Direction) (ver : Version),
    (p.Perm q ∨ (p.length = q.length ∧
      (p.map BitVec.toNat).sum % 256 = (q.map BitVec.toNat).sum % 256)) →
    (∃ r, decodeFrame (Config.stx :: (p ++ [k, Config.etx])) dir ver true = .record r) →
      ∃ r, decodeFrame (Config.stx :: (q ++ [k, Config.etx])) dir ver true = .record r

/-! ## ENCODE -/

/-- RangeError (43_field_encode.md R351; 30_encoding.md R178): the first operand that fails, in the order MODE, MAXV, MINV,
CUR; no state but the response changes. -/
def Obligations.EncodeRangeErrors : Prop :=
  ∀ (s : State) (ver : Version) (mode : BitVec 2) (start : Bool) (maxv minv cur : Word),
    (∀ n : Nat,
      n = (if (ver = .v1 ∧ mode ≠ 0#2) ∨ (ver = .v2 ∧ mode = 3#2) then 1
        else if maxv.toInt < -32768 ∨ maxv.toInt > 32767 then 2
        else if minv.toInt < -32768 ∨ minv.toInt > 32767 then 3
        else if (ver = .v1 ∧ (cur.toInt < -128 ∨ cur.toInt > 127)) ∨
          (ver = .v2 ∧ (cur.toInt < -32768 ∨ cur.toInt > 32767)) then 4
        else 0) →
      (n ≠ 0 → exec (.encode ver mode start maxv minv cur) s =
        .next { s with sent := s.sent ++ [[BitVec.ofNat 32 (0x70000000 + n)]] }) ∧
      (n = 0 → exec (.encode ver mode start maxv minv cur) s =
        .next { s with
          sent := s.sent ++ [respFrame (buildFrame ver mode start maxv.toInt minv.toInt cur.toInt)] }))

/-- V1 frame construction (43_field_encode.md R352, R354; 30_encoding.md R177): operands in range give the FRAME response of
the nine bytes, two's complement and big-endian, with their checksum. -/
def Obligations.EncodeV1Frame : Prop :=
  ∀ (s : State) (start : Bool) (maxv minv cur : Word),
    -32768 ≤ maxv.toInt → maxv.toInt ≤ 32767 → -32768 ≤ minv.toInt → minv.toInt ≤ 32767 →
    -128 ≤ cur.toInt → cur.toInt ≤ 127 →
      ∃ f1 f2 f3 f4 f5 f6 f7 : Byte,
        exec (.encode .v1 0#2 start maxv minv cur) s = .next { s with
          sent := s.sent ++ [[0x60000009#32, 0x02#8 ++ f1 ++ f2 ++ f3, f4 ++ f5 ++ f6 ++ f7, 0x03#8 ++ 0#24]] } ∧
        f1.toNat = bitNat start ∧
        256 * (f2.toNat : Int) + f3.toNat = maxv.toInt % 65536 ∧
        256 * (f4.toNat : Int) + f5.toNat = minv.toInt % 65536 ∧
        (f6.toNat : Int) = cur.toInt % 256 ∧
        f7.toNat = (f1.toNat + f2.toNat + f3.toNat + f4.toNat + f5.toNat + f6.toNat) % 256

/-- V2 frame construction (43_field_encode.md R353, R354; 30_encoding.md R177): the ten bytes, the current as
`CUR + 32768`. -/
def Obligations.EncodeV2Frame : Prop :=
  ∀ (s : State) (mode : BitVec 2) (start : Bool) (maxv minv cur : Word), mode ≠ 3#2 →
    -32768 ≤ maxv.toInt → maxv.toInt ≤ 32767 → -32768 ≤ minv.toInt → minv.toInt ≤ 32767 →
    -32768 ≤ cur.toInt → cur.toInt ≤ 32767 →
      ∃ f1 f2 f3 f4 f5 f6 f7 f8 : Byte,
        exec (.encode .v2 mode start maxv minv cur) s = .next { s with
          sent := s.sent ++ [[0x6000000A#32, 0x02#8 ++ f1 ++ f2 ++ f3, f4 ++ f5 ++ f6 ++ f7,
            f8 ++ 0x03#8 ++ 0#16]] } ∧
        f1.toNat = 2 * mode.toNat + bitNat start ∧
        256 * (f2.toNat : Int) + f3.toNat = maxv.toInt % 65536 ∧
        256 * (f4.toNat : Int) + f5.toNat = minv.toInt % 65536 ∧
        256 * (f6.toNat : Int) + f7.toNat = cur.toInt + 32768 ∧
        f8.toNat = (f1.toNat + f2.toNat + f3.toNat + f4.toNat + f5.toNat + f6.toNat + f7.toNat) % 256

/-- Round trip (43_field_encode.md R356): operands that pass the range check come back from DECODE of ENCODE's frame, under
either value of `cken`. -/
def Obligations.EncodeDecodeRoundTrip : Prop :=
  ∀ (s : State) (ver : Version) (mode : BitVec 2) (start : Bool) (maxv minv cur : Word),
    rangeCheck ver mode maxv.toInt minv.toInt cur.toInt = none →
      ∃ f, exec (.encode ver mode start maxv minv cur) s = .next { s with sent := s.sent ++ [respFrame f] } ∧
        ∀ u : State, ∃ (f1 : Byte) (raw : Half),
          exec (.decode .s2m ver f) u = .next { u with
            sent := u.sent ++ [respRecord .ch0 ver (.cmd f1 start (decide (ver = .v2)) mode
              maxv.toInt minv.toInt cur.toInt raw)] }

/-- ENCODE's frame (43_field_encode.md R357): the length of S2M, both markers, a right checksum, so DECODE_FRAME never fails on
it; and fed byte by byte to a channel with an empty buffer that expects S2M frames of the same version, it yields one CMD
event, whatever `cken` is. -/
def Obligations.EncodedFrameYieldsOneCommand : Prop :=
  ∀ (ver : Version) (mode : BitVec 2) (start : Bool) (maxv minv cur : Int),
    rangeCheck ver mode maxv minv cur = none →
      ((buildFrame ver mode start maxv minv cur).length = frameLen .s2m ver ∧
        byteAt (buildFrame ver mode start maxv minv cur) 0 = 0x02#8 ∧
        byteAt (buildFrame ver mode start maxv minv cur) (frameLen .s2m ver - 1) = 0x03#8 ∧
        cksByte (buildFrame ver mode start maxv minv cur) = cks (buildFrame ver mode start maxv minv cur) ∧
        ∀ cken, ∃ r, decodeFrame (buildFrame ver mode start maxv minv cur) .s2m ver cken = .record r) ∧
      ∀ (s : State) (c : Chan), s.cfg.rxdir = .s2m → s.cfg.ver = ver → (s.slice c).buf = [] →
        ∃ t f1 raw, feedAll c (buildFrame ver mode start maxv minv cur) s = .next t ∧ (t.slice c).buf = [] ∧
          eventResponses (newResponses s t) =
            [respRecord c ver (.cmd f1 start (decide (ver = .v2)) mode maxv minv cur raw)] ∧
          (t.slice c).ok = satInc (s.slice c).ok ∧ (t.slice c).ckf = (s.slice c).ckf ∧
          (t.slice c).mal = (s.slice c).mal

/-- The inverse direction (43_field_encode.md R358): a command frame that DECODE accepts, with its checksum right, its
undefined bits 0 and a mode other than 3, is the frame that ENCODE builds of its fields; and no ENCODE frame has an undefined
bit set or mode 3. -/
def Obligations.EncodeInvertsDecode : Prop :=
  (∀ (f : List Byte) (ver : Version) (cken : Bool) (f1 : Byte) (start mv : Bool) (mode : BitVec 2)
    (maxv minv curc : Int) (raw : Half),
    decodeFrame f .s2m ver cken = .record (.cmd f1 start mv mode maxv minv curc raw) → cksByte f = cks f →
    f1.toNat < (match ver with
      | .v1 => 2
      | .v2 => 8) → mode ≠ 3#2 →
      ∀ s : State, exec (.encode ver mode start (i32 maxv) (i32 minv) (i32 curc)) s =
        .next { s with sent := s.sent ++ [respFrame f] }) ∧
    ∀ (ver : Version) (mode : BitVec 2) (start : Bool) (maxv minv cur : Int),
      rangeCheck ver mode maxv minv cur = none →
        (byteAt (buildFrame ver mode start maxv minv cur) 1).toNat < (match ver with
          | .v1 => 2
          | .v2 => 8) ∧
        (byteAt (buildFrame ver mode start maxv minv cur) 1).toNat / 2 ≠ 3

/-- The assembler's ENCODE and DECODE lines (30_encoding.md R188): integers outside 32 bits are an assembler error; else the
line is one command, which decodes to the instruction with the line's operands. That a DECODE line of more than 255 bytes is an
assembler error too is the model's choice (log 12): R188 does not say it, and the length field of R153 carries no such length
(00_scope.md R6, `DEC_LEN_MAX`). -/
def Obligations.AssembledLinesDecode : Prop :=
  ∀ (ver : Version) (start : Bool) (mode : BitVec 2) (maxv minv cur : Int) (dir : Direction) (bs : List Byte),
    (if -2 ^ 31 ≤ maxv ∧ maxv ≤ 2 ^ 31 - 1 ∧ -2 ^ 31 ≤ minv ∧ minv ≤ 2 ^ 31 - 1 ∧ -2 ^ 31 ≤ cur ∧ cur ≤ 2 ^ 31 - 1 then
      ∃ ws a b c, assemble (.encode ver start mode maxv minv cur) = some [ws] ∧
        decode (.words ws) = .ok (.encode ver mode start a b c) ∧
        a.toInt = maxv ∧ b.toInt = minv ∧ c.toInt = cur
    else assemble (.encode ver start mode maxv minv cur) = none) ∧
    (if bs.length ≤ 255 then
      ∃ ws, assemble (.decode dir ver bs) = some [ws] ∧ decode (.words ws) = .ok (.decode dir ver bs)
    else assemble (.decode dir ver bs) = none)

/-! ## Wire frames -/

/-- A run of bytes on a serial link is that many FEED commands (10_state.md R49; 30_encoding.md R189): the step that takes the
run ends where the same bytes as FEED commands at CMD end, one step each, with the same responses. The list of transactions is
the model's own (log 1), and that one TS_IN value serves the whole run is its choice (log 3). -/
def Obligations.WireRunEqualsFeedCommands : Prop :=
  ∀ (s : State) (link : Chan) (bs : List Byte) (ts : Word) (rest : List PortInput),
    AsmInv s → s.inputs = .wire link bs ts :: rest →
      ∃ t u, step s = .next t ∧
        Host.Core.run Sys2Proof.core bs.length
          ({ s with inputs := bs.map (fun b => .command
            [BitVec.ofNat 32 (0x10000000 + 0x08000000 * chanNat link + b.toNat)] ts) ++ rest } : State) = .next u ∧
        t.core = u.core ∧ t.sent = u.sent ∧ t.inputs = rest ∧ u.inputs = rest

/-- A system-voltage frame (42_field_decode.md R306; 40_frame_assembler.md R202). On a link whose buffer meets R211: what the
loop over its seven bytes makes of that channel (R213). On a link whose buffer is empty: Expecting
M2S frames: seven responses, the last SYSV, one good frame counted and timestamped; with the check on and a wrong checksum
byte, the last is CKFAIL and a failure is counted. Expecting S2M frames: an open candidate. That its bytes come in one run,
and the link as a field, are the model's choices (logs 3, 4). -/
def Obligations.FrameSysvReceived : Prop :=
  (∀ (s : State) (rsv : BitVec 1) (chan : BitVec 2) (raw : Half) (f4 k : Byte),
    bufInv s.cfg.rxLen (s.slice s.rxLink).buf →
      ∃ t, exec (.frameSysv rsv chan raw f4 k) s = .next t ∧
        receivedAs s.rxLink (sysvBytes rsv chan raw f4 k) s t) ∧
  ∀ (s : State) (rsv : BitVec 1) (chan : BitVec 2) (raw : Half) (f4 k : Byte), (s.slice s.rxLink).buf = [] →
    ∃ t, exec (.frameSysv rsv chan raw f4 k) s = .next t ∧ outsideKept s.rxLink s t ∧
      (if s.cfg.rxdir = .s2m then
        t.slice s.rxLink = { s.slice s.rxLink with buf := sysvBytes rsv chan raw f4 k } ∧
          t.sent = s.sent ++ List.replicate 7 [0#32]
      else if s.cfg.cken = true ∧ k ≠ byteSum [0#5 ++ rsv ++ chan, hi raw, lo raw, f4] then
        t.slice s.rxLink = { s.slice s.rxLink with
          ckf := satInc (s.slice s.rxLink).ckf, lastTs := s.tsIn, seen := true } ∧
          t.sent = s.sent ++ List.replicate 6 [0#32] ++
            [respCkfail s.rxLink s.cfg.ver .m2s (byteSum [0#5 ++ rsv ++ chan, hi raw, lo raw, f4]) k]
      else
        t.slice s.rxLink = { s.slice s.rxLink with
          ok := satInc (s.slice s.rxLink).ok, lastTs := s.tsIn, seen := true } ∧
          t.sent = s.sent ++ List.replicate 6 [0#32] ++
            [respRecord s.rxLink s.cfg.ver (.sysv chan (0#5 ++ rsv ++ chan) raw
              (if s.cfg.ver = .v1 then raw.toInt else (raw.toNat : Int)) f4)])

/-- A slave-data frame (42_field_decode.md R307; 40_frame_assembler.md R202, R213), as for a system-voltage frame, with SLAVE
(logs 3, 4). -/
def Obligations.FrameSlaveReceived : Prop :=
  (∀ (s : State) (id : BitVec 5) (status : BitVec 3) (raw : Half) (temp k : Byte), id ≠ 0#5 →
    bufInv s.cfg.rxLen (s.slice s.rxLink).buf →
      ∃ t, exec (.frameSlave id status raw temp k) s = .next t ∧
        receivedAs s.rxLink (slaveBytes id status raw temp k) s t) ∧
  ∀ (s : State) (id : BitVec 5) (status : BitVec 3) (raw : Half) (temp k : Byte), id ≠ 0#5 →
    (s.slice s.rxLink).buf = [] →
    ∃ t, exec (.frameSlave id status raw temp k) s = .next t ∧ outsideKept s.rxLink s t ∧
      (if s.cfg.rxdir = .s2m then
        t.slice s.rxLink = { s.slice s.rxLink with buf := slaveBytes id status raw temp k } ∧
          t.sent = s.sent ++ List.replicate 7 [0#32]
      else if s.cfg.cken = true ∧ k ≠ byteSum [id ++ status, hi raw, lo raw, temp] then
        t.slice s.rxLink = { s.slice s.rxLink with
          ckf := satInc (s.slice s.rxLink).ckf, lastTs := s.tsIn, seen := true } ∧
          t.sent = s.sent ++ List.replicate 6 [0#32] ++
            [respCkfail s.rxLink s.cfg.ver .m2s (byteSum [id ++ status, hi raw, lo raw, temp]) k]
      else
        t.slice s.rxLink = { s.slice s.rxLink with
          ok := satInc (s.slice s.rxLink).ok, lastTs := s.tsIn, seen := true } ∧
          t.sent = s.sent ++ List.replicate 6 [0#32] ++
            [respRecord s.rxLink s.cfg.ver (.slave (id ++ status) (status.getLsbD 0) raw
              (if s.cfg.ver = .v1 then raw.toInt else (raw.toNat : Int) - 32768) temp)])

/-- A V1 command frame (42_field_decode.md R308; 40_frame_assembler.md R202), first on any link whose buffer meets R211 (R213),
then on one whose buffer is empty, under an S2M configuration. Under V1: nine responses, the last CMD or CKFAIL. Under V2,
which expects ten bytes: an open candidate (logs 3, 4). -/
def Obligations.FrameCmdV1Received : Prop :=
  (∀ (s : State) (undef : BitVec 7) (start : Bool) (maxv minv : Half) (cur k : Byte),
    bufInv s.cfg.rxLen (s.slice s.rxLink).buf →
      ∃ t, exec (.frameCmdV1 undef start maxv minv cur k) s = .next t ∧
        receivedAs s.rxLink (cmdV1Bytes undef start maxv minv cur k) s t) ∧
  ∀ (s : State) (undef : BitVec 7) (start : Bool) (maxv minv : Half) (cur k : Byte), s.cfg.rxdir = .s2m →
    (s.slice s.rxLink).buf = [] →
    ∃ t, exec (.frameCmdV1 undef start maxv minv cur k) s = .next t ∧ outsideKept s.rxLink s t ∧
      (if s.cfg.ver = .v2 then
        t.slice s.rxLink = { s.slice s.rxLink with buf := cmdV1Bytes undef start maxv minv cur k } ∧
          t.sent = s.sent ++ List.replicate 9 [0#32]
      else if s.cfg.cken = true ∧ k ≠ byteSum [undef ++ flagBit start, hi maxv, lo maxv, hi minv, lo minv, cur] then
        t.slice s.rxLink = { s.slice s.rxLink with
          ckf := satInc (s.slice s.rxLink).ckf, lastTs := s.tsIn, seen := true } ∧
          t.sent = s.sent ++ List.replicate 8 [0#32] ++
            [respCkfail s.rxLink .v1 .s2m
              (byteSum [undef ++ flagBit start, hi maxv, lo maxv, hi minv, lo minv, cur]) k]
      else
        t.slice s.rxLink = { s.slice s.rxLink with
          ok := satInc (s.slice s.rxLink).ok, lastTs := s.tsIn, seen := true } ∧
          t.sent = s.sent ++ List.replicate 8 [0#32] ++
            [respRecord s.rxLink .v1 (.cmd (undef ++ flagBit start) start false 0#2 maxv.toInt minv.toInt cur.toInt
              (0#8 ++ cur))])

/-- A V2 command frame (42_field_decode.md R309; 40_frame_assembler.md R202), first on any link whose buffer meets R211 (R213),
then on one whose buffer is empty, under an S2M V2 configuration: ten responses, the last CMD or CKFAIL (logs 3, 4). -/
def Obligations.FrameCmdV2Received : Prop :=
  (∀ (s : State) (undef : BitVec 5) (mode : BitVec 2) (start : Bool) (maxv minv cur : Half) (k : Byte),
    bufInv s.cfg.rxLen (s.slice s.rxLink).buf →
      ∃ t, exec (.frameCmdV2 undef mode start maxv minv cur k) s = .next t ∧
        receivedAs s.rxLink (cmdV2Bytes undef mode start maxv minv cur k) s t) ∧
  ∀ (s : State) (undef : BitVec 5) (mode : BitVec 2) (start : Bool) (maxv minv cur : Half) (k : Byte),
    s.cfg.rxdir = .s2m → s.cfg.ver = .v2 → (s.slice s.rxLink).buf = [] →
    ∃ t, exec (.frameCmdV2 undef mode start maxv minv cur k) s = .next t ∧ outsideKept s.rxLink s t ∧
      (if s.cfg.cken = true ∧
          k ≠ byteSum [undef ++ mode ++ flagBit start, hi maxv, lo maxv, hi minv, lo minv, hi cur, lo cur] then
        t.slice s.rxLink = { s.slice s.rxLink with
          ckf := satInc (s.slice s.rxLink).ckf, lastTs := s.tsIn, seen := true } ∧
          t.sent = s.sent ++ List.replicate 9 [0#32] ++
            [respCkfail s.rxLink .v2 .s2m
              (byteSum [undef ++ mode ++ flagBit start, hi maxv, lo maxv, hi minv, lo minv, hi cur, lo cur]) k]
      else
        t.slice s.rxLink = { s.slice s.rxLink with
          ok := satInc (s.slice s.rxLink).ok, lastTs := s.tsIn, seen := true } ∧
          t.sent = s.sent ++ List.replicate 9 [0#32] ++
            [respRecord s.rxLink .v2 (.cmd (undef ++ mode ++ flagBit start) start true mode maxv.toInt minv.toInt
              ((cur.toNat : Int) - 32768) cur)])
end

