-- ==== Sys2Proof/Laws/State.lean ====
section
/-! SUPPORT. One lemma for each field of State under each update of Machine/Ops.lean, all by rfl or by cases on the channel,
so that no proof unfolds a record update. -/

namespace Sys2Proof.Machine

/-! ## respond -/

@[simp] theorem respond_cfg (s : State) (r : Response) : (s.respond r).cfg = s.cfg := rfl
@[simp] theorem respond_ch0 (s : State) (r : Response) : (s.respond r).ch0 = s.ch0 := rfl
@[simp] theorem respond_ch1 (s : State) (r : Response) : (s.respond r).ch1 = s.ch1 := rfl
@[simp] theorem respond_inputs (s : State) (r : Response) : (s.respond r).inputs = s.inputs := rfl
@[simp] theorem respond_tsIn (s : State) (r : Response) : (s.respond r).tsIn = s.tsIn := rfl
@[simp] theorem respond_rxLink (s : State) (r : Response) : (s.respond r).rxLink = s.rxLink := rfl
@[simp] theorem respond_sent (s : State) (r : Response) : (s.respond r).sent = s.sent ++ [r] := rfl
@[simp] theorem respond_slice (s : State) (r : Response) (c : Chan) : (s.respond r).slice c = s.slice c := by
  cases c <;> rfl

/-! ## setSlice -/

@[simp] theorem setSlice_cfg (s : State) (c : Chan) (x : Slice) : (s.setSlice c x).cfg = s.cfg := by cases c <;> rfl
@[simp] theorem setSlice_inputs (s : State) (c : Chan) (x : Slice) : (s.setSlice c x).inputs = s.inputs := by
  cases c <;> rfl
@[simp] theorem setSlice_tsIn (s : State) (c : Chan) (x : Slice) : (s.setSlice c x).tsIn = s.tsIn := by cases c <;> rfl
@[simp] theorem setSlice_rxLink (s : State) (c : Chan) (x : Slice) : (s.setSlice c x).rxLink = s.rxLink := by
  cases c <;> rfl
@[simp] theorem setSlice_sent (s : State) (c : Chan) (x : Slice) : (s.setSlice c x).sent = s.sent := by cases c <;> rfl
@[simp] theorem setSlice_slice_same (s : State) (c : Chan) (x : Slice) : (s.setSlice c x).slice c = x := by
  cases c <;> rfl

theorem setSlice_slice_other (s : State) {c d : Chan} (x : Slice) (h : d ≠ c) :
    (s.setSlice c x).slice d = s.slice d := by
  cases c <;> cases d <;> first | rfl | exact absurd rfl h

@[simp] theorem slice_ch0 (s : State) : s.slice .ch0 = s.ch0 := rfl
@[simp] theorem slice_ch1 (s : State) : s.slice .ch1 = s.ch1 := rfl
@[simp] theorem setSlice_ch0 (s : State) (x : Slice) : s.setSlice .ch0 x = { s with ch0 := x } := rfl
@[simp] theorem setSlice_ch1 (s : State) (x : Slice) : s.setSlice .ch1 x = { s with ch1 := x } := rfl

/-- Two states are equal when their configuration, both slices and the four port fields are. -/
theorem state_ext {s t : State} (hcfg : s.cfg = t.cfg) (hslice : ∀ c, s.slice c = t.slice c)
    (hin : s.inputs = t.inputs) (hts : s.tsIn = t.tsIn) (hrx : s.rxLink = t.rxLink) (hsent : s.sent = t.sent) :
    s = t := by
  have h0 := hslice .ch0
  have h1 := hslice .ch1
  cases s
  cases t
  simp_all

/-! ## Slice updates -/

@[simp] theorem withBuf_buf (x : Slice) (b : List Byte) : (x.withBuf b).buf = b := rfl
@[simp] theorem withBuf_ok (x : Slice) (b : List Byte) : (x.withBuf b).ok = x.ok := rfl
@[simp] theorem withBuf_ckf (x : Slice) (b : List Byte) : (x.withBuf b).ckf = x.ckf := rfl
@[simp] theorem withBuf_mal (x : Slice) (b : List Byte) : (x.withBuf b).mal = x.mal := rfl
@[simp] theorem withBuf_lastTs (x : Slice) (b : List Byte) : (x.withBuf b).lastTs = x.lastTs := rfl
@[simp] theorem withBuf_seen (x : Slice) (b : List Byte) : (x.withBuf b).seen = x.seen := rfl
@[simp] theorem withBuf_self (x : Slice) : x.withBuf x.buf = x := rfl
@[simp] theorem withBuf_withBuf (x : Slice) (a b : List Byte) : (x.withBuf a).withBuf b = x.withBuf b := rfl

@[simp] theorem clearStats_buf (x : Slice) : x.clearStats.buf = x.buf := rfl
@[simp] theorem clearStats_ok (x : Slice) : x.clearStats.ok = 0#32 := rfl
@[simp] theorem clearStats_ckf (x : Slice) : x.clearStats.ckf = 0#32 := rfl
@[simp] theorem clearStats_mal (x : Slice) : x.clearStats.mal = 0#32 := rfl
@[simp] theorem clearStats_lastTs (x : Slice) : x.clearStats.lastTs = 0#32 := rfl
@[simp] theorem clearStats_seen (x : Slice) : x.clearStats.seen = false := rfl

@[simp] theorem statsUpdate_buf (ev : FrameOutcome) (ts : Word) (x : Slice) : (statsUpdate ev ts x).buf = x.buf := by
  cases ev <;> rfl
@[simp] theorem statsUpdateIf_none (ts : Word) (x : Slice) : statsUpdateIf none ts x = x := rfl
@[simp] theorem statsUpdateIf_some (ev : FrameOutcome) (ts : Word) (x : Slice) :
    statsUpdateIf (some ev) ts x = statsUpdate ev ts x := rfl
@[simp] theorem statsUpdateIf_buf (ev : Option FrameOutcome) (ts : Word) (x : Slice) :
    (statsUpdateIf ev ts x).buf = x.buf := by
  cases ev <;> simp

/-! ## Configuration, acceptance, power-on -/

@[simp] theorem setCfg_cfg (s : State) (k : Cfg) : (s.setCfg k).cfg = k := rfl
@[simp] theorem setCfg_ch0 (s : State) (k : Cfg) : (s.setCfg k).ch0 = bufAfterCfg s.cfg k s.ch0 := rfl
@[simp] theorem setCfg_ch1 (s : State) (k : Cfg) : (s.setCfg k).ch1 = bufAfterCfg s.cfg k s.ch1 := rfl
@[simp] theorem setCfg_inputs (s : State) (k : Cfg) : (s.setCfg k).inputs = s.inputs := rfl
@[simp] theorem setCfg_tsIn (s : State) (k : Cfg) : (s.setCfg k).tsIn = s.tsIn := rfl
@[simp] theorem setCfg_rxLink (s : State) (k : Cfg) : (s.setCfg k).rxLink = s.rxLink := rfl
@[simp] theorem setCfg_sent (s : State) (k : Cfg) : (s.setCfg k).sent = s.sent := rfl
@[simp] theorem setCfg_slice (s : State) (k : Cfg) (c : Chan) :
    (s.setCfg k).slice c = bufAfterCfg s.cfg k (s.slice c) := by
  cases c <;> rfl

@[simp] theorem accept_cfg (s : State) (l : List PortInput) (w : Word) : (s.accept l w).cfg = s.cfg := rfl
@[simp] theorem accept_ch0 (s : State) (l : List PortInput) (w : Word) : (s.accept l w).ch0 = s.ch0 := rfl
@[simp] theorem accept_ch1 (s : State) (l : List PortInput) (w : Word) : (s.accept l w).ch1 = s.ch1 := rfl
@[simp] theorem accept_inputs (s : State) (l : List PortInput) (w : Word) : (s.accept l w).inputs = l := rfl
@[simp] theorem accept_tsIn (s : State) (l : List PortInput) (w : Word) : (s.accept l w).tsIn = w := rfl
@[simp] theorem accept_rxLink (s : State) (l : List PortInput) (w : Word) : (s.accept l w).rxLink = s.rxLink := rfl
@[simp] theorem accept_sent (s : State) (l : List PortInput) (w : Word) : (s.accept l w).sent = s.sent := rfl
@[simp] theorem accept_slice (s : State) (l : List PortInput) (w : Word) (c : Chan) :
    (s.accept l w).slice c = s.slice c := by
  cases c <;> rfl

@[simp] theorem acceptWire_cfg (s : State) (l : List PortInput) (k : Chan) (w : Word) :
    (s.acceptWire l k w).cfg = s.cfg := rfl
@[simp] theorem acceptWire_ch0 (s : State) (l : List PortInput) (k : Chan) (w : Word) :
    (s.acceptWire l k w).ch0 = s.ch0 := rfl
@[simp] theorem acceptWire_ch1 (s : State) (l : List PortInput) (k : Chan) (w : Word) :
    (s.acceptWire l k w).ch1 = s.ch1 := rfl
@[simp] theorem acceptWire_inputs (s : State) (l : List PortInput) (k : Chan) (w : Word) :
    (s.acceptWire l k w).inputs = l := rfl
@[simp] theorem acceptWire_tsIn (s : State) (l : List PortInput) (k : Chan) (w : Word) :
    (s.acceptWire l k w).tsIn = w := rfl
@[simp] theorem acceptWire_rxLink (s : State) (l : List PortInput) (k : Chan) (w : Word) :
    (s.acceptWire l k w).rxLink = k := rfl
@[simp] theorem acceptWire_sent (s : State) (l : List PortInput) (k : Chan) (w : Word) :
    (s.acceptWire l k w).sent = s.sent := rfl
@[simp] theorem acceptWire_slice (s : State) (l : List PortInput) (k : Chan) (w : Word) (c : Chan) :
    (s.acceptWire l k w).slice c = s.slice c := by
  cases c <;> rfl

@[simp] theorem powerOn_cfg (s : State) (l : List PortInput) : (s.powerOn l).cfg = Cfg.reset := rfl
@[simp] theorem powerOn_ch0 (s : State) (l : List PortInput) : (s.powerOn l).ch0 = Slice.reset := rfl
@[simp] theorem powerOn_ch1 (s : State) (l : List PortInput) : (s.powerOn l).ch1 = Slice.reset := rfl
@[simp] theorem powerOn_inputs (s : State) (l : List PortInput) : (s.powerOn l).inputs = l := rfl
@[simp] theorem powerOn_tsIn (s : State) (l : List PortInput) : (s.powerOn l).tsIn = s.tsIn := rfl
@[simp] theorem powerOn_rxLink (s : State) (l : List PortInput) : (s.powerOn l).rxLink = s.rxLink := rfl
@[simp] theorem powerOn_sent (s : State) (l : List PortInput) : (s.powerOn l).sent = s.sent := rfl

/-! ## feedDone -/

@[simp] theorem feedDone_cfg (c : Chan) (buf : List Byte) (ev : Option FrameOutcome) (s : State) :
    (feedDone c buf ev s).cfg = s.cfg := by
  simp [feedDone]
@[simp] theorem feedDone_inputs (c : Chan) (buf : List Byte) (ev : Option FrameOutcome) (s : State) :
    (feedDone c buf ev s).inputs = s.inputs := by
  simp [feedDone]
@[simp] theorem feedDone_tsIn (c : Chan) (buf : List Byte) (ev : Option FrameOutcome) (s : State) :
    (feedDone c buf ev s).tsIn = s.tsIn := by
  simp [feedDone]
@[simp] theorem feedDone_rxLink (c : Chan) (buf : List Byte) (ev : Option FrameOutcome) (s : State) :
    (feedDone c buf ev s).rxLink = s.rxLink := by
  simp [feedDone]
@[simp] theorem feedDone_sent (c : Chan) (buf : List Byte) (ev : Option FrameOutcome) (s : State) :
    (feedDone c buf ev s).sent = s.sent ++ [respEvent s.cfg c ev] := by
  simp [feedDone]
@[simp] theorem feedDone_slice_same (c : Chan) (buf : List Byte) (ev : Option FrameOutcome) (s : State) :
    (feedDone c buf ev s).slice c = statsUpdateIf ev s.tsIn ((s.slice c).withBuf buf) := by
  simp [feedDone]
theorem feedDone_slice_other {c d : Chan} (buf : List Byte) (ev : Option FrameOutcome) (s : State) (h : d ≠ c) :
    (feedDone c buf ev s).slice d = s.slice d := by
  simp [feedDone, setSlice_slice_other s _ h]

end Sys2Proof.Machine
end

