-- ==== Sys2Proof/Laws/Assembler.lean ====
section
/-! SUPPORT. What the assembler's scan and one FEED can do, said once: unfold `scan`, `feedScan` and `feedByte` nowhere
else. -/

namespace Sys2Proof.Machine

/-! ## Frame lengths -/

theorem frameLen_pos (d : Direction) (v : Version) : 7 ≤ frameLen d v := by
  cases d <;> cases v <;> decide

theorem frameLen_le (d : Direction) (v : Version) : frameLen d v ≤ 10 := by
  cases d <;> cases v <;> decide

theorem rxLen_pos (cfg : Cfg) : 7 ≤ cfg.rxLen :=
  frameLen_pos _ _

theorem rxLen_le (cfg : Cfg) : cfg.rxLen ≤ 10 :=
  frameLen_le _ _

/-! ## Reading bytes -/

@[simp] theorem byteAt_cons_zero (b : Byte) (l : List Byte) : byteAt (b :: l) 0 = b := rfl

@[simp] theorem byteAt_cons_succ (b : Byte) (l : List Byte) (k : Nat) : byteAt (b :: l) (k + 1) = byteAt l k := rfl

theorem byteAt_append_left (l m : List Byte) {k : Nat} (h : k < l.length) : byteAt (l ++ m) k = byteAt l k := by
  simp [byteAt, List.getD_eq_getElem?_getD, List.getElem?_append_left h]

theorem byteAt_append_length (l : List Byte) (b : Byte) : byteAt (l ++ [b]) l.length = b := by
  simp [byteAt, List.getD_eq_getElem?_getD]

/-! ## One pass of the scan -/

@[simp] theorem scanStep_nil (cfg : Cfg) : scanStep cfg [] = .stop := rfl

theorem scanStep_drop (cfg : Cfg) {b : Byte} (rest : List Byte) (h : b ≠ Config.stx) :
    scanStep cfg (b :: rest) = .drop rest := by
  simp [scanStep, h]

theorem scanStep_open (cfg : Cfg) (rest : List Byte) (h : rest.length + 1 < cfg.rxLen) :
    scanStep cfg (Config.stx :: rest) = .stop := by
  simp [scanStep, h]

theorem scanStep_take (cfg : Cfg) (rest : List Byte) (hlen : cfg.rxLen ≤ rest.length + 1)
    (hetx : byteAt (Config.stx :: rest) (cfg.rxLen - 1) = Config.etx) :
    scanStep cfg (Config.stx :: rest) =
      .event (candidateOutcome cfg ((Config.stx :: rest).take cfg.rxLen)) ((Config.stx :: rest).drop cfg.rxLen) := by
  simp [scanStep, Nat.not_lt.mpr hlen, hetx]

theorem scanStep_reject (cfg : Cfg) (rest : List Byte) (hlen : cfg.rxLen ≤ rest.length + 1)
    (hetx : byteAt (Config.stx :: rest) (cfg.rxLen - 1) ≠ Config.etx) :
    scanStep cfg (Config.stx :: rest) = .event (rejection cfg) rest := by
  simp [scanStep, Nat.not_lt.mpr hlen, hetx]

/-- Every pass that does not end the loop shortens the buffer. -/
theorem scanStep_shortens (cfg : Cfg) (buf : List Byte) :
    match scanStep cfg buf with
    | .stop => True
    | .drop rest => rest.length < buf.length
    | .event _ rest => rest.length < buf.length := by
  have hpos := rxLen_pos cfg
  cases buf with
  | nil => trivial
  | cons b rest =>
    simp only [scanStep]
    split_ifs
    · simp
    · trivial
    · simp only [List.length_drop, List.length_cons]
      omega
    · simp

/-- A pass that ends the loop leaves a buffer that meets R211. -/
theorem scanStep_stop (cfg : Cfg) (buf : List Byte) (h : scanStep cfg buf = .stop) : bufInv cfg.rxLen buf := by
  cases buf with
  | nil => exact .inl rfl
  | cons b rest =>
    simp only [scanStep] at h
    split_ifs at h with h1 h2
    exact .inr ⟨by simpa using h1, h2⟩

/-! ## The loop on a buffer shorter than a frame -/

/-- On a buffer shorter than a frame the loop only drops the bytes before the first STX (R205); the event stays. -/
theorem scan_short (cfg : Cfg) (ev : Option FrameOutcome) :
    ∀ (n : Nat) (buf : List Byte), buf.length ≤ n → buf.length < cfg.rxLen →
      scan cfg n buf ev = .ok (buf.dropWhile (· != Config.stx), ev)
  | 0, buf, hn, _ => by
    have : buf = [] := List.length_eq_zero_iff.mp (Nat.le_zero.mp hn)
    subst this
    rfl
  | n + 1, [], _, _ => by simp [scan]
  | n + 1, b :: rest, hn, hlen => by
    simp only [List.length_cons] at hn hlen
    by_cases hb : b = Config.stx
    · subst hb
      simp [scan, scanStep_open cfg rest hlen]
    · have hrest := scan_short cfg ev n rest (by omega) (by omega)
      simp [scan, scanStep_drop cfg rest hb, hrest, hb]

/-- A buffer cut at its first STX meets R211 if it is shorter than a frame. -/
theorem dropWhile_bufInv (len : Nat) :
    ∀ buf : List Byte, buf.length < len → bufInv len (buf.dropWhile (· != Config.stx))
  | [], _ => .inl rfl
  | b :: rest, h => by
    by_cases hb : b = Config.stx
    · subst hb
      exact .inr ⟨rfl, by simpa using h⟩
    · have := dropWhile_bufInv len rest (by simp at h; omega)
      simpa [List.dropWhile_cons, hb] using this

/-! ## One FEED -/

/-- What the scan of a FEED leaves of a buffer that meets R211, in the four cases of R202. -/
theorem feedScan_spec (cfg : Cfg) (buf : List Byte) (b : Byte) (h : bufInv cfg.rxLen buf) :
    feedScan cfg buf b =
      .ok (if byteAt (buf ++ [b]) 0 ≠ Config.stx then ([], none)
        else if buf.length + 1 < cfg.rxLen then (buf ++ [b], none)
        else if b = Config.etx then ([], some (candidateOutcome cfg (buf ++ [b])))
        else ((buf ++ [b]).tail.dropWhile (· != Config.stx), some (rejection cfg))) := by
  have hpos := rxLen_pos cfg
  unfold feedScan
  rcases h with rfl | ⟨hstx, hlen⟩
  · by_cases hb : b = Config.stx
    · subst hb
      have h1 : (0 : Nat) + 1 < cfg.rxLen := by omega
      simp [scan, scanStep_open cfg [] h1, h1]
    · simp [scan, scanStep_drop cfg [] hb, hb]
  · cases buf with
    | nil => simp [byteAt, Config.stx] at hstx
    | cons a rest =>
      have ha : a = Config.stx := hstx
      subst ha
      simp only [List.length_cons] at hlen
      simp only [List.cons_append, byteAt_cons_zero, ne_eq, not_true_eq_false, if_false, List.length_cons, List.tail_cons]
      by_cases hopen : rest.length + 1 + 1 < cfg.rxLen
      · simp [scan, scanStep_open cfg (rest ++ [b]) (by simpa using hopen), hopen]
      · have hfull : cfg.rxLen = rest.length + 2 := by omega
        have hat : byteAt (Config.stx :: (rest ++ [b])) (cfg.rxLen - 1) = b := by
          rw [hfull]
          exact byteAt_append_length rest b
        by_cases hetx : b = Config.etx
        · subst hetx
          have htake : (Config.stx :: (rest ++ [Config.etx])).take cfg.rxLen = Config.stx :: (rest ++ [Config.etx]) :=
            List.take_of_length_le (by simp; omega)
          have hdrop : (Config.stx :: (rest ++ [Config.etx])).drop cfg.rxLen = [] :=
            List.drop_of_length_le (by simp; omega)
          have hstep := scanStep_take cfg (rest ++ [Config.etx]) (by simp; omega) hat
          rw [htake, hdrop] at hstep
          simp [scan, hstep, hopen]
        · have hstep := scanStep_reject cfg (rest ++ [b]) (by simp; omega) (by rw [hat]; exact hetx)
          have hscan := scan_short cfg (some (rejection cfg)) (rest.length + 1) (rest ++ [b]) (by simp) (by simp; omega)
          rw [scan.eq_def]
          simp [hstep, hopen, hetx, hscan]

/-- Whatever the buffer held, a scan that completes leaves one that meets R211. -/
theorem scan_bufInv (cfg : Cfg) :
    ∀ (n : Nat) (buf : List Byte) (ev : Option FrameOutcome) (buf' : List Byte) (ev' : Option FrameOutcome),
      buf.length ≤ n → scan cfg n buf ev = .ok (buf', ev') → bufInv cfg.rxLen buf'
  | 0, buf, ev, buf', ev', hn, h => by
    have hb : buf = [] := List.length_eq_zero_iff.mp (Nat.le_zero.mp hn)
    subst hb
    simp only [scan, Except.ok.injEq, Prod.mk.injEq] at h
    exact .inl h.1.symm
  | n + 1, buf, ev, buf', ev', hn, h => by
    have hshort := scanStep_shortens cfg buf
    rw [scan.eq_def] at h
    cases hs : scanStep cfg buf with
    | stop =>
      simp only [hs, Except.ok.injEq, Prod.mk.injEq] at h
      rw [← h.1]
      exact scanStep_stop cfg buf hs
    | drop rest =>
      simp only [hs] at h hshort
      exact scan_bufInv cfg n rest ev buf' ev' (by omega) h
    | event e rest =>
      cases ev with
      | none =>
        simp only [hs] at h hshort
        exact scan_bufInv cfg n rest (some e) buf' ev' (by omega) h
      | some e0 => simp [hs] at h

/-- If a FEED answers next t, its scan completed and t is the state of `feedDone`. -/
theorem feedByte_next {c : Chan} {b : Byte} {s t : State} (h : feedByte c b s = .next t) :
    ∃ buf ev, feedScan s.cfg (s.slice c).buf b = .ok (buf, ev) ∧ t = feedDone c buf ev s := by
  unfold feedByte at h
  cases hs : feedScan s.cfg (s.slice c).buf b with
  | error e => simp [hs] at h
  | ok p =>
    obtain ⟨buf, ev⟩ := p
    simp only [hs, Host.Outcome.next.injEq] at h
    exact ⟨buf, ev, rfl, h.symm⟩

/-- A FEED whose scan completes answers next. -/
theorem feedByte_of_scan {c : Chan} {b : Byte} {s : State} {buf : List Byte} {ev : Option FrameOutcome}
    (h : feedScan s.cfg (s.slice c).buf b = .ok (buf, ev)) : feedByte c b s = .next (feedDone c buf ev s) := by
  simp [feedByte, h]

/-- What a FEED leaves in the buffer meets R211. -/
theorem feedByte_bufInv {c : Chan} {b : Byte} {s t : State} (h : feedByte c b s = .next t) :
    bufInv t.cfg.rxLen (t.slice c).buf := by
  obtain ⟨buf, ev, hscan, rfl⟩ := feedByte_next h
  simpa using scan_bufInv s.cfg _ _ _ _ _ (by simp) hscan

/-- A FEED on a channel whose buffer meets R211 completes. -/
theorem feedByte_completes (c : Chan) (b : Byte) (s : State) (h : bufInv s.cfg.rxLen (s.slice c).buf) :
    Completes (feedByte c b s) :=
  ⟨_, feedByte_of_scan (feedScan_spec s.cfg (s.slice c).buf b h)⟩

/-- A FEED of garbage on an empty buffer drops the byte (40_frame_assembler.md R205). -/
theorem feedByte_garbage {c : Chan} {b : Byte} {s : State} (hbuf : (s.slice c).buf = []) (hb : b ≠ Config.stx) :
    feedByte c b s = .next (feedDone c [] none s) := by
  have hscan := feedScan_spec s.cfg (s.slice c).buf b (.inl hbuf)
  have h1 : byteAt ((s.slice c).buf ++ [b]) 0 ≠ Config.stx := by simpa [hbuf] using hb
  rw [if_pos h1] at hscan
  exact feedByte_of_scan hscan

/-- A FEED that leaves the candidate open keeps the byte (R202). -/
theorem feedByte_open {c : Chan} {b : Byte} {s : State} (hinv : bufInv s.cfg.rxLen (s.slice c).buf)
    (hstx : byteAt ((s.slice c).buf ++ [b]) 0 = Config.stx) (hlen : (s.slice c).buf.length + 1 < s.cfg.rxLen) :
    feedByte c b s = .next (feedDone c ((s.slice c).buf ++ [b]) none s) := by
  have hscan := feedScan_spec s.cfg (s.slice c).buf b hinv
  rw [if_neg (not_not.mpr hstx), if_pos hlen] at hscan
  exact feedByte_of_scan hscan

/-- A FEED of ETX at its offset takes the candidate (R207). -/
theorem feedByte_taken {c : Chan} {b : Byte} {s : State} (hinv : bufInv s.cfg.rxLen (s.slice c).buf)
    (hstx : byteAt ((s.slice c).buf ++ [b]) 0 = Config.stx) (hlen : ¬ (s.slice c).buf.length + 1 < s.cfg.rxLen)
    (hetx : b = Config.etx) :
    feedByte c b s = .next (feedDone c [] (some (candidateOutcome s.cfg ((s.slice c).buf ++ [b]))) s) := by
  have hscan := feedScan_spec s.cfg (s.slice c).buf b hinv
  rw [if_neg (not_not.mpr hstx), if_neg hlen, if_pos hetx] at hscan
  exact feedByte_of_scan hscan

/-- A FEED of another byte at the ETX offset rejects the candidate and scans again behind its STX (R204, R205). -/
theorem feedByte_rejected {c : Chan} {b : Byte} {s : State} (hinv : bufInv s.cfg.rxLen (s.slice c).buf)
    (hstx : byteAt ((s.slice c).buf ++ [b]) 0 = Config.stx) (hlen : ¬ (s.slice c).buf.length + 1 < s.cfg.rxLen)
    (hetx : b ≠ Config.etx) :
    feedByte c b s = .next (feedDone c (((s.slice c).buf ++ [b]).tail.dropWhile (· != Config.stx))
      (some (rejection s.cfg)) s) := by
  have hscan := feedScan_spec s.cfg (s.slice c).buf b hinv
  rw [if_neg (not_not.mpr hstx), if_neg hlen, if_neg hetx] at hscan
  exact feedByte_of_scan hscan

/-- The frame of a FEED: configuration, ports and the other slice stay; one response is delivered. -/
theorem feedByte_frame {c : Chan} {b : Byte} {s t : State} (h : feedByte c b s = .next t) :
    t.cfg = s.cfg ∧ t.inputs = s.inputs ∧ t.tsIn = s.tsIn ∧ t.rxLink = s.rxLink ∧
      (∀ d, d ≠ c → t.slice d = s.slice d) ∧ ∃ r, t.sent = s.sent ++ [r] := by
  obtain ⟨buf, ev, -, rfl⟩ := feedByte_next h
  exact ⟨by simp, by simp, by simp, by simp, fun d hd => feedDone_slice_other buf ev s hd, _,
    feedDone_sent c buf ev s⟩

/-! ## Runs of FEEDs -/

@[simp] theorem feedAll_nil (c : Chan) (s : State) : feedAll c [] s = .next s := rfl

theorem feedAll_cons_next {c : Chan} {b : Byte} {bs : List Byte} {s t : State}
    (h : feedByte c b s = .next t) : feedAll c (b :: bs) s = feedAll c bs t := by
  simp [feedAll, h]

theorem feedAll_append {c : Chan} :
    ∀ {as bs : List Byte} {s t : State}, feedAll c as s = .next t → feedAll c (as ++ bs) s = feedAll c bs t
  | [], bs, s, t, h => by
    simp only [feedAll, Host.Outcome.next.injEq] at h
    rw [h]
    rfl
  | a :: as, bs, s, t, h => by
    cases hf : feedByte c a s with
    | next s' =>
      rw [feedAll_cons_next hf] at h
      rw [List.cons_append, feedAll_cons_next hf]
      exact feedAll_append h
    | fault e => simp [feedAll, hf] at h
    | refused r => simp [feedAll, hf] at h

/-- If a run of FEEDs answers next t, its first FEED does and the rest runs from there. -/
theorem feedAll_cons_inv {c : Chan} {b : Byte} {bs : List Byte} {s t : State} (h : feedAll c (b :: bs) s = .next t) :
    ∃ s', feedByte c b s = .next s' ∧ feedAll c bs s' = .next t := by
  cases hf : feedByte c b s with
  | next s' => exact ⟨s', rfl, by rwa [feedAll_cons_next hf] at h⟩
  | fault e => simp [feedAll, hf] at h
  | refused r => simp [feedAll, hf] at h

/-- A property that every FEED on the channel keeps is kept by a run of them. -/
theorem feedAll_induct {c : Chan} {P : State → Prop} (hP : ∀ b s t, P s → feedByte c b s = .next t → P t) :
    ∀ (bs : List Byte) (s t : State), P s → feedAll c bs s = .next t → P t
  | [], s, t, hs, h => by
    simp only [feedAll, Host.Outcome.next.injEq] at h
    exact h ▸ hs
  | b :: bs, s, t, hs, h => by
    obtain ⟨s', h1, h2⟩ := feedAll_cons_inv h
    exact feedAll_induct hP bs s' t (hP b s s' hs h1) h2

/-- The frame of a run of FEEDs. -/
theorem feedAll_frame {c : Chan} {bs : List Byte} {s t : State} (h : feedAll c bs s = .next t) :
    t.cfg = s.cfg ∧ t.inputs = s.inputs ∧ t.tsIn = s.tsIn ∧ t.rxLink = s.rxLink ∧
      ∀ d, d ≠ c → t.slice d = s.slice d :=
  feedAll_induct
    (P := fun u => u.cfg = s.cfg ∧ u.inputs = s.inputs ∧ u.tsIn = s.tsIn ∧ u.rxLink = s.rxLink ∧
      ∀ d, d ≠ c → u.slice d = s.slice d)
    (fun b u v hu hf => by
      obtain ⟨h1, h2, h3, h4, h5, -⟩ := feedByte_frame hf
      exact ⟨h1.trans hu.1, h2.trans hu.2.1, h3.trans hu.2.2.1, h4.trans hu.2.2.2.1,
        fun d hd => (h5 d hd).trans (hu.2.2.2.2 d hd)⟩)
    bs s t ⟨rfl, rfl, rfl, rfl, fun _ _ => rfl⟩ h

/-- A run of FEEDs on a channel whose buffer meets R211 completes. -/
theorem feedAll_completes {c : Chan} :
    ∀ (bs : List Byte) (s : State), bufInv s.cfg.rxLen (s.slice c).buf → Completes (feedAll c bs s)
  | [], s, _ => ⟨s, rfl⟩
  | b :: bs, s, h => by
    obtain ⟨s', hs'⟩ := feedByte_completes c b s h
    obtain ⟨t, ht⟩ := feedAll_completes bs s' (feedByte_bufInv hs')
    exact ⟨t, by rw [feedAll_cons_next hs', ht]⟩

end Sys2Proof.Machine
end

