-- ==== Sys2Proof/Laws/Bits.lean ====
section
/-! SUPPORT. Fields of words as numbers: concatenation and slices of bit vectors by their `toNat`, the mask tests of
30_encoding.md R181 as slices that are 0, and the byte packing of 20_memory.md R101. -/

namespace Sys2Proof

theorem append_toNat {n m : Nat} (x : BitVec n) (y : BitVec m) : (x ++ y).toNat = x.toNat * 2 ^ m + y.toNat := by
  rw [BitVec.toNat_append, ← Nat.shiftLeft_add_eq_or_of_lt y.isLt, Nat.shiftLeft_eq]

theorem slice_toNat {n : Nat} (x : BitVec n) (s k : Nat) : (x.extractLsb' s k).toNat = x.toNat / 2 ^ s % 2 ^ k := by
  rw [BitVec.extractLsb'_toNat, Nat.shiftRight_eq_div_pow]

@[simp] theorem chan_ofBit_bit (c : Chan) : Chan.ofBit c.bit = c := by cases c <;> rfl
@[simp] theorem version_ofBit_bit (v : Version) : Version.ofBit v.bit = v := by cases v <;> rfl
@[simp] theorem direction_ofBit_bit (d : Direction) : Direction.ofBit d.bit = d := by cases d <;> rfl
@[simp] theorem bitFlag_flagBit (b : Bool) : bitFlag (flagBit b) = b := by cases b <;> rfl

theorem bit_cases (b : BitVec 1) : b = 0#1 ∨ b = 1#1 := by
  have h := b.isLt
  rcases Nat.lt_or_ge b.toNat 1 with h0 | h1
  · exact .inl (BitVec.eq_of_toNat_eq (by simp; omega))
  · exact .inr (BitVec.eq_of_toNat_eq (by simp; omega))

@[simp] theorem chan_bit_ofBit (b : BitVec 1) : (Chan.ofBit b).bit = b := by
  rcases bit_cases b with rfl | rfl <;> rfl
@[simp] theorem version_bit_ofBit (b : BitVec 1) : (Version.ofBit b).bit = b := by
  rcases bit_cases b with rfl | rfl <;> rfl
@[simp] theorem direction_bit_ofBit (b : BitVec 1) : (Direction.ofBit b).bit = b := by
  rcases bit_cases b with rfl | rfl <;> rfl
@[simp] theorem flagBit_bitFlag (b : BitVec 1) : flagBit (bitFlag b) = b := by
  rcases bit_cases b with rfl | rfl <;> rfl

/-! ## 16-bit fields -/

theorem hi_toNat (v : Half) : (hi v).toNat = v.toNat / 256 := by
  have := v.isLt
  simp only [hi, slice_toNat]
  omega

theorem lo_toNat (v : Half) : (lo v).toNat = v.toNat % 256 := by
  simp only [lo, slice_toNat]
  omega

theorem be16_toNat (h l : Byte) : (be16 h l).toNat = 256 * h.toNat + l.toNat := by
  simp only [be16, append_toNat]
  omega

@[simp] theorem be16_hi_lo (v : Half) : be16 (hi v) (lo v) = v := by
  apply BitVec.eq_of_toNat_eq
  rw [be16_toNat, hi_toNat, lo_toNat]
  omega

@[simp] theorem hi_be16 (h l : Byte) : hi (be16 h l) = h := by
  apply BitVec.eq_of_toNat_eq
  have := l.isLt
  rw [hi_toNat, be16_toNat]
  omega

@[simp] theorem lo_be16 (h l : Byte) : lo (be16 h l) = l := by
  apply BitVec.eq_of_toNat_eq
  have := l.isLt
  rw [lo_toNat, be16_toNat]
  omega

/-! ## Packed bytes -/

theorem wordBytes_append (a b c d : Byte) : wordBytes (a ++ b ++ c ++ d) = [a, b, c, d] := by
  have ha := a.isLt
  have hb := b.isLt
  have hc := c.isLt
  have hd := d.isLt
  simp only [wordBytes, List.cons.injEq, and_true]
  refine ⟨?_, ?_, ?_, ?_⟩ <;> apply BitVec.eq_of_toNat_eq <;> simp only [slice_toNat, append_toNat] <;> omega

@[simp] theorem unpackWords_length : ∀ ws : List Word, (unpackWords ws).length = 4 * ws.length
  | [] => rfl
  | w :: ws => by simp [unpackWords, wordBytes, unpackWords_length ws]; omega

@[simp] theorem packWords_length : ∀ bs : List Byte, (packWords bs).length = packedLength bs.length
  | [] => rfl
  | [_] => by simp [packWords, packedLength]
  | [_, _] => by simp [packWords, packedLength]
  | [_, _, _] => by simp [packWords, packedLength]
  | _ :: _ :: _ :: _ :: rest => by simp [packWords, packWords_length rest, packedLength]; omega

/-- Packing loses no byte: the bytes of the packed words are the sequence and then padding. -/
theorem take_unpack_pack : ∀ bs : List Byte, (unpackWords (packWords bs)).take bs.length = bs
  | [] => rfl
  | [a] => by
    have h := wordBytes_append a 0#8 0#8 0#8
    have e : a ++ 0#24 = a ++ 0#8 ++ 0#8 ++ 0#8 := by
      apply BitVec.eq_of_toNat_eq
      simp only [append_toNat]
      simp
      omega
    simp only [packWords, unpackWords, e, h]
    rfl
  | [a, b] => by
    have h := wordBytes_append a b 0#8 0#8
    have e : a ++ b ++ 0#16 = a ++ b ++ 0#8 ++ 0#8 := by
      apply BitVec.eq_of_toNat_eq
      simp only [append_toNat]
      simp
      omega
    simp only [packWords, unpackWords, e, h]
    rfl
  | [a, b, c] => by
    simp only [packWords, unpackWords, wordBytes_append]
    rfl
  | a :: b :: c :: d :: rest => by
    simp only [packWords, unpackWords, wordBytes_append, List.length_cons]
    simpa using take_unpack_pack rest

/-! ## The masks of R181 -/

/-- A word tested against a mask that is the run of `k` bits from bit `s`. -/
theorem and_run (w m : Word) (s k : Nat) (hk : s + k ≤ 32)
    (hm : ∀ i, i < 32 → m.getLsbD i = decide (s ≤ i ∧ i < s + k)) :
    w &&& m = 0#32 ↔ w.extractLsb' s k = 0#k := by
  constructor
  · intro h
    apply BitVec.eq_of_getLsbD_eq
    intro i hi
    have hb := congrArg (fun v => v.getLsbD (s + i)) h
    simp only [BitVec.getLsbD_and, hm (s + i) (by omega), BitVec.getLsbD_zero] at hb
    have hin : s ≤ s + i ∧ s + i < s + k := by omega
    simpa [hin, hi] using hb
  · intro h
    apply BitVec.eq_of_getLsbD_eq
    intro i hi
    rw [BitVec.getLsbD_and, hm i hi]
    by_cases hr : s ≤ i ∧ i < s + k
    · have hb := congrArg (fun v => v.getLsbD (i - s)) h
      have h1 : i - s < k := by omega
      have h2 : s + (i - s) = i := by omega
      simp only [BitVec.getLsbD_extractLsb', h1, h2, decide_true, Bool.true_and, BitVec.getLsbD_zero] at hb
      simp [hb]
    · simp [hr]

/-- A word tested against two masks at once. -/
theorem and_or (w a b : Word) : w &&& (a ||| b) = 0#32 ↔ w &&& a = 0#32 ∧ w &&& b = 0#32 := by
  constructor
  · intro h
    have hb : ∀ i, (w.getLsbD i && (a.getLsbD i || b.getLsbD i)) = false := fun i => by
      simpa using congrArg (fun v => v.getLsbD i) h
    refine ⟨?_, ?_⟩ <;> apply BitVec.eq_of_getLsbD_eq <;> intro i _ <;> have := hb i <;>
      cases hw : w.getLsbD i <;> simp_all
  · rintro ⟨h1, h2⟩
    have hb1 : ∀ i, (w.getLsbD i && a.getLsbD i) = false := fun i => by
      simpa using congrArg (fun v => v.getLsbD i) h1
    have hb2 : ∀ i, (w.getLsbD i && b.getLsbD i) = false := fun i => by
      simpa using congrArg (fun v => v.getLsbD i) h2
    apply BitVec.eq_of_getLsbD_eq
    intro i _
    have := hb1 i
    have := hb2 i
    cases hw : w.getLsbD i <;> simp_all

theorem mask_feed (w : Word) : w &&& reservedMask .feed = 0#32 ↔ w.extractLsb' 8 19 = 0#19 :=
  and_run w _ 8 19 (by decide) (by decide)

theorem mask_channel (w : Word) : w &&& reservedMask .resetAsm = 0#32 ↔ w.extractLsb' 0 27 = 0#27 :=
  and_run w _ 0 27 (by decide) (by decide)

theorem mask_writeCfg (w : Word) : w &&& reservedMask .writeCfg = 0#32 ↔ w.extractLsb' 3 25 = 0#25 :=
  and_run w _ 3 25 (by decide) (by decide)

theorem mask_readCfg (w : Word) : w &&& reservedMask .readCfg = 0#32 ↔ w.extractLsb' 0 28 = 0#28 :=
  and_run w _ 0 28 (by decide) (by decide)

theorem mask_decode (w : Word) :
    w &&& reservedMask .decode = 0#32 ↔ w.extractLsb' 27 1 = 0#1 ∧ w.extractLsb' 8 17 = 0#17 := by
  have e : reservedMask .decode = 0x08000000#32 ||| 0x01FFFF00#32 := by decide
  rw [e, and_or, and_run w _ 27 1 (by decide) (by decide), and_run w _ 8 17 (by decide) (by decide)]

theorem mask_encode (w : Word) :
    w &&& reservedMask .encode = 0#32 ↔ w.extractLsb' 26 2 = 0#2 ∧ w.extractLsb' 3 22 = 0#22 := by
  have e : reservedMask .encode = 0x0C000000#32 ||| 0x01FFFFF8#32 := by decide
  rw [e, and_or, and_run w _ 26 2 (by decide) (by decide), and_run w _ 3 22 (by decide) (by decide)]

/-! ## The opcode of a word -/

/-- What the opcode field says, opcode by opcode (30_encoding.md R151). -/
theorem opcodeOf_some {op : BitVec 4} {k : Opcode} : opcodeOf op = some k →
    op = match k with
      | .feed => 1#4
      | .decode => 2#4
      | .encode => 3#4
      | .resetAsm => 4#4
      | .resetStats => 5#4
      | .resetCh => 6#4
      | .readStats => 7#4
      | .writeCfg => 8#4
      | .readCfg => 9#4 := by
  obtain ⟨n, rfl⟩ : ∃ n : Fin 16, op = BitVec.ofNat 4 n.val :=
    ⟨⟨op.toNat, op.isLt⟩, BitVec.eq_of_toNat_eq (by simp)⟩
  fin_cases n <;> cases k <;> simp [opcodeOf]

/-- The opcodes that are none of the nine are the reserved ones (R151). -/
theorem opcodeOf_none {op : BitVec 4} : opcodeOf op = none ↔ reservedOp op = true := by
  have hop := op.isLt
  obtain ⟨n, rfl⟩ : ∃ n : Fin 16, op = BitVec.ofNat 4 n.val :=
    ⟨⟨op.toNat, hop⟩, BitVec.eq_of_toNat_eq (by simp)⟩
  revert n
  decide

end Sys2Proof
end

