-- ==== Sys2Proof/Laws/Decode.lean ====
section
/-! SUPPORT. What the decoder can answer, said once: unfold `decodeCommand` and `decodeWire` nowhere else. -/

namespace Sys2Proof

/-- A command that passes the checks of 30_encoding.md R181 decodes to its fields. -/
theorem decodeCommand_of_valid {w0 : Word} {ops : List Word} {k : Opcode}
    (hop : opcodeOf (w0.extractLsb' 28 4) = some k) (hmask : w0 &&& reservedMask k = 0#32)
    (hlen : ops.length + 1 = commandLength k w0) : decodeCommand (w0 :: ops) = .ok (commandFields k w0 ops) := by
  simp [decodeCommand, hop, hmask, hlen]

/-- If a command decodes, it is a one-word reserved opcode, or it passed the checks of R181. -/
theorem decodeCommand_ok {ws : List Word} {i : Instr} (h : decodeCommand ws = .ok i) :
    ∃ w0 ops, ws = w0 :: ops ∧
      ((opcodeOf (w0.extractLsb' 28 4) = none ∧ ops = [] ∧
          i = .reserved (w0.extractLsb' 28 4) (w0.extractLsb' 0 28)) ∨
        ∃ k, opcodeOf (w0.extractLsb' 28 4) = some k ∧ w0 &&& reservedMask k = 0#32 ∧
          ops.length + 1 = commandLength k w0 ∧ i = commandFields k w0 ops) := by
  cases ws with
  | nil => simp [decodeCommand] at h
  | cons w0 ops =>
    refine ⟨w0, ops, rfl, ?_⟩
    unfold decodeCommand at h
    cases hop : opcodeOf (w0.extractLsb' 28 4) with
    | none =>
      cases ops with
      | nil => exact .inl ⟨rfl, rfl, by simpa [hop] using h.symm⟩
      | cons _ _ => simp [hop] at h
    | some k =>
      simp only [hop] at h
      split_ifs at h with h1 h2
      simp only [ne_eq, not_not] at h1 h2
      exact .inr ⟨k, rfl, h1, h2, by simpa using h.symm⟩

/-- The decoder of commands never says that a command is no frame. -/
theorem decodeCommand_ne_notAFrame (ws : List Word) : decodeCommand ws ≠ .error .notAFrame := by
  cases ws with
  | nil => simp [decodeCommand]
  | cons w0 ops =>
    cases hop : opcodeOf (w0.extractLsb' 28 4) with
    | none => cases ops <;> simp [decodeCommand, hop]
    | some k =>
      simp only [decodeCommand, hop]
      split_ifs <;> simp

/-- A byte as the concatenation of its slices, as the frame layouts of R183 cut it. -/
theorem byte_slices (b : Byte) :
    b = b.extractLsb' 3 5 ++ b.extractLsb' 2 1 ++ b.extractLsb' 0 2 ∧
      b = b.extractLsb' 3 5 ++ b.extractLsb' 0 3 ∧
      b = b.extractLsb' 1 7 ++ b.extractLsb' 0 1 ∧
      b = b.extractLsb' 3 5 ++ b.extractLsb' 1 2 ++ b.extractLsb' 0 1 := by
  have hb := b.isLt
  refine ⟨?_, ?_, ?_, ?_⟩ <;> apply BitVec.eq_of_toNat_eq <;> simp only [slice_toNat, append_toNat] <;> omega

/-- If bytes decode to a wire frame, they are the bytes that the frame's fields make (30_encoding.md R183). -/
theorem decodeWire_ok {bs : List Byte} {i : Instr} (h : decodeWire bs = .ok i) :
    encode i = .bytes bs ∧ i.wf = true := by
  unfold decodeWire at h
  split at h
  · rename_i f0 f1 f2 f3 f4 f5 f6
    have hs := byte_slices f1
    split_ifs at h with h1 h2
    · obtain rfl : _ = i := by simpa using h
      rw [h2] at hs
      simp only [encode, sysvBytes, hi_be16, lo_be16, ← hs.1, h1.1, h1.2, Instr.wf, and_self]
    · obtain rfl : _ = i := by simpa using h
      simp only [encode, slaveBytes, hi_be16, lo_be16, ← hs.2.1, h1.1, h1.2, Instr.wf, true_and]
      simpa using h2
  · rename_i f0 f1 f2 f3 f4 f5 f6 f7 f8
    have hs := byte_slices f1
    split_ifs at h with h1
    obtain rfl : _ = i := by simpa using h
    simp only [encode, cmdV1Bytes, hi_be16, lo_be16, flagBit_bitFlag, ← hs.2.2.1, h1.1, h1.2, Instr.wf, and_self]
  · rename_i f0 f1 f2 f3 f4 f5 f6 f7 f8 f9
    have hs := byte_slices f1
    split_ifs at h with h1
    obtain rfl : _ = i := by simpa using h
    simp only [encode, cmdV2Bytes, hi_be16, lo_be16, flagBit_bitFlag, ← hs.2.2.2, h1.1, h1.2, Instr.wf, and_self]
  · simp at h

end Sys2Proof
end

