-- ==== Sys2Proof/Laws/Exec.lean ====
section
/-! SUPPORT. What an instruction and a step can do, said once. -/

namespace Sys2Proof.Machine

/-- The bytes that a wire frame puts on its link; none for a command. -/
def frameBytes (i : Instr) : List Byte :=
  match encode i with
  | .words _ => []
  | .bytes bs => bs

/-- If an instruction answers next t: a FEED did what `feedByte` does, a wire frame what `feedAll` of its bytes does on its
link, and every other command's state is given here in full. -/
theorem exec_next {i : Instr} {s t : State} : exec i s = .next t →
    match i with
    | .feed ch b => feedByte ch b s = .next t
    | .decode dir ver f => t = s.respond (respOutcome .ch0 ver dir (decodeFrame f dir ver s.cfg.cken))
    | .encode ver mode start maxv minv cur =>
      t = s.respond
        (match rangeCheck ver mode (sext32 maxv) (sext32 minv) (sext32 cur) with
          | some field => respRangeErr field
          | none => respFrame (buildFrame ver mode start (sext32 maxv) (sext32 minv) (sext32 cur)))
    | .resetAsm ch => t = (s.setSlice ch ((s.slice ch).withBuf [])).respond respDone
    | .resetStats ch => t = (s.setSlice ch (s.slice ch).clearStats).respond respDone
    | .resetCh ch => t = (s.setSlice ch ((s.slice ch).withBuf []).clearStats).respond respDone
    | .readStats ch => t = s.respond (respStats ch (s.slice ch))
    | .writeCfg rxdir cken ver => t = (s.setCfg { ver := ver, cken := cken, rxdir := rxdir }).respond respDone
    | .readCfg => t = s.respond (respCfg s.cfg)
    | .reserved _ _ => t = s.respond (respIllegal .reservedOpcode)
    | i => feedAll s.rxLink (frameBytes i) s = .next t := by
  intro h
  cases i with
  | encode ver mode start maxv minv cur =>
    simp only [exec, execEncode] at h
    cases hr : rangeCheck ver mode (sext32 maxv) (sext32 minv) (sext32 cur) with
    | none => simpa [hr] using h.symm
    | some f => simpa [hr, raiseError] using h.symm
  | feed _ _ => exact h
  | frameSysv _ _ _ _ _ => exact h
  | frameSlave _ _ _ _ _ => exact h
  | frameCmdV1 _ _ _ _ _ _ => exact h
  | frameCmdV2 _ _ _ _ _ _ _ => exact h
  | decode _ _ _ => exact (Host.Outcome.next.inj h).symm
  | resetAsm _ => exact (Host.Outcome.next.inj h).symm
  | resetStats _ => exact (Host.Outcome.next.inj h).symm
  | resetCh _ => exact (Host.Outcome.next.inj h).symm
  | readStats _ => exact (Host.Outcome.next.inj h).symm
  | writeCfg _ _ _ => exact (Host.Outcome.next.inj h).symm
  | readCfg => exact (Host.Outcome.next.inj h).symm
  | reserved _ _ => exact (Host.Outcome.next.inj h).symm

/-- ENCODE always answers next: the FRAME or the RANGEERR response. -/
theorem execEncode_eq (ver : Version) (mode : BitVec 2) (start : Bool) (maxv minv cur : Word) (s : State) :
    exec (.encode ver mode start maxv minv cur) s = .next (s.respond
      (match rangeCheck ver mode (sext32 maxv) (sext32 minv) (sext32 cur) with
        | some field => respRangeErr field
        | none => respFrame (buildFrame ver mode start (sext32 maxv) (sext32 minv) (sext32 cur)))) := by
  simp only [exec, execEncode]
  cases rangeCheck ver mode (sext32 maxv) (sext32 minv) (sext32 cur) <;> rfl

/-- If a step answers next t, the next transaction is one of five things, and t is what that gives. -/
theorem step_next {s t : State} (h : step s = .next t) :
    (s.inputs = [] ∧ t = s) ∨
      (∃ d rest, s.inputs = .rst d :: rest ∧ t = s.powerOn rest) ∨
      (∃ ws ts rest e, s.inputs = .command ws ts :: rest ∧ decode (.words ws) = .error e ∧
        t = raiseIllegal (illegalOf e) (s.accept rest ts)) ∨
      (∃ ws ts rest i, s.inputs = .command ws ts :: rest ∧ decode (.words ws) = .ok i ∧
        exec i (s.accept rest ts) = .next t) ∨
      ∃ link bs ts rest, s.inputs = .wire link bs ts :: rest ∧
        feedAll link bs (s.acceptWire rest link ts) = .next t := by
  unfold step fetch at h
  cases hin : s.inputs with
  | nil => exact .inl ⟨rfl, by simpa [hin] using h.symm⟩
  | cons a rest =>
    right
    cases a with
    | rst d => exact .inl ⟨d, rest, rfl, by simpa [hin] using h.symm⟩
    | command ws ts =>
      cases hd : decode (.words ws) with
      | error e => exact .inr (.inl ⟨ws, ts, rest, e, rfl, hd, by simpa [hin, hd] using h.symm⟩)
      | ok i => exact .inr (.inr (.inl ⟨ws, ts, rest, i, rfl, hd, by simpa [hin, hd] using h⟩))
    | wire link bs ts =>
      refine .inr (.inr (.inr ⟨link, bs, ts, rest, rfl, ?_⟩))
      cases hd : decode (.bytes bs) with
      | error e => simpa [hin, hd] using h
      | ok i =>
        have henc := (decodeWire_ok hd).1
        have hexec : exec i (s.acceptWire rest link ts) = .next t := by simpa [hin, hd] using h
        have hn := exec_next hexec
        cases i <;> simp_all [frameBytes, encode]

end Sys2Proof.Machine
end

