-- ==== Sys2Proof/Laws/Operands.lean ====
section
/-! SUPPORT. The fields and operands of Machine/Operands.lean and the sums of Machine/Flags.lean as numbers. -/

namespace Sys2Proof.Machine

/-! ## One-bit fields as numbers -/

theorem chan_bit_toNat (c : Chan) : c.bit.toNat = chanNat c := by cases c <;> rfl
theorem version_bit_toNat (v : Version) : v.bit.toNat = verNat v := by cases v <;> rfl
theorem direction_bit_toNat (d : Direction) : d.bit.toNat = dirNat d := by cases d <;> rfl
theorem flagBit_toNat (b : Bool) : (flagBit b).toNat = bitNat b := by cases b <;> rfl
theorem chanNat_lt (c : Chan) : chanNat c < 2 := by cases c <;> decide
theorem verNat_lt (v : Version) : verNat v < 2 := by cases v <;> decide
theorem dirNat_lt (d : Direction) : dirNat d < 2 := by cases d <;> decide
theorem bitNat_lt (b : Bool) : bitNat b < 2 := by cases b <;> decide

/-! ## Fields of a frame -/

/-- A 16-bit field as a number (42_field_decode.md R306 to R309). -/
theorem be16_eq_ofNat (h l : Byte) : be16 h l = BitVec.ofNat 16 (256 * h.toNat + l.toNat) := by
  apply BitVec.eq_of_toNat_eq
  rw [be16_toNat, BitVec.toNat_ofNat]
  omega

/-- A signed 16-bit field: its two's-complement value. -/
theorem sext16_be16 (h l : Byte) :
    sext16 (be16 h l) =
      if 128 ≤ h.toNat then 256 * (h.toNat : Int) + l.toNat - 65536 else 256 * (h.toNat : Int) + l.toNat := by
  rw [sext16, BitVec.toInt_eq_toNat_cond, be16_toNat]
  split_ifs <;> omega

/-- A signed 8-bit field. -/
theorem sext8_eq (b : Byte) : sext8 b = if 128 ≤ b.toNat then (b.toNat : Int) - 256 else b.toNat := by
  rw [sext8, BitVec.toInt_eq_toNat_cond]
  split_ifs <;> omega

/-- An unsigned 16-bit field. -/
theorem zext16_be16 (h l : Byte) : zext16 (be16 h l) = 256 * (h.toNat : Int) + l.toNat := by
  simp [zext16, be16_toNat]

/-- A center-offset field (42_field_decode.md R305). -/
theorem co16_be16 (h l : Byte) : co16 (be16 h l) = 256 * (h.toNat : Int) + l.toNat - 32768 := by
  simp [co16, zext16_be16, Config.center]

theorem idField_eq_zero (b : Byte) : idField b = 0#5 ↔ b.toNat / 8 = 0 := by
  rw [idField, ← BitVec.toNat_inj, slice_toNat, BitVec.toNat_ofNat]
  omega

theorem lowFlag_eq (b : Byte) : lowFlag b = decide (b.toNat % 2 = 1) := by
  rw [Bool.eq_iff_iff, lowFlag, bitFlag, beq_iff_eq, ← BitVec.toNat_inj, slice_toNat, decide_eq_true_eq,
    BitVec.toNat_ofNat]
  omega

theorem chanField_eq (b : Byte) : chanField b = BitVec.ofNat 2 (b.toNat % 4) := by
  apply BitVec.eq_of_toNat_eq
  rw [chanField, slice_toNat, BitVec.toNat_ofNat]
  omega

theorem modeField_eq (b : Byte) : modeField b = BitVec.ofNat 2 (b.toNat / 2 % 4) := by
  apply BitVec.eq_of_toNat_eq
  rw [modeField, slice_toNat, BitVec.toNat_ofNat]
  omega

/-! ## Integers as fields -/

/-- An integer in the signed 16-bit range survives its field (43_field_encode.md R352; 42_field_decode.md R308). -/
theorem sext16_t16 {x : Int} (h : outside16 x = false) : sext16 (t16 x) = x := by
  simp only [outside16, decide_eq_false_iff_not, not_or, not_lt] at h
  rw [sext16, t16, BitVec.toInt_ofInt]
  simp only [Int.bmod]
  split_ifs <;> omega

/-- An integer in the signed 8-bit range survives its field. -/
theorem sext8_t8 {x : Int} (h : outside8 x = false) : sext8 (t8 x) = x := by
  simp only [outside8, decide_eq_false_iff_not, not_or, not_lt] at h
  rw [sext8, t8, BitVec.toInt_ofInt]
  simp only [Int.bmod]
  split_ifs <;> omega

/-- An integer in the signed 16-bit range survives a center-offset field (43_field_encode.md R353; R305). -/
theorem co16_coRaw {x : Int} (h : outside16 x = false) : co16 (coRaw x) = x := by
  simp only [outside16, decide_eq_false_iff_not, not_or, not_lt] at h
  rw [co16, coRaw, zext16, BitVec.toNat_ofInt, Config.center]
  omega

/-! ## Sums and counts -/

theorem byteSum_toNat (bs : List Byte) : (byteSum bs).toNat = (bs.map BitVec.toNat).sum % 256 := by
  simp [byteSum]

/-- A counter one up, below saturation (44_channel_stats.md R402). -/
theorem satInc_toNat (x : Word) : (satInc x).toNat = min (x.toNat + 1) (2 ^ 32 - 1) := by
  rw [satInc, BitVec.toNat_ofNat, Config.counterMax]
  omega

/-- The checksum and the checksum byte of a frame that `wrapFrame` made (41_checksum.md R253). -/
theorem wrapFrame_cks (body : List Byte) :
    cks (wrapFrame body) = byteSum body ∧ cksByte (wrapFrame body) = byteSum body := by
  constructor
  · simp [cks, payload, wrapFrame]
  · simp [cksByte, byteAt, wrapFrame, List.getD_eq_getElem?_getD]

end Sys2Proof.Machine
end

