-- ==== Sys2Proof/Laws/PerInstr.lean ====
section
/-! SUPPORT. The statements made for every instruction, one lemma for each constructor. -/

namespace Sys2Proof.Laws

/-- The length of an instruction's encoding: a command is 1 to 65 words (30_encoding.md R150, R158), a wire frame is 7, 9 or
10 bytes between STX and ETX (R183, R187). -/
def EncodedLength.Statement (i : Instr) : Prop :=
  i.wf = true →
    match i, encode i with
    | .decode _ _ f, .words ws => ws.length = 1 + packedLength f.length ∧ ws.length ≤ 65
    | .encode _ _ _ _ _ _, .words ws => ws.length = 4
    | .frameCmdV1 _ _ _ _ _ _, .bytes bs => bs.length = 9 ∧ bs.head? = some Config.stx ∧ bs.getLast? = some Config.etx
    | .frameCmdV2 _ _ _ _ _ _ _, .bytes bs => bs.length = 10 ∧ bs.head? = some Config.stx ∧ bs.getLast? = some Config.etx
    | .frameSysv _ _ _ _ _, .bytes bs => bs.length = 7 ∧ bs.head? = some Config.stx ∧ bs.getLast? = some Config.etx
    | .frameSlave _ _ _ _ _, .bytes bs => bs.length = 7 ∧ bs.head? = some Config.stx ∧ bs.getLast? = some Config.etx
    | _, .words ws => ws.length = 1
    | _, .bytes _ => False

theorem EncodedLength.feed (ch : Chan) (byte : Byte) : EncodedLength.Statement (.feed ch byte) :=
  fun _ => rfl

theorem EncodedLength.decode (dir : Direction) (ver : Version) (frame : List Byte) :
    EncodedLength.Statement (.decode dir ver frame) := by
  intro h
  have hlen : frame.length ≤ 255 := of_decide_eq_true h
  simp only [encode, List.length_cons, packWords_length, packedLength]
  omega

theorem EncodedLength.encode (ver : Version) (mode : BitVec 2) (start : Bool) (maxv minv cur : Word) :
    EncodedLength.Statement (.encode ver mode start maxv minv cur) :=
  fun _ => rfl

theorem EncodedLength.resetAsm (ch : Chan) : EncodedLength.Statement (.resetAsm ch) :=
  fun _ => rfl

theorem EncodedLength.resetStats (ch : Chan) : EncodedLength.Statement (.resetStats ch) :=
  fun _ => rfl

theorem EncodedLength.resetCh (ch : Chan) : EncodedLength.Statement (.resetCh ch) :=
  fun _ => rfl

theorem EncodedLength.readStats (ch : Chan) : EncodedLength.Statement (.readStats ch) :=
  fun _ => rfl

theorem EncodedLength.writeCfg (rxdir : Direction) (cken : Bool) (ver : Version) :
    EncodedLength.Statement (.writeCfg rxdir cken ver) :=
  fun _ => rfl

theorem EncodedLength.readCfg : EncodedLength.Statement .readCfg :=
  fun _ => rfl

theorem EncodedLength.reserved (op : BitVec 4) (low : BitVec 28) : EncodedLength.Statement (.reserved op low) :=
  fun _ => rfl

theorem EncodedLength.frameSysv (rsv : BitVec 1) (chan : BitVec 2) (raw : Half) (f4 cks : Byte) :
    EncodedLength.Statement (.frameSysv rsv chan raw f4 cks) :=
  fun _ => ⟨rfl, rfl, rfl⟩

theorem EncodedLength.frameSlave (id : BitVec 5) (status : BitVec 3) (raw : Half) (temp cks : Byte) :
    EncodedLength.Statement (.frameSlave id status raw temp cks) :=
  fun _ => ⟨rfl, rfl, rfl⟩

theorem EncodedLength.frameCmdV1 (undef : BitVec 7) (start : Bool) (maxv minv : Half) (cur cks : Byte) :
    EncodedLength.Statement (.frameCmdV1 undef start maxv minv cur cks) :=
  fun _ => ⟨rfl, rfl, rfl⟩

theorem EncodedLength.frameCmdV2 (undef : BitVec 5) (mode : BitVec 2) (start : Bool) (maxv minv cur : Half) (cks : Byte) :
    EncodedLength.Statement (.frameCmdV2 undef mode start maxv minv cur cks) :=
  fun _ => ⟨rfl, rfl, rfl⟩

end Sys2Proof.Laws
end

