-- ==== Sys2Proof/Laws/Response.lean ====
section
/-! SUPPORT. The RCODE and the length of every response (30_encoding.md R170 to R182), and which responses report an
event. -/

namespace Sys2Proof.Machine

/-! ## RCODE -/

@[simp] theorem rcode_respDone : rcode respDone = 0x0#4 := rfl

@[simp] theorem rcode_respRecord (ch : Chan) (ver : Version) (r : Record) :
    rcode (respRecord ch ver r) =
      match r with
      | .sysv _ _ _ _ _ => 0x1#4
      | .slave _ _ _ _ _ => 0x2#4
      | .cmd _ _ _ _ _ _ _ _ => 0x3#4 := by
  apply BitVec.eq_of_toNat_eq
  cases r <;>
  · simp only [rcode, respRecord, List.headD_cons, slice_toNat, append_toNat]
    omega

@[simp] theorem rcode_respCkfail (ch : Chan) (ver : Version) (dir : Direction) (a b : Byte) :
    rcode (respCkfail ch ver dir a b) = 0x4#4 := by
  apply BitVec.eq_of_toNat_eq
  simp only [rcode, respCkfail, List.headD_cons, slice_toNat, append_toNat]
  omega

@[simp] theorem rcode_respMalformed (ch : Chan) (ver : Version) (dir : Direction) (len : Nat) (p q : Bool)
    (reason : BitVec 4) : rcode (respMalformed ch ver dir len p q reason) = 0x5#4 := by
  apply BitVec.eq_of_toNat_eq
  simp only [rcode, respMalformed, List.headD_cons, slice_toNat, append_toNat]
  omega

@[simp] theorem rcode_respFrame (f : List Byte) : rcode (respFrame f) = 0x6#4 := by
  apply BitVec.eq_of_toNat_eq
  simp only [rcode, respFrame, List.headD_cons, slice_toNat, append_toNat]
  omega

@[simp] theorem rcode_respRangeErr (field : RangeField) : rcode (respRangeErr field) = 0x7#4 := by
  cases field <;> rfl

@[simp] theorem rcode_respStats (ch : Chan) (x : Slice) : rcode (respStats ch x) = 0x8#4 := by
  apply BitVec.eq_of_toNat_eq
  simp only [rcode, respStats, List.headD_cons, slice_toNat, append_toNat]
  omega

@[simp] theorem rcode_respCfg (cfg : Cfg) : rcode (respCfg cfg) = 0x9#4 := by
  apply BitVec.eq_of_toNat_eq
  simp only [rcode, respCfg, List.headD_cons, slice_toNat, append_toNat]
  omega

@[simp] theorem rcode_respIllegal (r : IllegalReason) : rcode (respIllegal r) = 0xF#4 := by
  cases r <;> rfl

/-- The RCODE of an outcome: a record's own, 4 for a checksum failure, 5 for a malformed frame. -/
theorem rcode_respOutcome (ch : Chan) (ver : Version) (dir : Direction) (out : FrameOutcome) :
    rcode (respOutcome ch ver dir out) =
      match out with
      | .record r => rcode (respRecord ch ver r)
      | .checksumError _ _ => 0x4#4
      | .lengthMismatch _ => 0x5#4
      | .markerError _ _ _ => 0x5#4 := by
  cases out <;> simp [respOutcome]

/-- An outcome is never reported as DONE. -/
theorem rcode_respOutcome_ne_done (ch : Chan) (ver : Version) (dir : Direction) (out : FrameOutcome) :
    rcode (respOutcome ch ver dir out) ≠ 0x0#4 := by
  rw [rcode_respOutcome]
  cases out with
  | record r => cases r <;> simp
  | lengthMismatch _ => simp
  | markerError _ _ _ => simp
  | checksumError _ _ => simp

/-! ## The responses that report an event -/

@[simp] theorem eventResponses_nil : eventResponses [] = [] := rfl

@[simp] theorem eventResponses_append (as bs : List Response) :
    eventResponses (as ++ bs) = eventResponses as ++ eventResponses bs := by
  simp [eventResponses]

@[simp] theorem eventResponses_replicate_done (n : Nat) : eventResponses (List.replicate n respDone) = [] := by
  simp [eventResponses]

@[simp] theorem eventResponses_done_cons (rs : List Response) : eventResponses (respDone :: rs) = eventResponses rs := by
  simp [eventResponses]

@[simp] theorem eventResponses_outcome_cons (ch : Chan) (ver : Version) (dir : Direction) (out : FrameOutcome)
    (rs : List Response) :
    eventResponses (respOutcome ch ver dir out :: rs) = respOutcome ch ver dir out :: eventResponses rs := by
  simp [eventResponses, rcode_respOutcome_ne_done]

end Sys2Proof.Machine
end

