-- ==== Sys2Proof/Laws/Runs.lean ====
section
/-! SUPPORT. Runs of FEEDs whose outcome is known in advance: noise on an empty buffer (40_frame_assembler.md R205), the bytes
of an open candidate, and a whole frame (R206, R207). -/

namespace Sys2Proof.Machine

/-- The state with more responses delivered. -/
def State.deliver (s : State) (rs : List Response) : State :=
  { s with sent := s.sent ++ rs }

@[simp] theorem deliver_cfg (s : State) (rs : List Response) : (s.deliver rs).cfg = s.cfg := rfl
@[simp] theorem deliver_inputs (s : State) (rs : List Response) : (s.deliver rs).inputs = s.inputs := rfl
@[simp] theorem deliver_tsIn (s : State) (rs : List Response) : (s.deliver rs).tsIn = s.tsIn := rfl
@[simp] theorem deliver_rxLink (s : State) (rs : List Response) : (s.deliver rs).rxLink = s.rxLink := rfl
@[simp] theorem deliver_sent (s : State) (rs : List Response) : (s.deliver rs).sent = s.sent ++ rs := rfl
@[simp] theorem deliver_slice (s : State) (rs : List Response) (c : Chan) : (s.deliver rs).slice c = s.slice c := by
  cases c <;> rfl
theorem deliver_nil (s : State) : s.deliver [] = s := by simp [State.deliver]
theorem deliver_deliver (s : State) (a b : List Response) : (s.deliver a).deliver b = s.deliver (a ++ b) := by
  simp [State.deliver]

/-- The state in which channel `c` holds `buf`, and nothing else differs. -/
def State.holding (s : State) (c : Chan) (buf : List Byte) : State :=
  s.setSlice c ((s.slice c).withBuf buf)

@[simp] theorem holding_cfg (s : State) (c : Chan) (b : List Byte) : (s.holding c b).cfg = s.cfg := by
  simp [State.holding]
@[simp] theorem holding_inputs (s : State) (c : Chan) (b : List Byte) : (s.holding c b).inputs = s.inputs := by
  simp [State.holding]
@[simp] theorem holding_tsIn (s : State) (c : Chan) (b : List Byte) : (s.holding c b).tsIn = s.tsIn := by
  simp [State.holding]
@[simp] theorem holding_rxLink (s : State) (c : Chan) (b : List Byte) : (s.holding c b).rxLink = s.rxLink := by
  simp [State.holding]
@[simp] theorem holding_sent (s : State) (c : Chan) (b : List Byte) : (s.holding c b).sent = s.sent := by
  simp [State.holding]
@[simp] theorem holding_slice_same (s : State) (c : Chan) (b : List Byte) :
    (s.holding c b).slice c = (s.slice c).withBuf b := by
  simp [State.holding]
theorem holding_slice_other (s : State) {c d : Chan} (b : List Byte) (h : d ≠ c) :
    (s.holding c b).slice d = s.slice d :=
  setSlice_slice_other s _ h

/-- A FEED that only leaves a buffer behind, with no event. -/
theorem feedDone_none (c : Chan) (buf : List Byte) (s : State) :
    feedDone c buf none s = (s.holding c buf).deliver [respDone] :=
  rfl

theorem holding_self {s : State} {c : Chan} {buf : List Byte} (h : (s.slice c).buf = buf) : s.holding c buf = s := by
  cases c <;> simp_all [State.holding, Slice.withBuf] <;> cases s <;> simp_all <;> subst h <;> rfl

theorem holding_deliver_holding (s : State) (c : Chan) (a b : List Byte) (rs : List Response) :
    ((s.holding c a).deliver rs).holding c b = (s.holding c b).deliver rs := by
  cases c <;> rfl

/-- Noise on an empty buffer is dropped, one DONE for each byte (R205). -/
theorem feedAll_noise {c : Chan} :
    ∀ (bs : List Byte) (s : State), (s.slice c).buf = [] → noStx bs →
      feedAll c bs s = .next (s.deliver (List.replicate bs.length respDone))
  | [], s, _, _ => by simp [deliver_nil]
  | b :: bs, s, hbuf, hno => by
    have hb : b ≠ Config.stx := hno b (by simp)
    have hscan := feedScan_spec s.cfg (s.slice c).buf b (.inl hbuf)
    have hdrop : byteAt ((s.slice c).buf ++ [b]) 0 ≠ Config.stx := by simpa [hbuf] using hb
    rw [if_pos hdrop] at hscan
    have hf : feedByte c b s = .next (s.deliver [respDone]) := by
      rw [feedByte_of_scan hscan, feedDone_none, holding_self hbuf]
    rw [feedAll_cons_next hf, feedAll_noise bs _ (by simpa using hbuf) (fun x hx => hno x (by simp [hx])),
      deliver_deliver]
    rfl

/-- The bytes of an open candidate are kept, one DONE for each (R202). -/
theorem feedAll_open {c : Chan} :
    ∀ (bs : List Byte) (s : State), bufInv s.cfg.rxLen (s.slice c).buf →
      byteAt ((s.slice c).buf ++ bs) 0 = Config.stx → (s.slice c).buf.length + bs.length < s.cfg.rxLen →
      feedAll c bs s =
        .next ((s.holding c ((s.slice c).buf ++ bs)).deliver (List.replicate bs.length respDone))
  | [], s, _, _, _ => by simp [deliver_nil, holding_self]
  | b :: bs, s, hinv, hstx, hlen => by
    simp only [List.length_cons] at hlen
    have hscan := feedScan_spec s.cfg (s.slice c).buf b hinv
    have hstx' : byteAt ((s.slice c).buf ++ [b]) 0 = Config.stx := by
      cases hb : (s.slice c).buf <;> simp_all
    have hopen : (s.slice c).buf.length + 1 < s.cfg.rxLen := by omega
    simp only [hstx', ne_eq, not_true_eq_false, if_false, hopen, if_true] at hscan
    have hf : feedByte c b s = .next ((s.holding c ((s.slice c).buf ++ [b])).deliver [respDone]) := by
      rw [feedByte_of_scan hscan, feedDone_none]
    rw [feedAll_cons_next hf,
      feedAll_open bs _ (by simp [bufInv, hstx', hopen]) (by simpa using hstx) (by simp; omega)]
    simp only [deliver_slice, holding_slice_same, withBuf_buf, holding_deliver_holding, deliver_deliver,
      List.append_assoc, List.singleton_append]
    cases c <;> rfl

/-- A whole frame on an empty buffer is taken as one candidate (R207): DONE for each byte but the last, then the response
and the count of its outcome. -/
theorem feedAll_framed {c : Chan} {f : List Byte} {s : State} (hbuf : (s.slice c).buf = []) (hf : framed s.cfg f) :
    feedAll c f s = .next (feedDone c [] (some (candidateOutcome s.cfg f))
      ((s.holding c f.dropLast).deliver (List.replicate (f.length - 1) respDone))) := by
  obtain ⟨hlen, hstx, hetx⟩ := hf
  have hpos := rxLen_pos s.cfg
  have hne : f ≠ [] := by
    rintro rfl
    simp at hlen
    omega
  obtain ⟨g, e, rfl⟩ : ∃ g e, f = g ++ [e] := ⟨f.dropLast, f.getLast hne, (List.dropLast_append_getLast hne).symm⟩
  simp only [List.length_append, List.length_singleton, Nat.add_sub_cancel] at hlen hetx ⊢
  rw [byteAt_append_length] at hetx
  subst hetx
  rw [byteAt_append_left _ _ (by omega)] at hstx
  have hopen := feedAll_open (c := c) g s (.inl hbuf) (by simpa [hbuf] using hstx) (by simp [hbuf]; omega)
  rw [hbuf, List.nil_append] at hopen
  rw [feedAll_append hopen, List.dropLast_concat]
  have hscan := feedScan_spec s.cfg g Config.etx (.inr ⟨hstx, by omega⟩)
  have h1 : byteAt (g ++ [Config.etx]) 0 = Config.stx := by rw [byteAt_append_left _ _ (by omega), hstx]
  have h2 : ¬ g.length + 1 < s.cfg.rxLen := by omega
  simp only [h1, ne_eq, not_true_eq_false, if_false, h2, if_true] at hscan
  have hfeed : feedByte c Config.etx ((s.holding c g).deliver (List.replicate g.length respDone)) =
      .next (feedDone c [] (some (candidateOutcome s.cfg (g ++ [Config.etx])))
        ((s.holding c g).deliver (List.replicate g.length respDone))) :=
    feedByte_of_scan (by simpa using hscan)
  rw [feedAll_cons_next hfeed, feedAll_nil]

/-! ## What a run of FEEDs depends on -/

/-- A FEED depends on the configuration, its channel's slice and TS_IN alone: in a state that agrees on them it leaves the
same slice and delivers the same response. -/
theorem feedByte_congr {c : Chan} {b : Byte} {s t u : State} (h : feedByte c b s = .next t) (hcfg : u.cfg = s.cfg)
    (hslice : u.slice c = s.slice c) (hts : u.tsIn = s.tsIn) :
    ∃ v r, feedByte c b u = .next v ∧ v.slice c = t.slice c ∧ t.sent = s.sent ++ [r] ∧ v.sent = u.sent ++ [r] := by
  obtain ⟨buf, ev, hscan, rfl⟩ := feedByte_next h
  refine ⟨feedDone c buf ev u, respEvent s.cfg c ev, feedByte_of_scan (by rw [hcfg, hslice, hscan]), ?_, by simp, ?_⟩
  · simp [hslice, hts]
  · simp [hcfg]

/-- The same for a run of FEEDs. -/
theorem feedAll_congr {c : Chan} :
    ∀ (bs : List Byte) {s t u : State}, feedAll c bs s = .next t → u.cfg = s.cfg → u.slice c = s.slice c →
      u.tsIn = s.tsIn →
        ∃ v rs, feedAll c bs u = .next v ∧ v.slice c = t.slice c ∧ t.sent = s.sent ++ rs ∧ v.sent = u.sent ++ rs
  | [], s, t, u, h, _, hslice, _ => by
    simp only [feedAll, Host.Outcome.next.injEq] at h
    subst h
    exact ⟨u, [], rfl, hslice, by simp, by simp⟩
  | b :: bs, s, t, u, h, hcfg, hslice, hts => by
    obtain ⟨s', h1, h2⟩ := feedAll_cons_inv h
    obtain ⟨u', r, h3, h4, h5, h6⟩ := feedByte_congr h1 hcfg hslice hts
    have hs := feedByte_frame h1
    have hu := feedByte_frame h3
    obtain ⟨v, rs, h7, h8, h9, h10⟩ := feedAll_congr bs h2 (by rw [hu.1, hs.1, hcfg]) h4
      (by rw [hu.2.2.1, hs.2.2.1, hts])
    exact ⟨v, r :: rs, by rw [feedAll_cons_next h3, h7], h8, by simp [h9, h5], by simp [h10, h6]⟩

/-! ## Outcomes of framed bytes -/

/-- DECODE_FRAME of a framed candidate is a record or a checksum failure (42_field_decode.md R312). -/
theorem candidateOutcome_framed {cfg : Cfg} {f : List Byte} (hf : framed cfg f) :
    candidateOutcome cfg f =
      if cfg.cken = true ∧ cks f ≠ cksByte f then .checksumError (cks f) (cksByte f)
      else .record (cfgRecord cfg f) := by
  obtain ⟨hlen, hstx, hetx⟩ := hf
  have h1 : stxBad f = false := by simp [stxBad, hstx]
  have h2 : etxBad f = false := by simp [etxBad, hetx]
  have hl : f.length = frameLen cfg.rxdir cfg.ver := hlen
  unfold candidateOutcome decodeFrame
  simp only [hl, ne_eq, not_true_eq_false, if_false, h1, h2, Bool.or_self, Bool.false_eq_true, Bool.and_eq_true,
    bne_iff_ne]
  rfl

/-- A valid frame decodes to its record (40_frame_assembler.md R214). -/
theorem candidateOutcome_valid {cfg : Cfg} {f : List Byte} (hf : validFrame cfg f) :
    candidateOutcome cfg f = .record (cfgRecord cfg f) := by
  rw [candidateOutcome_framed hf.1, if_neg]
  rintro ⟨h1, h2⟩
  exact h2 (hf.2 h1)

end Sys2Proof.Machine
end

