-- ==== Sys2Proof/Laws/Stream.lean ====
section
/-! SUPPORT. The whole-sequence loop of 40_frame_assembler.md R213: bytes appended later change no pass already decided, fuel
beyond the buffer's length changes nothing, and one FEED's scan is a piece of the loop. -/

namespace Sys2Proof.Machine

/-- Bytes appended later change no pass that decides something (R213). -/
theorem scanStep_append (cfg : Cfg) (buf more : List Byte) :
    match scanStep cfg buf with
    | .stop => True
    | .drop rest => scanStep cfg (buf ++ more) = .drop (rest ++ more)
    | .event e rest => scanStep cfg (buf ++ more) = .event e (rest ++ more) := by
  have hpos := rxLen_pos cfg
  cases buf with
  | nil => trivial
  | cons b rest =>
    by_cases hb : b = Config.stx
    swap
    · rw [scanStep_drop cfg rest hb]
      exact scanStep_drop cfg _ hb
    subst hb
    by_cases hlen : rest.length + 1 < cfg.rxLen
    · rw [scanStep_open cfg rest hlen]
      trivial
    have hat : byteAt (Config.stx :: (rest ++ more)) (cfg.rxLen - 1) = byteAt (Config.stx :: rest) (cfg.rxLen - 1) := by
      rw [← List.cons_append, byteAt_append_left _ _ (by simp; omega)]
    by_cases he : byteAt (Config.stx :: rest) (cfg.rxLen - 1) = Config.etx
    · rw [scanStep_take cfg rest (by omega) he]
      simp only [List.cons_append]
      rw [scanStep_take cfg (rest ++ more) (by simp; omega) (hat.trans he), ← List.cons_append,
        List.take_append_of_le_length (by simp; omega), List.drop_append_of_le_length (by simp; omega)]
    · rw [scanStep_reject cfg rest (by omega) he]
      exact scanStep_reject cfg (rest ++ more) (by simp; omega) (by rw [hat]; exact he)

/-- One more unit of fuel is one pass of the loop. -/
theorem streamScan_succ (cfg : Cfg) (n : Nat) (buf : List Byte) :
    streamScan cfg (n + 1) buf =
      match scanStep cfg buf with
      | .stop => (buf, [])
      | .drop rest => streamScan cfg n rest
      | .event e rest => ((streamScan cfg n rest).1, e :: (streamScan cfg n rest).2) := by
  rfl

theorem streamScan_nil (cfg : Cfg) (n : Nat) : streamScan cfg n [] = ([], []) := by
  cases n <;> rfl

/-- The loop never lengthens its buffer. -/
theorem streamScan_length (cfg : Cfg) : ∀ (n : Nat) (buf : List Byte), (streamScan cfg n buf).1.length ≤ buf.length
  | 0, _ => Nat.le_refl _
  | n + 1, buf => by
    have hl := scanStep_shortens cfg buf
    rw [streamScan_succ]
    cases hs : scanStep cfg buf with
    | stop => simp
    | drop rest =>
      simp only [hs] at hl ⊢
      exact (streamScan_length cfg n rest).trans hl.le
    | event e rest =>
      simp only [hs] at hl ⊢
      exact (streamScan_length cfg n rest).trans hl.le

/-- Fuel beyond the buffer's length changes nothing. -/
theorem streamScan_fuel (cfg : Cfg) :
    ∀ (n m : Nat) (buf : List Byte), buf.length ≤ n → buf.length ≤ m → streamScan cfg n buf = streamScan cfg m buf
  | 0, m, buf, hn, _ => by
    obtain rfl := List.length_eq_zero_iff.mp (Nat.le_zero.mp hn)
    rw [streamScan_nil, streamScan_nil]
  | n + 1, 0, buf, _, hm => by
    obtain rfl := List.length_eq_zero_iff.mp (Nat.le_zero.mp hm)
    rw [streamScan_nil, streamScan_nil]
  | n + 1, m + 1, buf, hn, hm => by
    have hl := scanStep_shortens cfg buf
    rw [streamScan_succ, streamScan_succ]
    cases hs : scanStep cfg buf with
    | stop => rfl
    | drop rest =>
      simp only [hs] at hl ⊢
      exact streamScan_fuel cfg n m rest (by omega) (by omega)
    | event e rest =>
      simp only [hs] at hl ⊢
      rw [streamScan_fuel cfg n m rest (by omega) (by omega)]

/-- The loop over a sequence is the loop over its first part, then over what that left with the second part behind it. -/
theorem streamScan_append (cfg : Cfg) (more : List Byte) :
    ∀ (n m k : Nat) (buf : List Byte), buf.length ≤ n → buf.length + more.length ≤ m → buf.length + more.length ≤ k →
      streamScan cfg m (buf ++ more) =
        ((streamScan cfg k ((streamScan cfg n buf).1 ++ more)).1,
          (streamScan cfg n buf).2 ++ (streamScan cfg k ((streamScan cfg n buf).1 ++ more)).2)
  | 0, m, k, buf, hn, hm, hk => by
    obtain rfl := List.length_eq_zero_iff.mp (Nat.le_zero.mp hn)
    simp only [streamScan_nil, List.nil_append]
    exact streamScan_fuel cfg m k more (by simpa using hm) (by simpa using hk)
  | n + 1, m, k, buf, hn, hm, hk => by
    have ha := scanStep_append cfg buf more
    have hl := scanStep_shortens cfg buf
    rw [streamScan_succ cfg n]
    cases hs : scanStep cfg buf with
    | stop => exact streamScan_fuel cfg m k _ (by simpa using hm) (by simpa using hk)
    | drop rest =>
      simp only [hs] at ha hl ⊢
      obtain ⟨m, rfl⟩ : ∃ m', m = m' + 1 := ⟨m - 1, by omega⟩
      rw [streamScan_succ]
      simp only [ha]
      exact streamScan_append cfg more n m k rest (by omega) (by omega) (by omega)
    | event e rest =>
      simp only [hs] at ha hl ⊢
      obtain ⟨m, rfl⟩ : ∃ m', m = m' + 1 := ⟨m - 1, by omega⟩
      rw [streamScan_succ]
      simp only [ha]
      rw [streamScan_append cfg more n m k rest (by omega) (by omega) (by omega)]
      rfl

/-- A scan that completes is the loop, its event the loop's events. -/
theorem scan_stream (cfg : Cfg) :
    ∀ (n : Nat) (buf : List Byte) (ev : Option FrameOutcome) (buf' : List Byte) (ev' : Option FrameOutcome),
      scan cfg n buf ev = .ok (buf', ev') →
        (streamScan cfg n buf).1 = buf' ∧ ev'.toList = ev.toList ++ (streamScan cfg n buf).2
  | 0, buf, ev, buf', ev', h => by
    simp only [scan, Except.ok.injEq, Prod.mk.injEq] at h
    obtain ⟨rfl, rfl⟩ := h
    simp [streamScan]
  | n + 1, buf, ev, buf', ev', h => by
    rw [scan.eq_def] at h
    rw [streamScan_succ]
    cases hs : scanStep cfg buf with
    | stop =>
      simp only [hs, Except.ok.injEq, Prod.mk.injEq] at h
      obtain ⟨rfl, rfl⟩ := h
      simp
    | drop rest =>
      simp only [hs] at h ⊢
      exact scan_stream cfg n rest ev buf' ev' h
    | event e rest =>
      cases ev with
      | none =>
        simp only [hs] at h ⊢
        simpa using scan_stream cfg n rest (some e) buf' ev' h
      | some e0 => simp [hs] at h

/-- One FEED's scan and the loop: the FEED's event is the first of the sequence, the rest comes from the buffer it left. -/
theorem feedScan_stream {cfg : Cfg} {buf buf' : List Byte} {b : Byte} {ev : Option FrameOutcome}
    (h : feedScan cfg buf b = .ok (buf', ev)) (bs : List Byte) :
    streamFeed cfg buf (b :: bs) = ((streamFeed cfg buf' bs).1, ev.toList ++ (streamFeed cfg buf' bs).2) := by
  have h1 := scan_stream cfg _ _ _ _ _ h
  simp only [Option.toList_none, List.nil_append] at h1
  have hle := streamScan_length cfg (buf.length + 1) (buf ++ [b])
  rw [h1.1] at hle
  have happ := streamScan_append cfg bs (buf.length + 1) (buf.length + (b :: bs).length) (buf.length + 1 + bs.length)
    (buf ++ [b]) (by simp) (by simp; omega) (by simp)
  simp only [List.append_assoc, List.singleton_append] at happ
  simp only [List.length_append, List.length_singleton] at hle
  unfold streamFeed
  rw [happ, h1.1, ← h1.2,
    streamScan_fuel cfg _ (buf'.length + bs.length) (buf' ++ bs) (by simp; omega) (by simp)]

/-- On a buffer that meets R211 and no further byte the loop does nothing. -/
theorem streamFeed_nil {cfg : Cfg} {buf : List Byte} (h : bufInv cfg.rxLen buf) : streamFeed cfg buf [] = (buf, []) := by
  unfold streamFeed
  rcases h with rfl | ⟨h1, h2⟩
  · rfl
  · cases buf with
    | nil => rfl
    | cons a rest =>
      obtain rfl : a = Config.stx := h1
      simp [streamScan_succ, scanStep_open cfg rest (by simpa using h2)]

end Sys2Proof.Machine
end

