-- ==== Sys2Proof/Tests/Slice0.lean ====
section
/-! SUPPORT. The model's own tests, each a named theorem. Expected words and values come from spec/95_test_vectors.md (named in
each docstring) or are written out from the encodings of 30_encoding.md. The theorems `witness_…` show, for every statement of
Certificates/Slice0/Obligations.lean that has hypotheses, concrete operands and states that meet them together. -/

namespace Sys2Proof.Tests

open Sys2Proof.Machine

/-! ## Helpers -/

/-- The next state of an answer, if it is one. -/
def nextOf (r : Result) : Option State :=
  match r with
  | .next t => some t
  | .fault _ => none
  | .refused _ => none

/-- The responses delivered in the next state of an answer. -/
def sentOf (r : Result) : Option (List (List Word)) :=
  (nextOf r).map (·.sent)

/-- What is in a channel slice after an answer. -/
def sliceOf (c : Chan) (r : Result) : Option Slice :=
  (nextOf r).map (·.slice c)

/-- The reset state with a configuration and TS_IN 100, as spec/95_test_vectors.md 2.1 starts. -/
def start (ver : Version) (cken : Bool) (rxdir : Direction) : State :=
  { State.reset with cfg := { ver := ver, cken := cken, rxdir := rxdir }, tsIn := 100#32 }

/-- `start` with bytes in the buffer of channel 0. -/
def holding0 (ver : Version) (cken : Bool) (rxdir : Direction) (buf : List Byte) : State :=
  { start ver cken rxdir with ch0 := { Slice.reset with buf := buf } }

/-- The first six bytes of the frame of V-ASM-1. -/
def sysvHead : List Byte := [0x02#8, 0x00#8, 0x0B#8, 0xB8#8, 0x00#8, 0xC3#8]

/-- The frame of V-ASM-1. -/
def sysvFrame : List Byte := sysvHead ++ [0x03#8]

/-- The frame of V-DEC-17. -/
def cmdFrame : List Byte := [0x02#8, 0x05#8, 0x00#8, 0x64#8, 0x00#8, 0x32#8, 0x83#8, 0x20#8, 0x3E#8, 0x03#8]

/-- The reset state with one transaction to come. -/
def offered (p : PortInput) : State := { State.reset with inputs := [p] }

/-! ## WellFormed refuses what is ill formed -/

/-- DECODE carries at most 255 bytes (R153). -/
theorem test_wf_refuses_decode_of_256_bytes : (Instr.decode .m2s .v1 (List.replicate 256 0#8)).wf = false := by
  rw [Instr.wf, List.length_replicate]
  decide

/-- Opcodes 1 and 9 are not reserved (R151). -/
theorem test_wf_refuses_reserved_opcode_1 : (Instr.reserved 0x1#4 0#28).wf = false := by decide

theorem test_wf_refuses_reserved_opcode_9 : (Instr.reserved 0x9#4 5#28).wf = false := by decide

/-- A slave frame has no ID 0 (R183, R304). -/
theorem test_wf_refuses_slave_id_0 : (Instr.frameSlave 0#5 1#3 0#16 0#8 0#8).wf = false := by decide

/-! ## Decoding, on words written out from R152 to R157 and R183 -/

theorem test_decode_feed : decodeTableWord 32 0x1800007F = some (.feed .ch1 0x7F#8) := by decide

/-- V-DEC-1: the first word is the low 32 bits of the number. -/
theorem test_decode_decode :
    decode (.words [0x22000007#32, 0x02000BB8#32, 0x00C30300#32]) = .ok (.decode .m2s .v2 sysvFrame) := by rfl

/-- LEN 5 with no bits for the operand words: two words of zeros. -/
theorem test_decode_decode_zero_operands :
    decodeTableWord 32 0x24000005 = some (.decode .s2m .v1 [0#8, 0#8, 0#8, 0#8, 0#8]) := by decide

/-- V-ENC-2. -/
theorem test_decode_encode :
    decodeTableWord 128 0xFFFFFCE0000000320000006432000005 =
      some (.encode .v2 2#2 true 100#32 50#32 0xFFFFFCE0#32) := by decide

theorem test_decode_reset_asm : decodeTableWord 32 0x40000000 = some (.resetAsm .ch0) := by decide
theorem test_decode_reset_stats : decodeTableWord 32 0x58000000 = some (.resetStats .ch1) := by decide
theorem test_decode_reset_ch : decodeTableWord 32 0x60000000 = some (.resetCh .ch0) := by decide
theorem test_decode_read_stats : decodeTableWord 32 0x78000000 = some (.readStats .ch1) := by decide

/-- V-CFG-2. -/
theorem test_decode_write_cfg : decodeTableWord 32 0x80000004 = some (.writeCfg .s2m false .v1) := by decide
theorem test_decode_read_cfg : decodeTableWord 32 0x90000000 = some .readCfg := by decide

/-- V-ILL-4. -/
theorem test_decode_reserved : decodeTableWord 32 0xFFFFFFFF = some (.reserved 0xF#4 0xFFFFFFF#28) := by decide

/-- The bytes of V-DEC-4, the first byte lowest. -/
theorem test_decode_frame_sysv :
    decodeTableWord 56 0x032FAA00800502 = some (.frameSysv 1#1 1#2 0x8000#16 0xAA#8 0x2F#8) := by decide

/-- The bytes of V-DEC-9. -/
theorem test_decode_frame_slave :
    decodeTableWord 56 0x039AFF2083F802 = some (.frameSlave 31#5 0#3 0x8320#16 0xFF#8 0x9A#8) := by decide

/-- The bytes of V-DEC-14. -/
theorem test_decode_frame_cmd_v1 :
    decodeTableWord 72 0x037DB0D4FEFBFF0102 = some (.frameCmdV1 0#7 true 0xFFFB#16 0xFED4#16 0xB0#8 0x7D#8) := by decide

/-- The bytes of V-DEC-17. -/
theorem test_decode_frame_cmd_v2 :
    decodeTableWord 80 0x033E2083320064000502 =
      some (.frameCmdV2 0#5 2#2 true 0x0064#16 0x0032#16 0x8320#16 0x3E#8) := by decide

/-- V-ILL-7: reserved bits are checked before the length (R181). -/
theorem test_decode_refuses_bits_before_length :
    decode (.words [0x10000100#32, 0#32]) = .error .reservedBits := by rfl

/-- V-ILL-10: a DECODE of no bytes has no operand word. -/
theorem test_decode_refuses_extra_word : decode (.words [0x22000000#32, 0#32]) = .error .badLength := by rfl

/-- A reserved opcode with more words behind it is refused for its opcode. -/
theorem test_decode_refuses_long_reserved : decode (.words [0xA0000000#32, 0#32]) = .error .reservedOpcode := by rfl

/-- A seven-byte run without its ETX is no frame (R183). -/
theorem test_decode_refuses_bytes_without_etx : decode (.bytes (sysvHead ++ [0x04#8])) = .error .notAFrame := by rfl

/-- The step after `withFetchWord` runs exactly the word's instruction: READ_CFG after reset gives V-CFG-1. -/
theorem test_withFetchWord_runs_command :
    sentOf (step (State.reset.withFetchWord 32 0x90000000)) = some [[0x90000003#32]] := by decide

/-- The same for a wire frame: the bytes of V-ASM-1 count one good frame, those of V-ASM-5 none. -/
theorem test_withFetchWord_runs_frame :
    (sliceOf .ch0 (step (State.reset.withFetchWord 56 0x03C700B80B0002))).map (·.ok) = some 0#32 ∧
      (sliceOf .ch0 (step (State.reset.withFetchWord 56 0x03C300B80B0002))).map (·.ok) = some 1#32 := by decide

/-! ## FEED and RESET_ASM (spec/95_test_vectors.md 2.1) -/

/-- V-ASM-1, its last byte. -/
theorem test_feed_takes_frame :
    sentOf (exec (.feed .ch0 0x03#8) (holding0 .v2 true .m2s sysvHead)) =
        some [[0x14000BB8#32, 0x00000BB8#32, 0x00000000#32]] ∧
      sliceOf .ch0 (exec (.feed .ch0 0x03#8) (holding0 .v2 true .m2s sysvHead)) =
        some { Slice.reset with ok := 1#32, lastTs := 100#32, seen := true } := by decide

/-- V-ASM-12, the seventh byte: MALFORMED, and the rescan keeps `02 00 0B B8`. -/
theorem test_feed_rejects_and_rescans :
    sentOf (exec (.feed .ch0 0xB8#8) (holding0 .v2 true .m2s [0x02#8, 0x11#8, 0x22#8, 0x02#8, 0x00#8, 0x0B#8])) =
        some [[0x54000712#32]] ∧
      sliceOf .ch0
          (exec (.feed .ch0 0xB8#8) (holding0 .v2 true .m2s [0x02#8, 0x11#8, 0x22#8, 0x02#8, 0x00#8, 0x0B#8])) =
        some { Slice.reset with buf := [0x02#8, 0x00#8, 0x0B#8, 0xB8#8], mal := 1#32 } := by decide

/-- V-STA-3, the last byte: MALFORMED with CH 1, `mal` stays at its last value and `last_ts` is not written. -/
theorem test_feed_malformed_on_channel_1 :
    sentOf (exec (.feed .ch1 0x04#8)
        { start .v2 true .m2s with ch1 := { Slice.reset with buf := sysvHead, mal := 0xFFFFFFFF#32 } }) =
        some [[0x5C000712#32]] ∧
      sliceOf .ch1 (exec (.feed .ch1 0x04#8)
          { start .v2 true .m2s with ch1 := { Slice.reset with buf := sysvHead, mal := 0xFFFFFFFF#32 } }) =
        some { Slice.reset with mal := 0xFFFFFFFF#32 } := by decide

/-- P4, command 7, its last byte: CKFAIL with CH 1. -/
theorem test_feed_checksum_failure_on_channel_1 :
    sentOf (exec (.feed .ch1 0x03#8)
        { start .v2 true .m2s with
          ch1 := { Slice.reset with buf := [0x02#8, 0x29#8, 0xE0#8, 0xC0#8, 0x32#8, 0x26#8] } }) =
      some [[0x4C00FB26#32]] := by decide

/-- V-ASM-13. -/
theorem test_reset_asm :
    sliceOf .ch0 (exec (.resetAsm .ch0) (holding0 .v2 true .m2s [0x02#8, 0x80#8])) = some Slice.reset ∧
      sentOf (exec (.resetAsm .ch0) (holding0 .v2 true .m2s [0x02#8, 0x80#8])) = some [[0#32]] := by decide

/-! ## DECODE and ENCODE (2.2, 2.3, 2.4) -/

/-- V-DEC-9: a slave frame, center-offset current. -/
theorem test_decode_slave_v2 :
    sentOf (exec (.decode .m2s .v2 [0x02#8, 0xF8#8, 0x83#8, 0x20#8, 0xFF#8, 0x9A#8, 0x03#8]) State.reset) =
      some [[0x24F88320#32, 0x00000320#32, 0x000000FF#32]] := by decide

/-- V-DEC-18: a V2 command frame with a negative current. -/
theorem test_decode_cmd_v2 :
    sentOf (exec (.decode .s2m .v2
        [0x02#8, 0x05#8, 0x00#8, 0x64#8, 0x00#8, 0x32#8, 0x7C#8, 0xE0#8, 0xF7#8, 0x03#8]) State.reset) =
      some [[0x37400005#32, 0x00000064#32, 0x00000032#32, 0xFFFFFCE0#32, 0x00007CE0#32]] := by decide

/-- V-ENC-3. -/
theorem test_encode_v1 :
    sentOf (exec (.encode .v1 0#2 true 0xFFFFFFFB#32 0xFFFFFED4#32 0xFFFFFFB0#32) State.reset) =
      some [[0x60000009#32, 0x0201FFFB#32, 0xFED4B07D#32, 0x03000000#32]] := by decide

/-- V-ENC-20: MAXV is reported before CUR. -/
theorem test_encode_range_error :
    sentOf (exec (.encode .v1 0#2 false 40000#32 0#32 200#32) State.reset) = some [[0x70000002#32]] := by decide

/-! ## Statistics (2.5) -/

/-- V-STA-6: RESET_STATS keeps the partial frame. -/
theorem test_reset_stats_keeps_buffer :
    sliceOf .ch0 (exec (.resetStats .ch0)
        { State.reset with ch0 := { Slice.reset with buf := [0x02#8, 0x00#8, 0x0B#8], ok := 2#32, seen := true } }) =
      some { Slice.reset with buf := [0x02#8, 0x00#8, 0x0B#8] } := by decide

/-- V-STA-5. -/
theorem test_reset_ch_clears_all :
    sliceOf .ch0 (exec (.resetCh .ch0) (holding0 .v2 true .m2s [0x02#8, 0x00#8, 0x0B#8])) = some Slice.reset := by decide

/-- P1, command 7. -/
theorem test_read_stats :
    sentOf (exec (.readStats .ch0)
        { State.reset with ch0 := { buf := [], ok := 3#32, ckf := 1#32, mal := 1#32, lastTs := 50#32, seen := true } }) =
      some [[0x84000000#32, 3#32, 1#32, 1#32, 50#32]] := by decide

/-- V-STA-2: `ok` saturates. -/
theorem test_ok_saturates : satInc 0xFFFFFFFF#32 = 0xFFFFFFFF#32 ∧ satInc 0xFFFFFFFE#32 = 0xFFFFFFFF#32 := by decide

/-- V-RATE-3 and V-RATE-5. -/
theorem test_error_rate : errorRate 3#32 1#32 = mkRat 1 4 ∧ errorRate 0xFFFFFFFF#32 0xFFFFFFFF#32 = mkRat 1 2 := by
  constructor <;> rfl

/-! ## Configuration (2.6) -/

/-- V-CFG-3: a change of `cken` alone keeps the buffers. -/
theorem test_write_cfg_keeps_buffers :
    sliceOf .ch0 (exec (.writeCfg .m2s false .v2) (holding0 .v2 true .m2s [0x02#8, 0x00#8, 0x0B#8])) =
      some { Slice.reset with buf := [0x02#8, 0x00#8, 0x0B#8] } := by decide

/-- V-CFG-4: a change of the version empties them. -/
theorem test_write_cfg_empties_buffers :
    sliceOf .ch0 (exec (.writeCfg .m2s false .v1) (holding0 .v2 false .m2s [0x02#8, 0x00#8, 0x0B#8])) =
      some Slice.reset := by decide

/-- V-CFG-2, its READ_CFG. -/
theorem test_read_cfg : sentOf (exec .readCfg (start .v1 false .s2m)) = some [[0x90000004#32]] := by decide

/-! ## Refused commands (2.7) -/

/-- V-ILL-3. -/
theorem test_reserved_opcode : sentOf (step (offered (.command [0xA0000000#32] 0#32))) = some [[0xF0000001#32]] := by
  decide

/-- V-ILL-1 and V-ILL-11. -/
theorem test_bad_length :
    sentOf (step (offered (.command [] 0#32))) = some [[0xF0000003#32]] ∧
      sentOf (step (offered (.command [0x32000000#32, 0#32, 0#32] 0#32))) = some [[0xF0000003#32]] := by decide

/-! ## Wire frames, and runs that are no whole frame -/

/-- V-ASM-5 as one run on link 0: CKFAIL after six DONE. -/
theorem test_frame_sysv_checksum_failure :
    sentOf (exec (.frameSysv 0#1 0#2 0x0BB8#16 0x00#8 0xC7#8) (start .v2 true .m2s)) =
      some (List.replicate 6 [0#32] ++ [[0x4400C3C7#32]]) := by decide

/-- V-ASM-11, its second frame. -/
theorem test_frame_slave :
    sentOf (exec (.frameSlave 5#5 1#3 0xE0C0#16 0x32#8 0xFB#8) (start .v2 true .m2s)) =
      some (List.replicate 6 [0#32] ++ [[0x2629E0C0#32, 0x000060C0#32, 0x00000032#32]]) := by decide

/-- V-ASM-10, on link 1. -/
theorem test_frame_cmd_v1 :
    sentOf (exec (.frameCmdV1 0#7 true 0xFFFB#16 0xFED4#16 0xB0#8 0x7D#8)
        { start .v1 true .s2m with rxLink := .ch1 }) =
      some (List.replicate 8 [0#32] ++
        [[0x38400001#32, 0xFFFFFFFB#32, 0xFFFFFED4#32, 0xFFFFFFB0#32, 0x000000B0#32]]) := by decide

/-- V-ASM-9, on link 1. -/
theorem test_frame_cmd_v2 :
    sentOf (exec (.frameCmdV2 0#5 2#2 true 0x0064#16 0x0032#16 0x8320#16 0x3E#8)
        { start .v2 true .s2m with rxLink := .ch1 }) =
      some (List.replicate 9 [0#32] ++
        [[0x3F400005#32, 0x00000064#32, 0x00000032#32, 0x00000320#32, 0x00008320#32]]) := by decide

/-- V-ASM-2: garbage on the wire. -/
theorem test_stray_bytes :
    sentOf (step { start .v2 true .m2s with inputs := [.wire .ch0 [0xFF#8, 0x55#8, 0x03#8, 0x00#8] 100#32] }) =
      some (List.replicate 4 [0#32]) := by decide

/-- R600: a reset abandons a command, sends no response and keeps none of the state. -/
theorem test_reset_pulse :
    sentOf (step { holding0 .v1 false .s2m [0x02#8] with inputs := [.rst (some [0x90000000#32])] }) = some [] ∧
      sliceOf .ch0 (step { holding0 .v1 false .s2m [0x02#8] with inputs := [.rst none] }) = some Slice.reset := by decide

/-! ## The assembler (30_encoding.md R188, R189) -/

/-- V-ENC-2 as a line of text. -/
theorem test_assemble_encode :
    assembleText "ENCODE v2, start=1, mode=2, maxv=100, minv=50, cur=-800".toList =
      some [[0x32000005#32, 100#32, 50#32, 0xFFFFFCE0#32]] := by rfl

/-- The FEEDS of V-ASM-13. -/
theorem test_assemble_feeds :
    assembleText "FEEDS ch1, 02 80".toList = some [[0x18000002#32], [0x18000080#32]] := by rfl

/-- A DECODE line (V-DEC-23), with a comment. -/
theorem test_assemble_decode :
    assembleText "DECODE m2s, v2, [02 00 0B B8 00 03] ; six bytes".toList =
      some [[0x22000006#32, 0x02000BB8#32, 0x00030000#32]] := by rfl

/-! ## Witnesses: what meets the hypotheses of each statement -/

/-- DecodeOfEncode: the longest DECODE, the reserved opcodes at their bounds, the slave IDs at theirs. -/
theorem witness_DecodeOfEncode :
    (Instr.decode .s2m .v2 (List.replicate 255 0xAA#8)).wf = true ∧ (Instr.decode .m2s .v1 []).wf = true ∧
      (Instr.reserved 0x0#4 1#28).wf = true ∧ (Instr.reserved 0xA#4 0#28).wf = true ∧
      (Instr.reserved 0xF#4 0xFFFFFFF#28).wf = true ∧ (Instr.frameSlave 1#5 7#3 1#16 2#8 3#8).wf = true ∧
      (Instr.frameSlave 31#5 0#3 1#16 2#8 3#8).wf = true := by
  refine ⟨?_, rfl, rfl, rfl, rfl, rfl, rfl⟩
  rw [Instr.wf, List.length_replicate]
  decide

/-- EncodeOfDecode: a DECODE of one byte with padding that is not 0, and an instruction that is no DECODE. -/
theorem witness_EncodeOfDecode :
    decode (.words [0x22000001#32, 0x02ABCDEF#32]) = .ok (.decode .m2s .v2 [0x02#8]) ∧
      decode (.words [0x18000003#32]) = .ok (.feed .ch1 0x03#8) := ⟨rfl, rfl⟩

/-- DecodedIsWellFormed: one code for each check of `Instr.wf`. -/
theorem witness_DecodedIsWellFormed :
    decode (.words [0x22000001#32, 0x02ABCDEF#32]) = .ok (.decode .m2s .v2 [0x02#8]) ∧
      decode (.words [0xF0000000#32]) = .ok (.reserved 0xF#4 0#28) ∧
      decode (.bytes [0x02#8, 0x08#8, 0#8, 0#8, 0#8, 0x08#8, 0x03#8]) = .ok (.frameSlave 1#5 0#3 0#16 0#8 0x08#8) :=
  ⟨rfl, rfl, rfl⟩

/-- CommandsValidatedInOrder: a pending command that is refused, for each reason, and one that is not. -/
theorem witness_CommandsValidatedInOrder :
    (offered (.command [0x00000000#32] 7#32)).inputs = .command [0x00000000#32] 7#32 :: [] ∧
      illegalReason [0x00000000#32] = some 1 ∧ illegalReason [0xA0000001#32, 0#32] = some 1 ∧
      illegalReason [0x10000100#32, 0#32] = some 2 ∧ illegalReason [] = some 3 ∧
      illegalReason [0x22000005#32, 0#32] = some 3 ∧ illegalReason [0x90000000#32] = none ∧
      illegalReason [0x22000005#32, 0#32, 0#32] = none := ⟨rfl, rfl, rfl, rfl, rfl, rfl, rfl, rfl⟩

/-- ReservedOpcodesRefused: 0, 10 and 15 are reserved. -/
theorem witness_ReservedOpcodesRefused :
    ((0x0#4).toNat = 0 ∨ 10 ≤ (0x0#4).toNat) ∧ ((0xA#4).toNat = 0 ∨ 10 ≤ (0xA#4).toNat) ∧
      ((0xF#4).toNat = 0 ∨ 10 ≤ (0xF#4).toNat) := by decide

/-- StepRunsDecodedInstruction: a command and a wire frame. -/
theorem witness_StepRunsDecodedInstruction :
    (offered (.command [0x48000000#32] 5#32)).inputs = .command [0x48000000#32] 5#32 :: [] ∧
      decode (.words [0x48000000#32]) = .ok (.resetAsm .ch1) ∧
      (offered (.wire .ch1 sysvFrame 5#32)).inputs = .wire .ch1 sysvFrame 5#32 :: [] ∧
      decode (.bytes sysvFrame) = .ok (.frameSysv 0#1 0#2 0x0BB8#16 0#8 0xC3#8) := ⟨rfl, rfl, rfl, rfl⟩

/-- ResetPulseRestoresPowerOnState: a pulse that interrupts a command. -/
theorem witness_ResetPulseRestoresPowerOnState :
    (offered (.rst (some [0x90000000#32]))).inputs = .rst (some [0x90000000#32]) :: [] := rfl

/-- A state with an open candidate on channel 0 and its last byte to come. -/
def oneByteToGo : State :=
  { holding0 .v2 true .m2s sysvHead with inputs := [.command [0x10000003#32] 9#32] }

/-- InvariantKeptByStep and StepAlwaysCompletes. -/
theorem witness_InvariantKeptByStep : Inv oneByteToGo ∧ Completes (step oneByteToGo) :=
  ⟨by decide, _, rfl⟩

theorem witness_StepAlwaysCompletes : AsmInv oneByteToGo := by decide

/-- CountersNeverDecrease: a step that is neither a reset nor a clear of channel 0. -/
theorem witness_CountersNeverDecrease :
    Completes (step oneByteToGo) ∧ (∀ d rest, oneByteToGo.inputs ≠ .rst d :: rest) ∧
      ∀ ws ts rest, oneByteToGo.inputs = .command ws ts :: rest →
        decode (.words ws) ≠ .ok (.resetStats .ch0) ∧ decode (.words ws) ≠ .ok (.resetCh .ch0) := by
  refine ⟨⟨_, rfl⟩, fun d rest => by simp [oneByteToGo], ?_⟩
  intro ws ts rest h
  simp only [oneByteToGo, List.cons.injEq, PortInput.command.injEq] at h
  rw [← h.1.1]
  constructor <;> (intro h2; injection h2 with h3; injection h3)

/-- OnlyWriteCfgChangesCfg. -/
theorem witness_OnlyWriteCfgChangesCfg :
    Completes (exec (.feed .ch0 0x03#8) oneByteToGo) ∧
      ∀ rxdir cken ver, Instr.feed .ch0 0x03#8 ≠ .writeCfg rxdir cken ver :=
  ⟨⟨_, rfl⟩, fun _ _ _ h => nomatch h⟩

/-- OnlyFeedsCount: an instruction that keeps the counts and one that clears them. -/
theorem witness_OnlyFeedsCount :
    Completes (exec (.resetAsm .ch0) oneByteToGo) ∧ Completes (exec (.resetStats .ch0) oneByteToGo) :=
  ⟨⟨_, rfl⟩, _, rfl⟩

/-- SiblingChannelUntouched, at both channels. -/
theorem witness_SiblingChannelUntouched :
    channelOf (.feed .ch0 0x03#8) = some .ch0 ∧ Completes (exec (.feed .ch0 0x03#8) oneByteToGo) ∧ Chan.ch1 ≠ .ch0 ∧
      channelOf (.resetCh .ch1) = some .ch1 ∧ Completes (exec (.resetCh .ch1) oneByteToGo) ∧ Chan.ch0 ≠ .ch1 :=
  ⟨rfl, ⟨_, rfl⟩, by decide, rfl, ⟨_, rfl⟩, by decide⟩

/-- OneResponsePerCommand. -/
theorem witness_OneResponsePerCommand :
    Completes (exec (.feed .ch0 0x03#8) oneByteToGo) ∧ Completes (exec (.readStats .ch1) oneByteToGo) :=
  ⟨⟨_, rfl⟩, _, rfl⟩

/-- TimestampReadOnlyByCandidates: a FEED answered DONE, one answered MALFORMED, and another command. -/
theorem witness_TimestampReadOnlyByCandidates :
    (∃ t, exec (.feed .ch1 0x02#8) oneByteToGo = .next t ∧ t.sent = oneByteToGo.sent ++ [[0#32]] ∧
        rcode [0#32] = 0x0#4) ∧
      (∃ t, exec (.feed .ch0 0x04#8) oneByteToGo = .next t ∧ t.sent = oneByteToGo.sent ++ [[0x54000712#32]] ∧
        rcode [0x54000712#32] = 0x5#4) ∧
      Completes (exec (.readCfg) oneByteToGo) :=
  ⟨⟨_, rfl, rfl, rfl⟩, ⟨_, rfl, rfl, rfl⟩, _, rfl⟩

/-- ChannelCommandsCommute. -/
theorem witness_ChannelCommandsCommute :
    channelOf (.feed .ch0 0x03#8) = some .ch0 ∧ channelOf (.readStats .ch1) = some .ch1 ∧ Chan.ch0 ≠ .ch1 ∧
      AsmInv oneByteToGo := by
  refine ⟨rfl, rfl, ?_, ?_⟩ <;> decide

/-- ReadersCommute: DECODE against FEED, ENCODE against WRITE_CFG. -/
theorem witness_ReadersCommute :
    (Completes (exec (.feed .ch0 0x03#8) oneByteToGo) ∧
        ∀ rxdir cken ver, Instr.feed .ch0 0x03#8 ≠ .writeCfg rxdir cken ver) ∧
      Completes (exec (.writeCfg .s2m false .v1) oneByteToGo) :=
  ⟨⟨⟨_, rfl⟩, fun _ _ _ h => nomatch h⟩, _, rfl⟩

/-- FeedResult: the four cases at their bounds; the buffer one byte short of an open candidate's last, and of a full frame. -/
theorem witness_FeedResult :
    (∀ s ∈ [start .v2 true .m2s, holding0 .v2 true .m2s (sysvHead.take 5), holding0 .v2 true .m2s sysvHead,
        holding0 .v2 true .s2m (cmdFrame.take 9)], bufInv s.cfg.rxLen (s.slice .ch0).buf) ∧
      (((start .v2 true .m2s).slice .ch0).buf = [] ∧ (0x03#8 : Byte) ≠ Config.stx) ∧
      (sysvHead.take 5).length + 1 < (start .v2 true .m2s).cfg.rxLen ∧
      ¬ sysvHead.length + 1 < (start .v2 true .m2s).cfg.rxLen ∧
      ¬ (cmdFrame.take 9).length + 1 < (start .v2 true .s2m).cfg.rxLen := by decide

/-- CandidateMatchesDecode: a frame that passes, and one that fails its checksum. -/
theorem witness_CandidateMatchesDecode :
    framed (holding0 .v2 true .m2s sysvHead).cfg sysvFrame ∧
      ((holding0 .v2 true .m2s sysvHead).slice .ch0).buf = sysvFrame.dropLast ∧
      decodeFrame sysvFrame .m2s .v2 true = .record (.sysv 0#2 0#8 0x0BB8#16 3000 0#8) ∧
      framed (holding0 .v2 true .m2s (sysvHead.set 5 0xC7#8)).cfg (sysvFrame.set 5 0xC7#8) ∧
      ((holding0 .v2 true .m2s (sysvHead.set 5 0xC7#8)).slice .ch0).buf = (sysvFrame.set 5 0xC7#8).dropLast ∧
      decodeFrame (sysvFrame.set 5 0xC7#8) .m2s .v2 true = .checksumError 0xC3#8 0xC7#8 := by decide

/-- FeedSeriesEqualsLoop. -/
theorem witness_FeedSeriesEqualsLoop : bufInv oneByteToGo.cfg.rxLen (oneByteToGo.slice .ch0).buf := by decide

/-- GarbageResilience: noise, a frame, noise, a frame, noise. -/
theorem witness_GarbageResilience :
    ((start .v2 true .m2s).slice .ch0).buf = [] ∧
      (∀ p ∈ [([0x11#8], sysvFrame), ([0x22#8, 0x33#8], [0x02#8, 0x29#8, 0xE0#8, 0xC0#8, 0x32#8, 0xFB#8, 0x03#8])],
        noStx p.1 ∧ validFrame (start .v2 true .m2s).cfg p.2) ∧ noStx [0x03#8] := by decide

/-- FalseStxThenFrameFound: no noise (V-ASM-7) and two bytes of it (V-ASM-12). -/
theorem witness_FalseStxThenFrameFound :
    ((start .v2 true .m2s).slice .ch0).buf = [] ∧ noStx ([] : List Byte) ∧ noStx [0x11#8, 0x22#8] ∧
      validFrame (start .v2 true .m2s).cfg sysvFrame ∧
      byteAt (Config.stx :: ([] ++ sysvFrame)) ((start .v2 true .m2s).cfg.rxLen - 1) ≠ Config.etx ∧
      byteAt (Config.stx :: ([0x11#8, 0x22#8] ++ sysvFrame)) ((start .v2 true .m2s).cfg.rxLen - 1) ≠ Config.etx := by
  decide

/-- A state whose counters are 7 below saturation. -/
def almostSaturated : State :=
  { start .v2 true .m2s with ch0 := { Slice.reset with ok := 0xFFFFFFF8#32, ckf := 0xFFFFFFF8#32, mal := 0xFFFFFFF8#32 } }

/-- CountersCountEvents: at the last value from which no counter saturates. -/
theorem witness_CountersCountEvents :
    bufInv almostSaturated.cfg.rxLen (almostSaturated.slice .ch0).buf ∧
      Completes (feedAll .ch0 sysvFrame almostSaturated) ∧
      (almostSaturated.slice .ch0).ok.toNat + sysvFrame.length < 2 ^ 32 ∧
      (almostSaturated.slice .ch0).ckf.toNat + sysvFrame.length < 2 ^ 32 ∧
      (almostSaturated.slice .ch0).mal.toNat + sysvFrame.length < 2 ^ 32 :=
  ⟨by decide, ⟨_, rfl⟩, by decide, by decide, by decide⟩

/-- ReadStatsResult: the longest buffer. -/
theorem witness_ReadStatsResult :
    bufInv (holding0 .v2 true .s2m (cmdFrame.take 9)).cfg.rxLen
        ((holding0 .v2 true .s2m (cmdFrame.take 9)).slice .ch0).buf ∧
      ((holding0 .v2 true .s2m (cmdFrame.take 9)).slice .ch0).buf.length = 9 := by decide

/-- ErrorRateExact: no failure; nothing but failures. -/
theorem witness_ErrorRateExact : (0#32 : Word) = 0#32 ∧ (5#32 : Word) ≠ 0#32 := by decide

/-- DecodeResult: 255 bytes, and one frame for each of the other three clauses. -/
theorem witness_DecodeResult :
    (List.replicate 255 0#8 : List Byte).length ≤ 255 ∧ sysvFrame.length = frameLen .m2s .v2 ∧
      byteAt (sysvFrame.set 0 0x01#8) 0 ≠ 0x02#8 ∧
      cks (sysvFrame.set 5 0xC7#8) ≠ cksByte (sysvFrame.set 5 0xC7#8) ∧ cks sysvFrame = cksByte sysvFrame :=
  ⟨by rw [List.length_replicate], by decide, by decide, by decide, by decide⟩

/-- LengthCheckFirst: one byte short, and one too many. -/
theorem witness_LengthCheckFirst :
    sysvHead.length ≠ frameLen .m2s .v2 ∧ (sysvHead.set 0 0#8).length = sysvHead.length ∧
      cmdFrame.length ≠ frameLen .s2m .v1 := by decide

/-- The field statements: a system-voltage frame, slave IDs 1 and 31, both command frames. -/
theorem witness_SysvFrameFields :
    (0x07#8).toNat / 8 = 0 ∧ (0x0A#8).toNat = ((0x07#8).toNat + (0x00#8).toNat + (0x03#8).toNat + (0x00#8).toNat) % 256 := by
  decide

theorem witness_SlaveFrameFields :
    (0x08#8).toNat / 8 ≠ 0 ∧ (0xFF#8).toNat / 8 ≠ 0 ∧
      (0x9A#8).toNat = ((0xF8#8).toNat + (0x83#8).toNat + (0x20#8).toNat + (0xFF#8).toNat) % 256 := by decide

theorem witness_CmdV1FrameFields :
    (0x7D#8).toNat = ((0x01#8).toNat + (0xFF#8).toNat + (0xFB#8).toNat + (0xFE#8).toNat + (0xD4#8).toNat +
      (0xB0#8).toNat) % 256 := by decide

theorem witness_CmdV2FrameFields :
    (0x3E#8).toNat = ((0x05#8).toNat + (0x00#8).toNat + (0x64#8).toNat + (0x00#8).toNat + (0x32#8).toNat +
      (0x83#8).toNat + (0x20#8).toNat) % 256 := by decide

/-- RecordResponseLayouts: the least length, that of an M2S frame, and the largest. -/
theorem witness_RecordResponseLayouts : 0 ≤ 255 ∧ frameLen .m2s .v2 ≤ 255 ∧ 255 ≤ 255 := by decide

/-- ChecksumIsByteSum and MarkersJudgedBeforeChecksum: the shortest list, and a frame with each marker wrong. -/
theorem witness_ChecksumIsByteSum : 3 ≤ [0x02#8, 0x00#8, 0x03#8].length := by decide

theorem witness_MarkersJudgedBeforeChecksum :
    3 ≤ [0x02#8, 0x00#8, 0x03#8].length ∧ (sysvFrame.set 0 0x01#8).length = frameLen .m2s .v2 ∧
      byteAt (sysvFrame.set 0 0x01#8) 0 ≠ Config.stx ∧
      byteAt (sysvFrame.set 6 0x04#8) ((sysvFrame.set 6 0x04#8).length - 1) ≠ Config.etx := by decide

/-- SingleBitFlipDetected: the first and the last byte between the markers, the lowest and the highest bit. -/
theorem witness_SingleBitFlipDetected :
    decodeFrame sysvFrame .m2s .v2 true = .record (.sysv 0#2 0#8 0x0BB8#16 3000 0#8) ∧ 1 ≤ 5 ∧
      5 ≤ sysvFrame.length - 2 ∧ 0 < 8 ∧ 7 < 8 := by decide

/-- ChecksumBlindSpots: V-CKS-9, and a swap. -/
theorem witness_ChecksumBlindSpots :
    List.Perm [0x00#8, 0x0B#8, 0xB8#8, 0x00#8] [0x00#8, 0xB8#8, 0x0B#8, 0x00#8] ∧
      (([0x00#8, 0x0B#8, 0xB8#8, 0x00#8] : List Byte).map BitVec.toNat).sum % 256 =
        (([0x00#8, 0x0C#8, 0xB7#8, 0x00#8] : List Byte).map BitVec.toNat).sum % 256 ∧
      ∃ r, decodeFrame (Config.stx :: ([0x00#8, 0x0B#8, 0xB8#8, 0x00#8] ++ [0xC3#8, Config.etx])) .m2s .v2 true =
        .record r :=
  ⟨by decide, by decide, _, rfl⟩

/-- EncodeRangeErrors: the last value that passes and the first that fails, for each operand. -/
theorem witness_EncodeRangeErrors :
    ¬ ((0x7FFF#32).toInt < -32768 ∨ (0x7FFF#32).toInt > 32767) ∧ (0x8000#32).toInt > 32767 ∧
      ¬ ((0xFFFF8000#32).toInt < -32768 ∨ (0xFFFF8000#32).toInt > 32767) ∧ (0xFFFF7FFF#32).toInt < -32768 ∧
      ¬ ((0x7F#32).toInt < -128 ∨ (0x7F#32).toInt > 127) ∧ (0x80#32).toInt > 127 ∧
      ¬ ((0xFFFFFF80#32).toInt < -128 ∨ (0xFFFFFF80#32).toInt > 127) ∧ (0xFFFFFF7F#32).toInt < -128 := by decide

/-- EncodeV1Frame and EncodeV2Frame: operands at the bounds (V-ENC-4 to V-ENC-7). -/
theorem witness_EncodeV1Frame :
    -32768 ≤ (0x7FFF#32).toInt ∧ (0x7FFF#32).toInt ≤ 32767 ∧ -32768 ≤ (0xFFFF8000#32).toInt ∧
      (0xFFFF8000#32).toInt ≤ 32767 ∧ -128 ≤ (0xFFFFFF80#32).toInt ∧ (0xFFFFFF80#32).toInt ≤ 127 ∧
      -128 ≤ (0x7F#32).toInt ∧ (0x7F#32).toInt ≤ 127 := by decide

theorem witness_EncodeV2Frame :
    (2#2 : BitVec 2) ≠ 3#2 ∧ -32768 ≤ (0x7FFF#32).toInt ∧ (0x7FFF#32).toInt ≤ 32767 ∧
      -32768 ≤ (0xFFFF8000#32).toInt ∧ (0xFFFF8000#32).toInt ≤ 32767 := by decide

/-- EncodeDecodeRoundTrip and EncodedFrameYieldsOneCommand: V-ENC-3 and V-ENC-7 under a configuration that expects them. -/
theorem witness_EncodeDecodeRoundTrip :
    rangeCheck .v1 0#2 (0xFFFFFFFB#32).toInt (0xFFFFFED4#32).toInt (0xFFFFFFB0#32).toInt = none ∧
      rangeCheck .v2 2#2 (0x7FFF#32).toInt (0xFFFF8000#32).toInt (0x7FFF#32).toInt = none := by decide

theorem witness_EncodedFrameYieldsOneCommand :
    rangeCheck .v2 0#2 0 0 32767 = none ∧ (start .v2 true .s2m).cfg.rxdir = .s2m ∧
      (start .v2 true .s2m).cfg.ver = .v2 ∧ ((start .v2 true .s2m).slice .ch1).buf = [] := by decide

/-- EncodeInvertsDecode: the frame of V-DEC-17. -/
theorem witness_EncodeInvertsDecode :
    decodeFrame cmdFrame .s2m .v2 true = .record (.cmd 0x05#8 true true 2#2 100 50 800 0x8320#16) ∧
      cksByte cmdFrame = cks cmdFrame ∧ (0x05#8).toNat < 8 ∧ (2#2 : BitVec 2) ≠ 3#2 := by decide

/-- AssembledLinesDecode: integers at the bounds of a word and beyond; 255 and 256 bytes. -/
theorem witness_AssembledLinesDecode :
    fitsWord (-2147483648) = true ∧ fitsWord 2147483647 = true ∧ fitsWord 2147483648 = false ∧
      (List.replicate 255 0#8 : List Byte).length ≤ 255 ∧ ¬ (List.replicate 256 0#8 : List Byte).length ≤ 255 :=
  ⟨by decide, by decide, by decide, by rw [List.length_replicate], by rw [List.length_replicate]; decide⟩

/-- WireRunEqualsFeedCommands: a run of a whole frame and one byte more. -/
theorem witness_WireRunEqualsFeedCommands :
    AsmInv (offered (.wire .ch1 (sysvFrame ++ [0x02#8]) 5#32)) ∧
      (offered (.wire .ch1 (sysvFrame ++ [0x02#8]) 5#32)).inputs = .wire .ch1 (sysvFrame ++ [0x02#8]) 5#32 :: [] := by
  decide

/-- The frame statements, their clause about any buffer: an open candidate on the link. -/
theorem witness_FramesOnOpenBuffer :
    bufInv (holding0 .v2 true .m2s sysvHead).cfg.rxLen
        ((holding0 .v2 true .m2s sysvHead).slice (holding0 .v2 true .m2s sysvHead).rxLink).buf ∧
      bufInv (holding0 .v2 true .s2m (cmdFrame.take 9)).cfg.rxLen
        ((holding0 .v2 true .s2m (cmdFrame.take 9)).slice (holding0 .v2 true .s2m (cmdFrame.take 9)).rxLink).buf := by
  decide

/-- The frame statements: an empty buffer on the link, under M2S and under S2M, a checksum byte that is right and one that
is wrong. -/
theorem witness_FrameSysvReceived :
    ((start .v2 true .m2s).slice (start .v2 true .m2s).rxLink).buf = [] ∧ (start .v1 true .s2m).cfg.rxdir = .s2m ∧
      (0xC3#8 : Byte) = byteSum [0x00#8, 0x0B#8, 0xB8#8, 0x00#8] ∧
      (0xC7#8 : Byte) ≠ byteSum [0x00#8, 0x0B#8, 0xB8#8, 0x00#8] := by decide

theorem witness_FrameSlaveReceived :
    (1#5 : BitVec 5) ≠ 0#5 ∧ (31#5 : BitVec 5) ≠ 0#5 ∧
      ((start .v1 true .m2s).slice (start .v1 true .m2s).rxLink).buf = [] ∧
      (0xFB#8 : Byte) = byteSum [0x29#8, 0xE0#8, 0xC0#8, 0x32#8] := by decide

theorem witness_FrameCmdV1Received :
    (start .v1 true .s2m).cfg.rxdir = .s2m ∧ ((start .v1 true .s2m).slice .ch0).buf = [] ∧
      (start .v2 true .s2m).cfg.ver = .v2 ∧
      (0x7D#8 : Byte) = byteSum [0x01#8, 0xFF#8, 0xFB#8, 0xFE#8, 0xD4#8, 0xB0#8] := by decide

theorem witness_FrameCmdV2Received :
    (start .v2 true .s2m).cfg.rxdir = .s2m ∧ (start .v2 true .s2m).cfg.ver = .v2 ∧
      ((start .v2 true .s2m).slice .ch0).buf = [] ∧
      (0x3E#8 : Byte) = byteSum [0x05#8, 0x00#8, 0x64#8, 0x00#8, 0x32#8, 0x83#8, 0x20#8] := by decide

end Sys2Proof.Tests
end

section
/-! PROOFS of the statements of 10_state.md: a run of received bytes is that many FEED commands (R49), only WRITE_CFG
writes `cfg` (R53), only a FEED that takes a candidate reads TS_IN (R58). -/

namespace Sys2Proof.Machine

/-! ## A run of bytes, taken in one step -/

/-- A wire frame executes as one FEED for each of the bytes it encodes to (10_state.md R49). -/
theorem exec_of_encode_bytes {i : Instr} {bs : List Byte} (h : encode i = .bytes bs) (s : State) :
    exec i s = feedAll s.rxLink bs s := by
  cases i with
  | frameSysv | frameSlave | frameCmdV1 | frameCmdV2 =>
    obtain rfl := Code.bytes.inj h
    rfl
  | feed | decode | encode | resetAsm | resetStats | resetCh | readStats | writeCfg | readCfg | reserved =>
    exact nomatch h

/-- The step that takes a run of bytes is one FEED for each, whether or not the run is a whole frame. -/
theorem step_wire {s : State} {link : Chan} {bs : List Byte} {ts : Word} {rest : List PortInput}
    (h : s.inputs = .wire link bs ts :: rest) : step s = feedAll link bs (s.acceptWire rest link ts) := by
  cases hd : decode (.bytes bs) with
  | error e => simp [step, fetch, h, hd]
  | ok i =>
    have henc : encode i = .bytes bs := (decodeWire_ok hd).1
    simp [step, fetch, h, hd, exec_of_encode_bytes henc]

/-! ## FEED as a command -/

/-- FEED of one byte as a command at CMD, its word written as a number (30_encoding.md R152). -/
def feedCommand (c : Chan) (ts : Word) (b : Byte) : PortInput :=
  .command [BitVec.ofNat 32 (0x10000000 + 0x08000000 * chanNat c + b.toNat)] ts

/-- The number that R152 gives for FEED is the word that the encoder writes. -/
theorem encode_feed (c : Chan) (b : Byte) :
    encode (.feed c b) = .words [BitVec.ofNat 32 (0x10000000 + 0x08000000 * chanNat c + b.toNat)] := by
  have hb := b.isLt
  have hc := chanNat_lt c
  simp only [encode, Code.words.injEq, List.cons.injEq, and_true]
  apply BitVec.eq_of_toNat_eq
  simp only [append_toNat, chan_bit_toNat, BitVec.toNat_ofNat]
  omega

/-- The fields of FEED's word (R152): opcode 1, reserved bits 0, the channel and the byte. -/
theorem feed_word_fields (c : Chan) (b : Byte) :
    (0x1#4 ++ c.bit ++ 0#19 ++ b).extractLsb' 28 4 = 0x1#4 ∧
      (0x1#4 ++ c.bit ++ 0#19 ++ b).extractLsb' 8 19 = 0#19 ∧
      (0x1#4 ++ c.bit ++ 0#19 ++ b).extractLsb' 27 1 = c.bit ∧
      (0x1#4 ++ c.bit ++ 0#19 ++ b).extractLsb' 0 8 = b := by
  have hb := b.isLt
  have hc := chanNat_lt c
  refine ⟨?_, ?_, ?_, ?_⟩ <;> apply BitVec.eq_of_toNat_eq <;>
    simp only [slice_toNat, append_toNat, chan_bit_toNat, BitVec.toNat_ofNat] <;> omega

/-- Decoding the encoding of FEED gives it back. -/
theorem decode_encode_feed (c : Chan) (b : Byte) : decode (encode (.feed c b)) = .ok (.feed c b) := by
  obtain ⟨hop, hresv, hch, hbyte⟩ := feed_word_fields c b
  have hvalid := decodeCommand_of_valid (w0 := 0x1#4 ++ c.bit ++ 0#19 ++ b) (ops := []) (k := .feed)
    (by rw [hop]; rfl) ((mask_feed _).mpr hresv) rfl
  rwa [commandFields, hch, hbyte, chan_ofBit_bit] at hvalid

/-- The step that takes a FEED command is one FEED. -/
theorem step_feedCommand {s : State} {c : Chan} {ts : Word} {b : Byte} {rest : List PortInput}
    (h : s.inputs = feedCommand c ts b :: rest) : step s = feedByte c b (s.accept rest ts) := by
  have hd := decode_encode_feed c b
  rw [encode_feed] at hd
  rw [feedCommand] at h
  simp [step, fetch, h, hd, exec, execFeed]

/-! ## The simulation -/

/-- Two states have the same core when their configuration and both slices are the same. -/
theorem core_eq_iff {s t : State} : s.core = t.core ↔ s.cfg = t.cfg ∧ ∀ c, s.slice c = t.slice c := by
  constructor
  · intro h
    simp only [State.core, Prod.mk.injEq] at h
    obtain ⟨hcfg, h0, h1⟩ := h
    refine ⟨hcfg, fun c => ?_⟩
    cases c with
    | ch0 => exact h0
    | ch1 => exact h1
  · rintro ⟨hcfg, hslice⟩
    exact Prod.ext hcfg (Prod.ext (hslice .ch0) (hslice .ch1))

/-- The core and the responses of two states agree; the input ports may differ. -/
def SameCoreAndSent (s u : State) : Prop :=
  u.core = s.core ∧ u.sent = s.sent

/-- A FEED keeps two states in agreement: it reads no port but TS_IN (10_state.md R58). -/
theorem feedByte_keeps_agreement {c : Chan} {b : Byte} {s t u : State} (h : feedByte c b s = .next t)
    (hsu : SameCoreAndSent s u) (hts : u.tsIn = s.tsIn) : ∃ v, feedByte c b u = .next v ∧ SameCoreAndSent t v := by
  obtain ⟨hcore, hsent⟩ := hsu
  obtain ⟨hcfg, hslice⟩ := core_eq_iff.mp hcore
  obtain ⟨v, r, hv, hvc, htsent, hvsent⟩ := feedByte_congr h hcfg (hslice c) hts
  obtain ⟨htcfg, -, -, -, htother, -⟩ := feedByte_frame h
  obtain ⟨hvcfg, -, -, -, hvother, -⟩ := feedByte_frame hv
  refine ⟨v, hv, core_eq_iff.mpr ⟨by rw [hvcfg, htcfg, hcfg], fun d => ?_⟩, by rw [hvsent, htsent, hsent]⟩
  by_cases hd : d = c
  · rw [hd, hvc]
  · rw [hvother d hd, htother d hd, hslice d]

/-- A run of a machine whose first step answers next goes on from there. -/
theorem run_succ_of_step {M : Host.Core} {k : Nat} {s t : M.State} (h : M.step s = .next t) :
    M.run (k + 1) s = M.run k t := by
  rw [Host.Core.run, h]

/-- The simulation: a run of FEEDs, and as many steps on the same bytes as FEED commands with the same TS_IN, keep two
states in agreement; the steps consume just those commands. -/
theorem run_feedCommands {c : Chan} {ts : Word} {rest : List PortInput} :
    ∀ (bs : List Byte) {s t u : State}, feedAll c bs s = .next t → s.tsIn = ts → SameCoreAndSent s u →
      u.inputs = bs.map (feedCommand c ts) ++ rest →
        ∃ v, Host.Core.run Sys2Proof.core bs.length u = .next v ∧ SameCoreAndSent t v ∧ v.inputs = rest
  | [], s, t, u, h, _, hsu, hin => by
    obtain rfl : s = t := by simpa using h
    exact ⟨u, rfl, hsu, by simpa using hin⟩
  | b :: bs, s, t, u, h, hts, hsu, hin => by
    obtain ⟨s', hfeed, hrest⟩ := feedAll_cons_inv h
    have hstep : step u = feedByte c b (u.accept (bs.map (feedCommand c ts) ++ rest) ts) := step_feedCommand hin
    obtain ⟨u', hu', hsu'⟩ := feedByte_keeps_agreement (u := u.accept (bs.map (feedCommand c ts) ++ rest) ts)
      hfeed hsu (by simp [hts])
    obtain ⟨-, -, hts', -⟩ := feedByte_frame hfeed
    obtain ⟨-, hin', -⟩ := feedByte_frame hu'
    obtain ⟨v, hv, htv, hvin⟩ := run_feedCommands bs hrest (hts'.trans hts) hsu' hin'
    exact ⟨v, (run_succ_of_step (M := Sys2Proof.core) (hstep.trans hu')).trans hv, htv, hvin⟩

/-- Settles O56: the step is a run of FEEDs (`step_wire`), which the commands simulate (`run_feedCommands`). -/
theorem wireRunEqualsFeedCommands : Obligations.WireRunEqualsFeedCommands := by
  intro s link bs ts rest hinv hin
  have hbuf : bufInv (s.acceptWire rest link ts).cfg.rxLen ((s.acceptWire rest link ts).slice link).buf := by
    cases link with
    | ch0 => exact hinv.1
    | ch1 => exact hinv.2
  obtain ⟨t, ht⟩ := feedAll_completes bs _ hbuf
  obtain ⟨u, hu, ⟨hcore, hsent⟩, huin⟩ :=
    run_feedCommands (u := { s with inputs := bs.map (feedCommand link ts) ++ rest }) bs ht rfl ⟨rfl, rfl⟩ rfl
  have htin : t.inputs = rest := (feedAll_frame ht).2.1
  exact ⟨t, u, (step_wire hin).trans ht, hu, hcore.symm, hsent.symm, htin, huin⟩

/-! ## Who writes the configuration -/

/-- Settles O14: FEEDs keep `cfg` by their frame, and every other command only delivers a response or writes a slice. -/
theorem onlyWriteCfgChangesCfg : Obligations.OnlyWriteCfgChangesCfg := by
  intro i s t h hi
  have ht := exec_next h
  cases i with
  | writeCfg rxdir cken ver => exact absurd rfl (hi rxdir cken ver)
  | feed => exact (feedByte_frame ht).1
  | frameSysv | frameSlave | frameCmdV1 | frameCmdV2 => exact (feedAll_frame ht).1
  | decode | encode | readStats | readCfg | reserved => rw [ht, respond_cfg]
  | resetAsm | resetStats | resetCh => rw [ht, respond_cfg, setSlice_cfg]

/-! ## Who reads TS_IN -/

/-- The same state at another value of TS_IN. -/
def State.atTs (s : State) (w : Word) : State :=
  { s with tsIn := w }

@[simp] theorem atTs_cfg (s : State) (w : Word) : (s.atTs w).cfg = s.cfg := rfl
@[simp] theorem atTs_tsIn (s : State) (w : Word) : (s.atTs w).tsIn = w := rfl
@[simp] theorem atTs_slice (s : State) (w : Word) (c : Chan) : (s.atTs w).slice c = s.slice c := by cases c <;> rfl
@[simp] theorem respond_atTs (s : State) (r : Response) (w : Word) : (s.respond r).atTs w = (s.atTs w).respond r := rfl
@[simp] theorem setSlice_atTs (s : State) (c : Chan) (x : Slice) (w : Word) :
    (s.setSlice c x).atTs w = (s.atTs w).setSlice c x := by
  cases c <;> rfl

/-- An outcome whose response is MALFORMED counts in `mal` alone, with no timestamp (44_channel_stats.md R401). -/
theorem statsUpdate_ts_of_malformed {ch : Chan} {ver : Version} {dir : Direction} {out : FrameOutcome}
    (h : rcode (respOutcome ch ver dir out) = 0x5#4) (ts w : Word) (x : Slice) :
    statsUpdate out w x = statsUpdate out ts x := by
  rw [rcode_respOutcome] at h
  cases out with
  | lengthMismatch | markerError => rfl
  | checksumError => simp at h
  | record r => cases r <;> simp at h

/-- The update of a FEED answered DONE or MALFORMED does not depend on TS_IN. -/
theorem statsUpdateIf_ts {cfg : Cfg} {c : Chan} {ev : Option FrameOutcome}
    (h : rcode (respEvent cfg c ev) = 0x0#4 ∨ rcode (respEvent cfg c ev) = 0x5#4) (ts w : Word) (x : Slice) :
    statsUpdateIf ev w x = statsUpdateIf ev ts x := by
  cases ev with
  | none => rfl
  | some out =>
    have hmal := h.resolve_left (rcode_respOutcome_ne_done c cfg.ver cfg.rxdir out)
    exact statsUpdate_ts_of_malformed hmal ts w x

/-- A FEED answered DONE or MALFORMED does the same at every value of TS_IN. -/
theorem feedByte_atTs {c : Chan} {b : Byte} {s t : State} {r : Response} (h : feedByte c b s = .next t)
    (hsent : t.sent = s.sent ++ [r]) (hr : rcode r = 0x0#4 ∨ rcode r = 0x5#4) (w : Word) :
    feedByte c b (s.atTs w) = .next (t.atTs w) := by
  obtain ⟨buf, ev, hscan, rfl⟩ := feedByte_next h
  obtain rfl : respEvent s.cfg c ev = r := by simpa using hsent
  have hdone : feedDone c buf ev (s.atTs w) = (feedDone c buf ev s).atTs w := by
    simp [feedDone, statsUpdateIf_ts hr s.tsIn w]
  rw [← hdone]
  exact feedByte_of_scan (by simpa using hscan)

/-- Settles O18: what a command other than FEED delivers and writes (`exec_next`) does not mention TS_IN. -/
theorem timestampReadOnlyByCandidates : Obligations.TimestampReadOnlyByCandidates := by
  intro i s t w h
  have ht := exec_next h
  cases i with
  | frameSysv | frameSlave | frameCmdV1 | frameCmdV2 => trivial
  | feed c b =>
    rintro ⟨r, hsent, hr⟩
    exact feedByte_atTs ht hsent hr w
  | encode ver mode start maxv minv cur =>
    subst ht
    exact execEncode_eq ver mode start maxv minv cur (s.atTs w)
  | resetAsm | resetStats | resetCh =>
    subst ht
    change exec _ (s.atTs w) = .next (State.atTs _ w)
    rw [respond_atTs, setSlice_atTs]
    rfl
  | decode | readStats | writeCfg | readCfg | reserved =>
    subst ht
    rfl

end Sys2Proof.Machine
end

section
/-! PROOFS of the statements of 20_memory.md: the step runs the decoded instruction (R105, R108), a command issued twice
(R106), and which commands commute (R112). -/

namespace Sys2Proof.Machine

/-! ## The step of an instruction -/

/-- The step that takes a command which decodes runs it in the state that has accepted it. -/
theorem step_command {s : State} {i : Instr} {ws : List Word} {ts : Word} {rest : List PortInput}
    (h : s.inputs = .command ws ts :: rest) (hd : decode (.words ws) = .ok i) :
    step s = exec i (s.accept rest ts) := by
  simp [step, fetch, h, hd]

/-- The step that takes a run of bytes which is a whole frame runs that frame's instruction. -/
theorem step_frame {s : State} {i : Instr} {link : Chan} {bs : List Byte} {ts : Word} {rest : List PortInput}
    (h : s.inputs = .wire link bs ts :: rest) (hd : decode (.bytes bs) = .ok i) :
    step s = exec i (s.acceptWire rest link ts) := by
  simp [step, fetch, h, hd]

/-- Settles O7: one lemma for each kind of transaction. -/
theorem stepRunsDecodedInstruction : Obligations.StepRunsDecodedInstruction :=
  fun _ _ _ _ => ⟨fun _ => step_command, fun _ _ => step_frame⟩

/-! ## Rules about the core and the slices -/

@[simp] theorem respond_core (s : State) (r : Response) : (s.respond r).core = s.core := rfl

/-- The core after a slice write depends on the core before it alone. -/
theorem setSlice_core_congr {s t : State} (h : s.core = t.core) (c : Chan) (x : Slice) :
    (s.setSlice c x).core = (t.setSlice c x).core := by
  obtain ⟨hcfg, hslice⟩ := core_eq_iff.mp h
  refine core_eq_iff.mpr ⟨by simpa using hcfg, fun d => ?_⟩
  by_cases hd : d = c
  · subst hd
    simp
  · rw [setSlice_slice_other s x hd, setSlice_slice_other t x hd, hslice d]

/-- The last of two writes of one slice counts. -/
theorem setSlice_setSlice_same (s : State) (c : Chan) (x y : Slice) :
    (s.setSlice c x).setSlice c y = s.setSlice c y := by
  cases c <;> rfl

/-- Writes of different slices commute (10_state.md R63). -/
theorem setSlice_comm (s : State) {c d : Chan} (h : c ≠ d) (x y : Slice) :
    (s.setSlice c x).setSlice d y = (s.setSlice d y).setSlice c x := by
  cases c with
  | ch0 => cases d with
    | ch0 => exact absurd rfl h
    | ch1 => rfl
  | ch1 => cases d with
    | ch0 => rfl
    | ch1 => exact absurd rfl h

/-- Writing back what a slice holds changes nothing. -/
theorem setSlice_self {s : State} {c : Chan} {x : Slice} (h : s.slice c = x) : s.setSlice c x = s := by
  subst h
  cases c <;> rfl

/-- A WRITE_CFG that changes no field keeps every buffer (45_configuration.md R450). -/
@[simp] theorem bufAfterCfg_self (k : Cfg) (x : Slice) : bufAfterCfg k k x = x := by simp [bufAfterCfg]

/-! ## The commands that write nothing -/

/-- The response of a command that only answers: DECODE, ENCODE, READ_STATS, READ_CFG and a reserved opcode; none for the
others (20_memory.md R106). `exec_of_answerOf` ties it to the model. -/
def answerOf (i : Instr) (s : State) : Option Response :=
  match i with
  | .decode dir ver f => some (respOutcome .ch0 ver dir (decodeFrame f dir ver s.cfg.cken))
  | .encode ver mode start maxv minv cur =>
    some (match rangeCheck ver mode (sext32 maxv) (sext32 minv) (sext32 cur) with
      | some field => respRangeErr field
      | none => respFrame (buildFrame ver mode start (sext32 maxv) (sext32 minv) (sext32 cur)))
  | .readStats ch => some (respStats ch (s.slice ch))
  | .readCfg => some (respCfg s.cfg)
  | .reserved _ _ => some (respIllegal .reservedOpcode)
  | _ => none

/-- A command that only answers delivers its response and does nothing else. -/
theorem exec_of_answerOf {i : Instr} {s : State} {r : Response} (h : answerOf i s = some r) :
    exec i s = .next (s.respond r) := by
  cases i with
  | encode ver mode start maxv minv cur =>
    obtain rfl := Option.some.inj h
    exact execEncode_eq ver mode start maxv minv cur s
  | decode | readStats | readCfg | reserved =>
    obtain rfl := Option.some.inj h
    rfl
  | feed | resetAsm | resetStats | resetCh | writeCfg | frameSysv | frameSlave | frameCmdV1 | frameCmdV2 =>
    exact nomatch h

/-- The answer does not depend on the responses delivered before. -/
theorem answerOf_respond (i : Instr) (s : State) (r : Response) : answerOf i (s.respond r) = answerOf i s := by
  cases i with
  | readStats ch => simp [answerOf]
  | _ => rfl

/-- A command that only answers does the same twice. -/
theorem answer_twice {i : Instr} {s : State} {r : Response} (h : answerOf i s = some r) :
    ∃ t u r, exec i s = .next t ∧ exec i t = .next u ∧ t.core = s.core ∧ u.core = s.core ∧
      t.sent = s.sent ++ [r] ∧ u.sent = t.sent ++ [r] :=
  ⟨s.respond r, (s.respond r).respond r, r, exec_of_answerOf h,
    exec_of_answerOf ((answerOf_respond i s r).trans h), rfl, rfl, rfl, rfl⟩

/-! ## The commands that write and answer DONE -/

/-- A command that answers DONE and whose write `w`, made again, leaves the core as it is, has the effect and the response
of R106. -/
theorem write_twice {i : Instr} {w : State → State} (hexec : ∀ s, exec i s = .next ((w s).respond respDone))
    (hsent : ∀ s, (w s).sent = s.sent) (hagain : ∀ s r, (w ((w s).respond r)).core = (w s).core) (s : State) :
    ∃ t u r, exec i s = .next t ∧ exec i t = .next u ∧ u.core = t.core ∧
      t.sent = s.sent ++ [r] ∧ u.sent = t.sent ++ [r] :=
  ⟨_, _, respDone, hexec s, hexec _, hagain s respDone, by rw [respond_sent, hsent], by rw [respond_sent, hsent]⟩

/-- A slice replaced by an idempotent function of itself, twice. -/
theorem sliceUpdate_again {f : Slice → Slice} (hf : ∀ x, f (f x) = f x) (c : Chan) (s : State) (r : Response) :
    (((s.setSlice c (f (s.slice c))).respond r).setSlice c
      (f (((s.setSlice c (f (s.slice c))).respond r).slice c))).core = (s.setSlice c (f (s.slice c))).core := by
  rw [respond_slice, setSlice_slice_same, hf, setSlice_core_congr (respond_core _ r), setSlice_setSlice_same]

/-- The same configuration written twice: the second write changes no field, so it empties no buffer. -/
theorem setCfg_again (k : Cfg) (s : State) (r : Response) : (((s.setCfg k).respond r).setCfg k).core = (s.setCfg k).core :=
  core_eq_iff.mpr ⟨rfl, fun c => by simp⟩

/-- Settles O21: the commands that only answer by `answer_twice`, the others by `write_twice`. -/
theorem commandsIdempotent : Obligations.CommandsIdempotent := by
  intro i s
  cases i with
  | feed | frameSysv | frameSlave | frameCmdV1 | frameCmdV2 => trivial
  | decode | encode | readStats | readCfg | reserved => exact answer_twice rfl
  | resetAsm c =>
    exact write_twice (w := fun s => s.setSlice c ((s.slice c).withBuf [])) (fun _ => rfl) (fun _ => by simp)
      (sliceUpdate_again (f := fun x => x.withBuf []) (fun _ => rfl) c) s
  | resetStats c =>
    exact write_twice (w := fun s => s.setSlice c (s.slice c).clearStats) (fun _ => rfl) (fun _ => by simp)
      (sliceUpdate_again (f := Slice.clearStats) (fun _ => rfl) c) s
  | resetCh c =>
    exact write_twice (w := fun s => s.setSlice c ((s.slice c).withBuf []).clearStats) (fun _ => rfl) (fun _ => by simp)
      (sliceUpdate_again (f := fun x => (x.withBuf []).clearStats) (fun _ => rfl) c) s
  | writeCfg rxdir cken ver =>
    exact write_twice (w := fun s => s.setCfg { ver := ver, cken := cken, rxdir := rxdir }) (fun _ => rfl) (fun _ => rfl)
      (setCfg_again _) s

/-! ## Commands on different channels -/

/-- A command on channel `c` writes one slice and delivers one response, both fixed by the configuration, that channel's
slice and TS_IN: it does the same in every state that agrees on those. -/
theorem exec_channel {i : Instr} {c : Chan} {s : State} (hi : channelOf i = some c)
    (hinv : bufInv s.cfg.rxLen (s.slice c).buf) :
    ∃ x r, ∀ u : State, u.cfg = s.cfg → u.slice c = s.slice c → u.tsIn = s.tsIn →
      exec i u = .next ((u.setSlice c x).respond r) := by
  cases i with
  | feed ch b =>
    obtain rfl := Option.some.inj hi
    obtain ⟨t, ht⟩ := feedByte_completes ch b s hinv
    obtain ⟨buf, ev, hscan, -⟩ := feedByte_next ht
    refine ⟨statsUpdateIf ev s.tsIn ((s.slice ch).withBuf buf), respEvent s.cfg ch ev, fun u hcfg hslice hts => ?_⟩
    rw [← hcfg, ← hslice] at hscan
    rw [← hcfg, ← hslice, ← hts]
    exact feedByte_of_scan hscan
  | resetAsm ch =>
    obtain rfl := Option.some.inj hi
    exact ⟨(s.slice ch).withBuf [], respDone, fun u _ hslice _ => hslice ▸ rfl⟩
  | resetStats ch =>
    obtain rfl := Option.some.inj hi
    exact ⟨(s.slice ch).clearStats, respDone, fun u _ hslice _ => hslice ▸ rfl⟩
  | resetCh ch =>
    obtain rfl := Option.some.inj hi
    exact ⟨((s.slice ch).withBuf []).clearStats, respDone, fun u _ hslice _ => hslice ▸ rfl⟩
  | readStats ch =>
    obtain rfl := Option.some.inj hi
    refine ⟨s.slice ch, respStats ch (s.slice ch), fun u _ hslice _ => ?_⟩
    rw [setSlice_self hslice, ← hslice]
    rfl
  | decode | encode | writeCfg | readCfg | reserved | frameSysv | frameSlave | frameCmdV1 | frameCmdV2 =>
    exact nomatch hi

/-- R211 on both buffers is R211 on the buffer of every channel. -/
theorem asmInv_slice {s : State} (h : AsmInv s) (c : Chan) : bufInv s.cfg.rxLen (s.slice c).buf := by
  cases c with
  | ch0 => exact h.1
  | ch1 => exact h.2

/-- Settles O19: each command finds its channel's slice as the other left it, so both write the same slices and deliver the
same responses in either order (`exec_channel`), and writes of different slices commute. -/
theorem channelCommandsCommute : Obligations.ChannelCommandsCommute := by
  intro i j c d s hi hj hcd hinv
  obtain ⟨x, ri, hexec_i⟩ := exec_channel hi (asmInv_slice hinv c)
  obtain ⟨y, rj, hexec_j⟩ := exec_channel hj (asmInv_slice hinv d)
  have hd : ((s.setSlice c x).respond ri).slice d = s.slice d := by
    rw [respond_slice, setSlice_slice_other s x hcd.symm]
  have hc : ((s.setSlice d y).respond rj).slice c = s.slice c := by
    rw [respond_slice, setSlice_slice_other s y hcd]
  have hcore : (((s.setSlice c x).respond ri).setSlice d y).core = (((s.setSlice d y).respond rj).setSlice c x).core := by
    rw [setSlice_core_congr (respond_core _ ri), setSlice_core_congr (respond_core _ rj), setSlice_comm s hcd]
  exact ⟨_, _, _, _, ri, rj, hexec_i s rfl rfl rfl, hexec_j _ (by simp) hd (by simp), hexec_j s rfl rfl rfl,
    hexec_i _ (by simp) hc (by simp), hcore, by simp, by simp, by simp, by simp⟩

/-! ## Commands that only answer, against any other -/

/-- The same state with another record of the responses delivered. -/
def State.withSent (s : State) (l : List Response) : State :=
  { s with sent := l }

@[simp] theorem withSent_cfg (s : State) (l : List Response) : (s.withSent l).cfg = s.cfg := rfl
@[simp] theorem withSent_tsIn (s : State) (l : List Response) : (s.withSent l).tsIn = s.tsIn := rfl
@[simp] theorem withSent_sent (s : State) (l : List Response) : (s.withSent l).sent = l := rfl
@[simp] theorem withSent_slice (s : State) (l : List Response) (c : Chan) : (s.withSent l).slice c = s.slice c := by
  cases c <;> rfl
theorem withSent_respond (s : State) (l : List Response) (r : Response) :
    (s.withSent l).respond r = (s.respond r).withSent (l ++ [r]) := rfl
theorem withSent_setSlice (s : State) (l : List Response) (c : Chan) (x : Slice) :
    (s.withSent l).setSlice c x = (s.setSlice c x).withSent l := by
  cases c <;> rfl

/-- A result delivers responses without reading those delivered before: run from any other record `l` of them, it leaves the
same state with the same responses after `l` (log 5). -/
def DeliversBlindly (f : State → Result) (s t : State) : Prop :=
  ∃ rs, t.sent = s.sent ++ rs ∧ ∀ l, f (s.withSent l) = .next (t.withSent (l ++ rs))

theorem feedByte_deliversBlindly {c : Chan} {b : Byte} {s t : State} (h : feedByte c b s = .next t) :
    DeliversBlindly (feedByte c b) s t := by
  obtain ⟨buf, ev, hscan, rfl⟩ := feedByte_next h
  refine ⟨[respEvent s.cfg c ev], by simp, fun l => ?_⟩
  have hdone : feedDone c buf ev (s.withSent l) = (feedDone c buf ev s).withSent (l ++ [respEvent s.cfg c ev]) := by
    simp [feedDone, withSent_respond, withSent_setSlice]
  rw [← hdone]
  exact feedByte_of_scan (by simpa using hscan)

theorem feedAll_deliversBlindly {c : Chan} :
    ∀ (bs : List Byte) {s t : State}, feedAll c bs s = .next t → DeliversBlindly (feedAll c bs) s t
  | [], s, t, h => by
    obtain rfl : s = t := by simpa using h
    exact ⟨[], by simp, fun l => by simp⟩
  | b :: bs, s, t, h => by
    obtain ⟨s', hfeed, hrest⟩ := feedAll_cons_inv h
    obtain ⟨rs, hsent, hblind⟩ := feedByte_deliversBlindly hfeed
    obtain ⟨rs', hsent', hblind'⟩ := feedAll_deliversBlindly bs hrest
    refine ⟨rs ++ rs', by rw [hsent', hsent, List.append_assoc], fun l => ?_⟩
    rw [feedAll_cons_next (hblind l), hblind' (l ++ rs), List.append_assoc]

/-- No instruction reads the responses delivered before it. -/
theorem exec_deliversBlindly {j : Instr} {s t : State} (h : exec j s = .next t) : DeliversBlindly (exec j) s t := by
  have ht := exec_next h
  cases j with
  | feed => exact feedByte_deliversBlindly ht
  | frameSysv | frameSlave | frameCmdV1 | frameCmdV2 => exact feedAll_deliversBlindly _ ht
  | encode ver mode start maxv minv cur =>
    subst ht
    exact ⟨[_], rfl, fun l => execEncode_eq ver mode start maxv minv cur (s.withSent l)⟩
  | decode | writeCfg | readCfg | reserved =>
    subst ht
    exact ⟨[_], rfl, fun _ => rfl⟩
  | readStats c =>
    subst ht
    refine ⟨[_], rfl, fun l => ?_⟩
    rw [← withSent_respond, exec_of_answerOf rfl, withSent_slice]
  | resetAsm | resetStats | resetCh =>
    subst ht
    refine ⟨[_], by rw [respond_sent, setSlice_sent], fun l => ?_⟩
    rw [← withSent_respond, ← withSent_setSlice]
    rfl

/-- A command that only answers, and gets the same answer before and after `j`, commutes with it (R112). -/
theorem answer_commutes {i j : Instr} {s s2 : State} {r : Response} (hj : exec j s = .next s2)
    (hbefore : answerOf i s = some r) (hafter : answerOf i s2 = some r) :
    ∃ s1 s12 s21 r, exec i s = .next s1 ∧ exec j s1 = .next s12 ∧ exec i s2 = .next s21 ∧
      s12.core = s2.core ∧ s21.core = s2.core ∧ s1.core = s.core ∧
      s1.sent = s.sent ++ [r] ∧ s21.sent = s2.sent ++ [r] ∧ newResponses s1 s12 = newResponses s s2 := by
  obtain ⟨rs, hsent, hblind⟩ := exec_deliversBlindly hj
  refine ⟨s.respond r, _, s2.respond r, r, exec_of_answerOf hbefore, hblind (s.sent ++ [r]),
    exec_of_answerOf hafter, rfl, rfl, rfl, rfl, rfl, ?_⟩
  rw [newResponses, newResponses, hsent, withSent_sent, respond_sent, List.drop_left, List.drop_left]

/-- Settles O20: DECODE, READ_CFG and a reserved opcode read at most `cfg`, which only WRITE_CFG writes (R53), and ENCODE
reads nothing, so each gets the same answer after `j`. -/
theorem readersCommute : Obligations.ReadersCommute := by
  intro i j s s2 hj hi
  cases i with
  | encode => exact answer_commutes hj rfl rfl
  | decode | readCfg | reserved =>
    have hcfg : s2.cfg = s.cfg := onlyWriteCfgChangesCfg j s s2 hj hi
    exact answer_commutes hj rfl (by simp only [answerOf, hcfg])
  | feed | resetAsm | resetStats | resetCh | readStats | writeCfg | frameSysv | frameSlave | frameCmdV1 | frameCmdV2 =>
    exact hi.elim

end Sys2Proof.Machine
end

section
/-! PROOFS of the statements of 30_encoding.md: decoding and encoding are inverse (R152 to R157, R183), the validation of R181,
one response for each command (R170), the response layouts as numbers (R172 to R176), and the assembler's lines (R188). -/

namespace Sys2Proof.Machine

/-! ## One-bit fields -/

theorem chan_ofBit_eq_iff {b : BitVec 1} {c : Chan} : Chan.ofBit b = c ↔ b = c.bit :=
  ⟨fun h => by rw [← h, chan_bit_ofBit], fun h => by rw [h, chan_ofBit_bit]⟩

theorem version_ofBit_eq_iff {b : BitVec 1} {v : Version} : Version.ofBit b = v ↔ b = v.bit :=
  ⟨fun h => by rw [← h, version_bit_ofBit], fun h => by rw [h, version_ofBit_bit]⟩

theorem direction_ofBit_eq_iff {b : BitVec 1} {d : Direction} : Direction.ofBit b = d ↔ b = d.bit :=
  ⟨fun h => by rw [← h, direction_bit_ofBit], fun h => by rw [h, direction_ofBit_bit]⟩

theorem bitFlag_eq_iff {b : BitVec 1} {f : Bool} : bitFlag b = f ↔ b = flagBit f :=
  ⟨fun h => by rw [← h, flagBit_bitFlag], fun h => by rw [h, bitFlag_flagBit]⟩

/-! ## The first words of the commands

Each lemma says of one layout of R152 to R157: the words of that form are those that pass the checks of R181 on opcode and
reserved bits and carry the fields. Read to the right it serves decoding an encoding, to the left encoding what was decoded. -/

/-- The number of an opcode (30_encoding.md R151). -/
def opcodeBits : Opcode → BitVec 4
  | .feed => 0x1#4
  | .decode => 0x2#4
  | .encode => 0x3#4
  | .resetAsm => 0x4#4
  | .resetStats => 0x5#4
  | .resetCh => 0x6#4
  | .readStats => 0x7#4
  | .writeCfg => 0x8#4
  | .readCfg => 0x9#4

theorem opcodeOf_eq_some_iff {op : BitVec 4} {k : Opcode} : opcodeOf op = some k ↔ op = opcodeBits k := by
  constructor
  · intro h
    have hop := opcodeOf_some h
    cases k <;> exact hop
  · rintro rfl
    cases k <;> rfl

/-- A first word that passes the checks of R181 on opcode and reserved bits, as opcode `k`. -/
abbrev Validated (k : Opcode) (w : Word) : Prop :=
  opcodeOf (w.extractLsb' 28 4) = some k ∧ w &&& reservedMask k = 0#32

/-- FEED (R152). -/
theorem feedWord_iff {w : Word} {c : Chan} {b : Byte} :
    w = 0x1#4 ++ c.bit ++ 0#19 ++ b ↔ Validated .feed w ∧ commandFields .feed w [] = .feed c b := by
  rw [Validated, opcodeOf_eq_some_iff, mask_feed, commandFields, Instr.feed.injEq, chan_ofBit_eq_iff]
  simp only [opcodeBits, ← BitVec.toNat_inj, slice_toNat, append_toNat]
  omega

/-- The four commands of R155, which have the same reserved bits. -/
theorem channelWord_iff {k : Opcode} {w : Word} {c : Chan} (hk : reservedMask k = reservedMask .resetAsm) :
    w = channelWord (opcodeBits k) c ↔ Validated k w ∧ Chan.ofBit (w.extractLsb' 27 1) = c := by
  rw [Validated, opcodeOf_eq_some_iff, hk, mask_channel, chan_ofBit_eq_iff]
  simp only [channelWord, ← BitVec.toNat_inj, slice_toNat, append_toNat]
  omega

/-- DECODE (R153). -/
theorem decodeWord_iff {w : Word} {dir : Direction} {ver : Version} {len : Byte} :
    w = 0x2#4 ++ 0#1 ++ dir.bit ++ ver.bit ++ 0#17 ++ len ↔
      Validated .decode w ∧ Direction.ofBit (w.extractLsb' 26 1) = dir ∧ Version.ofBit (w.extractLsb' 25 1) = ver ∧
        w.extractLsb' 0 8 = len := by
  rw [Validated, opcodeOf_eq_some_iff, mask_decode, direction_ofBit_eq_iff, version_ofBit_eq_iff]
  simp only [opcodeBits, ← BitVec.toNat_inj, slice_toNat, append_toNat]
  omega

/-- ENCODE (R154), with its operand words. -/
theorem encodeWord_iff {w : Word} {ver : Version} {mode : BitVec 2} {start : Bool} {a b c : Word} :
    w = 0x3#4 ++ 0#2 ++ ver.bit ++ 0#22 ++ mode ++ flagBit start ↔
      Validated .encode w ∧ commandFields .encode w [a, b, c] = .encode ver mode start a b c := by
  rw [Validated, opcodeOf_eq_some_iff, mask_encode, commandFields, Instr.encode.injEq, version_ofBit_eq_iff,
    bitFlag_eq_iff]
  simp only [opcodeBits, ← BitVec.toNat_inj, slice_toNat, append_toNat, List.getD_cons_zero, List.getD_cons_succ, and_true]
  omega

/-- WRITE_CFG (R156). -/
theorem writeCfgWord_iff {w : Word} {rxdir : Direction} {cken : Bool} {ver : Version} :
    w = 0x8#4 ++ 0#25 ++ rxdir.bit ++ flagBit cken ++ ver.bit ↔
      Validated .writeCfg w ∧ commandFields .writeCfg w [] = .writeCfg rxdir cken ver := by
  rw [Validated, opcodeOf_eq_some_iff, mask_writeCfg, commandFields, Instr.writeCfg.injEq, direction_ofBit_eq_iff,
    bitFlag_eq_iff, version_ofBit_eq_iff]
  simp only [opcodeBits, ← BitVec.toNat_inj, slice_toNat, append_toNat]
  omega

/-- READ_CFG (R157). -/
theorem readCfgWord_iff {w : Word} : w = 0x90000000#32 ↔ Validated .readCfg w := by
  rw [Validated, opcodeOf_eq_some_iff, mask_readCfg]
  simp only [opcodeBits, ← BitVec.toNat_inj, slice_toNat, BitVec.toNat_ofNat]
  omega

/-- A word cut behind its opcode, as `reserved` holds it. -/
theorem word_eq_append_iff {w : Word} {op : BitVec 4} {low : BitVec 28} :
    w = op ++ low ↔ w.extractLsb' 28 4 = op ∧ w.extractLsb' 0 28 = low := by
  simp only [← BitVec.toNat_inj, slice_toNat, append_toNat]
  omega

/-! ## Commands: decoding the encoding -/

/-- A validated first word with as many operand words as R158 gives decodes to its fields. -/
theorem decode_of_validated {k : Opcode} {w : Word} {ops : List Word} (hv : Validated k w)
    (hlen : ops.length + 1 = commandLength k w) : decode (.words (w :: ops)) = .ok (commandFields k w ops) :=
  decodeCommand_of_valid hv.1 hv.2 hlen

/-- A one-word command whose opcode is none of the nine decodes to `reserved` (log 10). -/
theorem decodeCommand_reserved {w : Word} (h : opcodeOf (w.extractLsb' 28 4) = none) :
    decodeCommand [w] = .ok (.reserved (w.extractLsb' 28 4) (w.extractLsb' 0 28)) := by
  rw [decodeCommand, h]

/-- The commands of R155: one word, its only operand the channel. -/
theorem decode_channelWord {k : Opcode} {mk : Chan → Instr} (hk : reservedMask k = reservedMask .resetAsm)
    (hlen : ∀ w, commandLength k w = 1) (hfields : ∀ w, commandFields k w [] = mk (Chan.ofBit (w.extractLsb' 27 1)))
    (c : Chan) : decode (.words [channelWord (opcodeBits k) c]) = .ok (mk c) := by
  obtain ⟨hv, hc⟩ := (channelWord_iff (c := c) hk).mp rfl
  rw [decode_of_validated (ops := []) hv (hlen _).symm, hfields, hc]

/-- The operand words of DECODE give the frame back: its length is in the first word, the padding is cut off (R153). -/
theorem decode_encode_decode {dir : Direction} {ver : Version} {f : List Byte} (hf : f.length ≤ 255) :
    decode (encode (.decode dir ver f)) = .ok (.decode dir ver f) := by
  obtain ⟨w, hw⟩ : ∃ w, w = 0x2#4 ++ 0#1 ++ dir.bit ++ ver.bit ++ 0#17 ++ BitVec.ofNat 8 f.length := ⟨_, rfl⟩
  obtain ⟨hv, hdir, hver, hbyte⟩ := decodeWord_iff.mp hw
  have hlen : (w.extractLsb' 0 8).toNat = f.length := by
    rw [hbyte, BitVec.toNat_ofNat]
    omega
  have hcount : (packWords f).length + 1 = commandLength .decode w := by
    rw [packWords_length, commandLength, hlen, Nat.add_comm]
  rw [encode, ← hw, decode_of_validated hv hcount, commandFields, hdir, hver, hlen, take_unpack_pack]

theorem decode_encode_encode (ver : Version) (mode : BitVec 2) (start : Bool) (maxv minv cur : Word) :
    decode (encode (.encode ver mode start maxv minv cur)) = .ok (.encode ver mode start maxv minv cur) := by
  obtain ⟨hv, hfields⟩ := encodeWord_iff (a := maxv) (b := minv) (c := cur).mp rfl
  exact (decode_of_validated hv rfl).trans (congrArg _ hfields)

theorem decode_encode_writeCfg (rxdir : Direction) (cken : Bool) (ver : Version) :
    decode (encode (.writeCfg rxdir cken ver)) = .ok (.writeCfg rxdir cken ver) := by
  obtain ⟨hv, hfields⟩ := writeCfgWord_iff.mp rfl
  exact (decode_of_validated hv rfl).trans (congrArg _ hfields)

/-- A one-word command with a reserved opcode (R151). -/
theorem decode_encode_reserved {op : BitVec 4} {low : BitVec 28} (h : reservedOp op = true) :
    decode (encode (.reserved op low)) = .ok (.reserved op low) := by
  obtain ⟨w, hw⟩ : ∃ w, w = op ++ low := ⟨_, rfl⟩
  obtain ⟨hop, hlow⟩ := word_eq_append_iff.mp hw
  rw [encode, ← hw, decode, decodeCommand_reserved (by rw [hop]; exact opcodeOf_none.mpr h), hop, hlow]

/-! ## Wire frames: decoding the encoding -/

theorem decodeWire_seven (f1 f2 f3 f4 f5 : Byte) :
    decodeWire [Config.stx, f1, f2, f3, f4, f5, Config.etx] =
      if f1.extractLsb' 3 5 = 0#5 then .ok (.frameSysv (f1.extractLsb' 2 1) (f1.extractLsb' 0 2) (be16 f2 f3) f4 f5)
      else .ok (.frameSlave (f1.extractLsb' 3 5) (f1.extractLsb' 0 3) (be16 f2 f3) f4 f5) := by
  rw [decodeWire, if_pos ⟨rfl, rfl⟩]

theorem decodeWire_nine (f1 f2 f3 f4 f5 f6 f7 : Byte) :
    decodeWire [Config.stx, f1, f2, f3, f4, f5, f6, f7, Config.etx] =
      .ok (.frameCmdV1 (f1.extractLsb' 1 7) (bitFlag (f1.extractLsb' 0 1)) (be16 f2 f3) (be16 f4 f5) f6 f7) := by
  rw [decodeWire, if_pos ⟨rfl, rfl⟩]

theorem decodeWire_ten (f1 f2 f3 f4 f5 f6 f7 f8 : Byte) :
    decodeWire [Config.stx, f1, f2, f3, f4, f5, f6, f7, f8, Config.etx] =
      .ok (.frameCmdV2 (f1.extractLsb' 3 5) (f1.extractLsb' 1 2) (bitFlag (f1.extractLsb' 0 1)) (be16 f2 f3)
        (be16 f4 f5) (be16 f6 f7) f8) := by
  rw [decodeWire, if_pos ⟨rfl, rfl⟩]

theorem sysvHeader_slices (id : BitVec 5) (rsv : BitVec 1) (chan : BitVec 2) :
    (id ++ rsv ++ chan).extractLsb' 3 5 = id ∧ (id ++ rsv ++ chan).extractLsb' 2 1 = rsv ∧
      (id ++ rsv ++ chan).extractLsb' 0 2 = chan := by
  simp only [← BitVec.toNat_inj, slice_toNat, append_toNat]
  omega

theorem slaveHeader_slices (id : BitVec 5) (status : BitVec 3) :
    (id ++ status).extractLsb' 3 5 = id ∧ (id ++ status).extractLsb' 0 3 = status := by
  simp only [← BitVec.toNat_inj, slice_toNat, append_toNat]
  omega

theorem cmdV1Header_slices (undef : BitVec 7) (start : BitVec 1) :
    (undef ++ start).extractLsb' 1 7 = undef ∧ (undef ++ start).extractLsb' 0 1 = start := by
  simp only [← BitVec.toNat_inj, slice_toNat, append_toNat]
  omega

theorem cmdV2Header_slices (undef : BitVec 5) (mode : BitVec 2) (start : BitVec 1) :
    (undef ++ mode ++ start).extractLsb' 3 5 = undef ∧ (undef ++ mode ++ start).extractLsb' 1 2 = mode ∧
      (undef ++ mode ++ start).extractLsb' 0 1 = start := by
  simp only [← BitVec.toNat_inj, slice_toNat, append_toNat]
  omega

/-- Settles O1: one case for each row of the opcode table. -/
theorem decodeOfEncode : Obligations.DecodeOfEncode := by
  intro i hwf
  cases i with
  | feed c b => exact decode_encode_feed c b
  | decode dir ver f => exact decode_encode_decode (of_decide_eq_true hwf)
  | encode ver mode start maxv minv cur => exact decode_encode_encode ver mode start maxv minv cur
  | resetAsm c => exact decode_channelWord (k := .resetAsm) rfl (fun _ => rfl) (fun _ => rfl) c
  | resetStats c => exact decode_channelWord (k := .resetStats) rfl (fun _ => rfl) (fun _ => rfl) c
  | resetCh c => exact decode_channelWord (k := .resetCh) rfl (fun _ => rfl) (fun _ => rfl) c
  | readStats c => exact decode_channelWord (k := .readStats) rfl (fun _ => rfl) (fun _ => rfl) c
  | writeCfg rxdir cken ver => exact decode_encode_writeCfg rxdir cken ver
  | readCfg => exact decode_of_validated (readCfgWord_iff.mp rfl) rfl
  | reserved op low => exact decode_encode_reserved hwf
  | frameSysv rsv chan raw f4 cks =>
    obtain ⟨hid, hrsv, hchan⟩ := sysvHeader_slices 0#5 rsv chan
    rw [encode, decode, sysvBytes, decodeWire_seven, if_pos hid, hrsv, hchan, be16_hi_lo]
  | frameSlave id status raw temp cks =>
    obtain ⟨hid, hstatus⟩ := slaveHeader_slices id status
    have hne : id ≠ 0#5 := of_decide_eq_true hwf
    rw [encode, decode, slaveBytes, decodeWire_seven, hid, hstatus, if_neg hne, be16_hi_lo]
  | frameCmdV1 undef start maxv minv cur cks =>
    obtain ⟨hundef, hstart⟩ := cmdV1Header_slices undef (flagBit start)
    rw [encode, decode, cmdV1Bytes, decodeWire_nine, hundef, hstart, bitFlag_flagBit, be16_hi_lo, be16_hi_lo]
  | frameCmdV2 undef mode start maxv minv cur cks =>
    obtain ⟨hundef, hmode, hstart⟩ := cmdV2Header_slices undef mode (flagBit start)
    rw [encode, decode, cmdV2Bytes, decodeWire_ten, hundef, hmode, hstart, bitFlag_flagBit, be16_hi_lo, be16_hi_lo,
      be16_hi_lo]

/-! ## Encoding what was decoded -/

theorem channelWord_of_validated {k : Opcode} {w : Word} (hv : Validated k w)
    (hk : reservedMask k = reservedMask .resetAsm) : w = channelWord (opcodeBits k) (Chan.ofBit (w.extractLsb' 27 1)) :=
  (channelWord_iff hk).mpr ⟨hv, rfl⟩

/-- A validated command other than DECODE is the encoding of its fields. -/
theorem encode_commandFields {k : Opcode} {w : Word} {ops : List Word} (hv : Validated k w)
    (hlen : ops.length + 1 = commandLength k w) (hk : k ≠ .decode) : encode (commandFields k w ops) = .words (w :: ops) := by
  have hone : commandLength k w = 1 → ∀ v, w = v → Code.words [v] = .words (w :: ops) := by
    rintro h1 v rfl
    rw [List.eq_nil_of_length_eq_zero (Nat.succ_injective (hlen.trans h1))]
  cases k with
  | decode => exact absurd rfl hk
  | encode =>
    obtain ⟨a, b, c, rfl⟩ := List.length_eq_three.mp (Nat.succ_injective hlen)
    have hword := encodeWord_iff (a := a) (b := b) (c := c).mpr ⟨hv, rfl⟩
    exact congrArg (fun v => Code.words [v, a, b, c]) hword.symm
  | feed => exact hone rfl _ (feedWord_iff.mpr ⟨hv, rfl⟩)
  | resetAsm | resetStats | resetCh | readStats =>
    have hword := channelWord_of_validated hv rfl
    exact hone rfl _ hword
  | writeCfg => exact hone rfl _ (writeCfgWord_iff.mpr ⟨hv, rfl⟩)
  | readCfg => exact hone rfl _ (readCfgWord_iff.mpr hv)

/-- A validated DECODE (R153): the encoding of its fields has the same first word and as many operand words. -/
theorem encode_decodeFields {w : Word} {ops : List Word} (hv : Validated .decode w)
    (hlen : ops.length + 1 = commandLength .decode w) {f : List Byte}
    (hf : f = (unpackWords ops).take (w.extractLsb' 0 8).toNat) :
    encode (.decode (Direction.ofBit (w.extractLsb' 26 1)) (Version.ofBit (w.extractLsb' 25 1)) f) =
        .words (w :: packWords f) ∧
      ops.length = (packWords f).length ∧ (unpackWords ops).take f.length = f := by
  have hops : ops.length = packedLength (w.extractLsb' 0 8).toNat := by
    rw [commandLength, Nat.add_comm] at hlen
    exact Nat.add_left_cancel hlen
  have hflen : f.length = (w.extractLsb' 0 8).toNat := by
    rw [hf, List.length_take, unpackWords_length, hops, packedLength]
    omega
  have hbyte : w.extractLsb' 0 8 = BitVec.ofNat 8 f.length := by rw [hflen, BitVec.ofNat_toNat, BitVec.setWidth_eq]
  have hword := decodeWord_iff.mpr ⟨hv, rfl, rfl, hbyte⟩
  exact ⟨congrArg (fun v => Code.words (v :: packWords f)) hword.symm, by rw [packWords_length, hflen, hops],
    by rw [hflen, ← hf]⟩

/-- Settles O2: a frame by `decodeWire_ok`, a command by its validated first word. -/
theorem encodeOfDecode : Obligations.EncodeOfDecode := by
  intro c i h
  cases c with
  | bytes bs =>
    have henc := (decodeWire_ok h).1
    cases i with
    | decode => exact nomatch henc
    | _ => exact henc
  | words ws =>
    obtain ⟨w, ops, rfl, ⟨-, rfl, rfl⟩ | ⟨k, hop, hmask, hlen, rfl⟩⟩ := decodeCommand_ok h
    · exact congrArg (fun v => Code.words [v]) (word_eq_append_iff.mpr ⟨rfl, rfl⟩).symm
    · cases k with
      | decode => exact ⟨w, ops, rfl, encode_decodeFields ⟨hop, hmask⟩ hlen rfl⟩
      | _ => exact encode_commandFields ⟨hop, hmask⟩ hlen nofun

/-- Settles O3: a frame by `decodeWire_ok`; LEN of a DECODE has 8 bits, and an opcode that is none of the nine is reserved. -/
theorem decodedIsWellFormed : Obligations.DecodedIsWellFormed := by
  intro c i h
  cases c with
  | bytes bs => exact (decodeWire_ok h).2
  | words ws =>
    obtain ⟨w, ops, rfl, ⟨hop, rfl, rfl⟩ | ⟨k, -, -, -, rfl⟩⟩ := decodeCommand_ok h
    · exact opcodeOf_none.mp hop
    · cases k with
      | decode =>
        have hlen := (w.extractLsb' 0 8).isLt
        exact decide_eq_true ((List.length_take_le _ _).trans (Nat.le_of_lt_succ hlen))
      | _ => rfl

/-! ## The validation of R181 -/

theorem reservedOp_iff {op : BitVec 4} : reservedOp op = true ↔ op.toNat = 0 ∨ 10 ≤ op.toNat := by
  rw [reservedOp, Bool.or_eq_true, beq_iff_eq, decide_eq_true_iff, ← BitVec.toNat_inj, BitVec.le_def]
  rfl

/-- The opcode of a word is its number divided by `2^28`, as R181 is transcribed. -/
theorem opcode_toNat (w : Word) : (w.extractLsb' 28 4).toNat = w.toNat / 2 ^ 28 := by
  rw [slice_toNat]
  omega

/-- The tables of `illegalReason` are the decoder's (R158, R181). -/
theorem tables_agree {k : Opcode} {w : Word} (h : opcodeOf (w.extractLsb' 28 4) = some k) :
    resvTable (w.toNat / 2 ^ 28) = reservedMask k ∧ lengthTable (w.toNat / 2 ^ 28) w = commandLength k w := by
  rw [← opcode_toNat, opcodeOf_eq_some_iff.mp h]
  cases k with
  | decode => exact ⟨rfl, by rw [commandLength, slice_toNat, packedLength, pow_zero, Nat.div_one]; rfl⟩
  | _ => exact ⟨rfl, rfl⟩

/-- A reserved opcode is refused first, whatever follows (R181). -/
theorem illegalReason_reserved {w : Word} (h : opcodeOf (w.extractLsb' 28 4) = none) (ops : List Word) :
    illegalReason (w :: ops) = some 1 := by
  rw [opcodeOf_none, reservedOp_iff, opcode_toNat] at h
  rw [illegalReason, if_pos h]

/-- The checks of R181 behind the opcode, with the decoder's tables. -/
theorem illegalReason_opcode {k : Opcode} {w : Word} (h : opcodeOf (w.extractLsb' 28 4) = some k) (ops : List Word) :
    illegalReason (w :: ops) =
      if w &&& reservedMask k ≠ 0#32 then some 2 else if ops.length + 1 ≠ commandLength k w then some 3 else none := by
  obtain ⟨hmask, hlen⟩ := tables_agree h
  have hop : ¬ (w.toNat / 2 ^ 28 = 0 ∨ 10 ≤ w.toNat / 2 ^ 28) := by
    rw [← opcode_toNat, ← reservedOp_iff, ← opcodeOf_none, h]
    exact nofun
  rw [illegalReason, if_neg hop, hmask, hlen]

/-- The words of ILLEGAL as a number (R182). -/
theorem respIllegal_eq (r : IllegalReason) : respIllegal r = [BitVec.ofNat 32 (0xF0000000 + (reasonCode r).toNat)] := by
  cases r <;> rfl

/-! ## What the decoder refuses -/

theorem decodeCommand_longReserved {w : Word} (h : opcodeOf (w.extractLsb' 28 4) = none) (v : Word) (ops : List Word) :
    decodeCommand (w :: v :: ops) = .error .reservedOpcode := by
  rw [decodeCommand, h]

theorem decodeCommand_setReservedBits {k : Opcode} {w : Word} (hop : opcodeOf (w.extractLsb' 28 4) = some k)
    (hmask : w &&& reservedMask k ≠ 0#32) (ops : List Word) : decodeCommand (w :: ops) = .error .reservedBits := by
  simp only [decodeCommand, hop, if_pos hmask]

theorem decodeCommand_wrongLength {k : Opcode} {w : Word} {ops : List Word} (hv : Validated k w)
    (hlen : ops.length + 1 ≠ commandLength k w) : decodeCommand (w :: ops) = .error .badLength := by
  simp only [decodeCommand, hv.1, hv.2, ne_eq, not_true_eq_false, if_false, if_pos hlen]

/-- The step that takes a refused command delivers ILLEGAL (R181). -/
theorem step_refused {s : State} {e : DecodeError} {ws : List Word} {ts : Word} {rest : List PortInput}
    (h : s.inputs = .command ws ts :: rest) (hd : decode (.words ws) = .error e) :
    step s = .next (raiseIllegal (illegalOf e) (s.accept rest ts)) := by
  simp [step, fetch, h, hd]

/-- The step that takes a command delivers ILLEGAL with reason `r`, and does nothing else to the core. -/
def StepRefuses (ws : List Word) (r : Nat) : Prop :=
  ∀ (s : State) (ts : Word) (rest : List PortInput), s.inputs = .command ws ts :: rest →
    ∃ reason, (reasonCode reason).toNat = r ∧ step s = .next (raiseIllegal reason (s.accept rest ts))

theorem stepRefuses_of_error {ws : List Word} {e : DecodeError} {r : Nat} (hd : decode (.words ws) = .error e)
    (hr : (reasonCode (illegalOf e)).toNat = r) : StepRefuses ws r :=
  fun _ _ _ hin => ⟨illegalOf e, hr, step_refused hin hd⟩

/-- A command is refused for the reason that R181 gives, or it decodes. -/
theorem validated_or_refused (ws : List Word) :
    (∃ r, illegalReason ws = some r ∧ StepRefuses ws r) ∨ illegalReason ws = none ∧ ∃ i, decode (.words ws) = .ok i := by
  cases ws with
  | nil => exact .inl ⟨3, rfl, stepRefuses_of_error (e := .noWords) rfl rfl⟩
  | cons w ops =>
    cases hop : opcodeOf (w.extractLsb' 28 4) with
    | none =>
      refine .inl ⟨1, illegalReason_reserved hop ops, ?_⟩
      cases ops with
      | nil => exact fun s ts rest hin => ⟨.reservedOpcode, rfl, step_command hin (decodeCommand_reserved hop)⟩
      | cons v vs => exact stepRefuses_of_error (decodeCommand_longReserved hop v vs) rfl
    | some k =>
      rw [illegalReason_opcode hop]
      by_cases hmask : w &&& reservedMask k = 0#32
      · rw [if_neg (not_not.mpr hmask)]
        by_cases hlen : ops.length + 1 = commandLength k w
        · exact .inr ⟨if_neg (not_not.mpr hlen), _, decode_of_validated ⟨hop, hmask⟩ hlen⟩
        · exact .inl ⟨3, if_pos hlen, stepRefuses_of_error (decodeCommand_wrongLength ⟨hop, hmask⟩ hlen) rfl⟩
      · exact .inl ⟨2, if_pos hmask, stepRefuses_of_error (decodeCommand_setReservedBits hop hmask ops) rfl⟩

/-- Settles O5: `validated_or_refused`, with the step of either kind of command. -/
theorem commandsValidatedInOrder : Obligations.CommandsValidatedInOrder := by
  intro s ws ts rest hin
  obtain ⟨r, hr, hrefuses⟩ | ⟨hnone, i, hd⟩ := validated_or_refused ws
  · obtain ⟨reason, rfl, hstep⟩ := hrefuses s ts rest hin
    rw [hr, hstep, raiseIllegal, respIllegal_eq]
    rfl
  · rw [hnone]
    exact ⟨i, hd, step_command hin hd⟩

/-- Settles O6: the command is the encoding of `reserved`. -/
theorem reservedOpcodesRefused : Obligations.ReservedOpcodesRefused :=
  fun _ _ _ => ⟨fun h => decode_encode_reserved (reservedOp_iff.mpr h), rfl⟩

/-- Settles O4: the decoder runs on each of the twelve codes. -/
theorem specWordsDecode : Obligations.SpecWordsDecode :=
  ⟨rfl, rfl, rfl, rfl, rfl, rfl, rfl, rfl, rfl, rfl, rfl, rfl⟩

/-! ## One response for each command -/

/-- The RCODEs and lengths of R170. -/
def responseTable : List (Nat × Nat) :=
  [(0, 1), (1, 3), (2, 3), (3, 5), (4, 1), (5, 1), (6, 4), (7, 1), (8, 5), (9, 1), (15, 1)]

/-- The RCODE and the length of a response are a pair of the table. -/
def InResponseTable (r : Response) : Prop :=
  ((rcode r).toNat, r.length) ∈ responseTable

theorem inResponseTable_of {r : Response} (code : BitVec 4) (n : Nat) (hcode : rcode r = code) (hlen : r.length = n)
    (hpair : (code.toNat, n) ∈ responseTable) : InResponseTable r := by
  rwa [InResponseTable, hcode, hlen]

theorem respDone_inTable : InResponseTable respDone :=
  inResponseTable_of 0x0#4 1 rcode_respDone rfl (by decide)

theorem respRecord_inTable (ch : Chan) (ver : Version) (r : Record) : InResponseTable (respRecord ch ver r) := by
  have hcode := rcode_respRecord ch ver r
  cases r with
  | sysv => exact inResponseTable_of 0x1#4 3 hcode rfl (by decide)
  | slave => exact inResponseTable_of 0x2#4 3 hcode rfl (by decide)
  | cmd => exact inResponseTable_of 0x3#4 5 hcode rfl (by decide)

theorem respOutcome_inTable (ch : Chan) (ver : Version) (dir : Direction) (out : FrameOutcome) :
    InResponseTable (respOutcome ch ver dir out) := by
  have hcode := rcode_respOutcome ch ver dir out
  cases out with
  | record r => exact respRecord_inTable ch ver r
  | lengthMismatch | markerError => exact inResponseTable_of 0x5#4 1 hcode rfl (by decide)
  | checksumError => exact inResponseTable_of 0x4#4 1 hcode rfl (by decide)

/-- A constructed frame has 9 bytes in V1 and 10 in V2 (43_field_encode.md R352, R353): three packed words. -/
theorem respFrame_buildFrame_length (ver : Version) (mode : BitVec 2) (start : Bool) (maxv minv cur : Int) :
    (respFrame (buildFrame ver mode start maxv minv cur)).length = 4 := by
  cases ver <;> rfl

/-- The answer of a command that only answers (`answerOf`). -/
theorem answerOf_inTable {i : Instr} {s : State} {r : Response} (h : answerOf i s = some r) : InResponseTable r := by
  cases i with
  | decode =>
    obtain rfl := Option.some.inj h
    exact respOutcome_inTable ..
  | encode ver mode start maxv minv cur =>
    obtain rfl := Option.some.inj h
    cases rangeCheck ver mode (sext32 maxv) (sext32 minv) (sext32 cur) with
    | some field => exact inResponseTable_of 0x7#4 1 (rcode_respRangeErr field) rfl (by decide)
    | none => exact inResponseTable_of 0x6#4 4 (rcode_respFrame _) (respFrame_buildFrame_length ..) (by decide)
  | readStats c =>
    obtain rfl := Option.some.inj h
    exact inResponseTable_of 0x8#4 5 (rcode_respStats ..) rfl (by decide)
  | readCfg =>
    obtain rfl := Option.some.inj h
    exact inResponseTable_of 0x9#4 1 (rcode_respCfg _) rfl (by decide)
  | reserved =>
    obtain rfl := Option.some.inj h
    exact inResponseTable_of 0xF#4 1 (rcode_respIllegal _) rfl (by decide)
  | feed | resetAsm | resetStats | resetCh | writeCfg | frameSysv | frameSlave | frameCmdV1 | frameCmdV2 =>
    exact nomatch h

theorem feedByte_responds {c : Chan} {b : Byte} {s t : State} (h : feedByte c b s = .next t) :
    ∃ r, t.sent = s.sent ++ [r] ∧ InResponseTable r := by
  obtain ⟨buf, ev, -, rfl⟩ := feedByte_next h
  refine ⟨_, feedDone_sent c buf ev s, ?_⟩
  cases ev with
  | none => exact respDone_inTable
  | some out => exact respOutcome_inTable c s.cfg.ver s.cfg.rxdir out

theorem answerOf_responds {i : Instr} {s t : State} {a : Response} (ha : answerOf i s = some a)
    (h : exec i s = .next t) : ∃ r, t.sent = s.sent ++ [r] ∧ InResponseTable r := by
  obtain rfl := Host.Outcome.next.inj ((exec_of_answerOf ha).symm.trans h)
  exact ⟨a, rfl, answerOf_inTable ha⟩

/-- Settles O17: a FEED by its event, a command that only answers by its answer, every other by its DONE. -/
theorem oneResponsePerCommand : Obligations.OneResponsePerCommand := by
  intro i s t h
  cases i with
  | frameSysv | frameSlave | frameCmdV1 | frameCmdV2 => trivial
  | feed => exact feedByte_responds h
  | decode | encode | readStats | readCfg | reserved => exact answerOf_responds rfl h
  | resetAsm | resetStats | resetCh | writeCfg =>
    refine ⟨respDone, ?_, respDone_inTable⟩
    rw [exec_next h]
    simp

/-! ## Responses as numbers -/

theorem eq_ofNat_of_toNat {n x : Nat} {v : BitVec n} (h : v.toNat = x) : v = BitVec.ofNat n x := by
  rw [← h, BitVec.ofNat_toNat, BitVec.setWidth_eq]

theorem byteWord_eq (b : Byte) : 0#24 ++ b = BitVec.ofNat 32 b.toNat :=
  eq_ofNat_of_toNat (by rw [append_toNat, BitVec.toNat_ofNat]; omega)

theorem halfWord_eq (v : Half) : 0#16 ++ v = BitVec.ofNat 32 v.toNat :=
  eq_ofNat_of_toNat (by rw [append_toNat, BitVec.toNat_ofNat]; omega)

theorem sysvWord_eq (c : Chan) (ver : Version) (chan : BitVec 2) (f1 : Byte) (raw : Half) :
    0x1#4 ++ c.bit ++ ver.bit ++ chan ++ f1 ++ raw =
      BitVec.ofNat 32 (0x10000000 + 0x08000000 * chanNat c + 0x04000000 * verNat ver + 0x01000000 * chan.toNat +
        0x10000 * f1.toNat + raw.toNat) := by
  apply eq_ofNat_of_toNat
  simp only [append_toNat, chan_bit_toNat, version_bit_toNat, BitVec.toNat_ofNat]
  omega

theorem slaveWord_eq (c : Chan) (ver : Version) (dab : Bool) (f1 : Byte) (raw : Half) :
    0x2#4 ++ c.bit ++ ver.bit ++ flagBit dab ++ 0#1 ++ f1 ++ raw =
      BitVec.ofNat 32 (0x20000000 + 0x08000000 * chanNat c + 0x04000000 * verNat ver + 0x02000000 * bitNat dab +
        0x10000 * f1.toNat + raw.toNat) := by
  apply eq_ofNat_of_toNat
  simp only [append_toNat, chan_bit_toNat, version_bit_toNat, flagBit_toNat, BitVec.toNat_ofNat]
  omega

theorem cmdWord_eq (c : Chan) (ver : Version) (modeValid : Bool) (mode : BitVec 2) (start : Bool) (f1 : Byte) :
    0x3#4 ++ c.bit ++ ver.bit ++ flagBit modeValid ++ mode ++ flagBit start ++ 0#14 ++ f1 =
      BitVec.ofNat 32 (0x30000000 + 0x08000000 * chanNat c + 0x04000000 * verNat ver +
        0x02000000 * bitNat modeValid + 0x00800000 * mode.toNat + 0x00400000 * bitNat start + f1.toNat) := by
  apply eq_ofNat_of_toNat
  simp only [append_toNat, chan_bit_toNat, version_bit_toNat, flagBit_toNat, BitVec.toNat_ofNat]
  omega

theorem ckfailWord_eq (c : Chan) (ver : Version) (dir : Direction) (computed received : Byte) :
    0x4#4 ++ c.bit ++ ver.bit ++ dir.bit ++ 0#9 ++ computed ++ received =
      BitVec.ofNat 32 (0x40000000 + 0x08000000 * chanNat c + 0x04000000 * verNat ver + 0x02000000 * dirNat dir +
        0x100 * computed.toNat + received.toNat) := by
  apply eq_ofNat_of_toNat
  simp only [append_toNat, chan_bit_toNat, version_bit_toNat, direction_bit_toNat, BitVec.toNat_ofNat]
  omega

theorem malformedWord_eq (c : Chan) (ver : Version) (dir : Direction) {len : Nat} (stxbad etxbad : Bool)
    (reason : BitVec 4) (hlen : len ≤ 255) :
    0x5#4 ++ c.bit ++ ver.bit ++ dir.bit ++ 0#9 ++ BitVec.ofNat 8 len ++ 0#2 ++ flagBit stxbad ++ flagBit etxbad ++
        reason =
      BitVec.ofNat 32 (0x50000000 + 0x08000000 * chanNat c + 0x04000000 * verNat ver + 0x02000000 * dirNat dir +
        0x100 * len + 0x20 * bitNat stxbad + 0x10 * bitNat etxbad + reason.toNat) := by
  apply eq_ofNat_of_toNat
  simp only [append_toNat, chan_bit_toNat, version_bit_toNat, direction_bit_toNat, flagBit_toNat, BitVec.toNat_ofNat]
  omega

/-- Settles O42: one lemma for each first word; the outcomes' responses are these by definition. -/
theorem recordResponseLayouts : Obligations.RecordResponseLayouts := by
  intro c ver f1 f4 raw
  refine ⟨fun chan volt => ?_, fun dab curr => ?_, fun start modeValid mode maxv minv curc => ?_, fun _ _ => rfl,
    fun dir computed received => ⟨rfl, ?_⟩, fun dir len stxbad etxbad reason => ⟨rfl, rfl, fun hlen => ?_⟩⟩
  · rw [respRecord, sysvWord_eq, byteWord_eq, i32]
  · rw [respRecord, slaveWord_eq, byteWord_eq, i32]
  · rw [respRecord, cmdWord_eq, halfWord_eq, i32, i32, i32]
  · rw [respCkfail, ckfailWord_eq]
  · rw [respMalformed, malformedWord_eq c ver dir stxbad etxbad reason hlen]

/-! ## The assembler -/

/-- The words that the assembler writes for a well-formed command decode to it. -/
theorem decode_commandWords {i : Instr} {ws : List Word} (hwf : i.wf = true) (henc : encode i = .words ws) :
    decode (.words (commandWords i)) = .ok i := by
  rw [commandWords, henc, ← henc]
  exact decodeOfEncode i hwf

theorem fitsWord_iff {x : Int} : fitsWord x = true ↔ -2 ^ 31 ≤ x ∧ x ≤ 2 ^ 31 - 1 := by
  rw [fitsWord, decide_eq_true_iff]
  norm_num

/-- An integer that fits an operand word survives it (R159). -/
theorem toInt_ofInt_of_fits {x : Int} (h : fitsWord x = true) : (BitVec.ofInt 32 x).toInt = x := by
  obtain ⟨hlo, hhi⟩ := fitsWord_iff.mp h
  rw [BitVec.toInt_ofInt, Int.bmod_eq_of_le] <;> omega

/-- Settles O55: both lines assemble to the encoding of their instruction, which decodes to it by O1. -/
theorem assembledLinesDecode : Obligations.AssembledLinesDecode := by
  intro ver start mode maxv minv cur dir bs
  constructor
  · split_ifs with h
    · obtain ⟨h1, h2, h3, h4, h5, h6⟩ := h
      have hmax : fitsWord maxv = true := fitsWord_iff.mpr ⟨h1, h2⟩
      have hmin : fitsWord minv = true := fitsWord_iff.mpr ⟨h3, h4⟩
      have hcur : fitsWord cur = true := fitsWord_iff.mpr ⟨h5, h6⟩
      exact ⟨_, _, _, _, by rw [assemble, hmax, hmin, hcur]; rfl, decode_commandWords rfl rfl,
        toInt_ofInt_of_fits hmax, toInt_ofInt_of_fits hmin, toInt_ofInt_of_fits hcur⟩
    · rw [assemble, if_neg]
      simpa only [Bool.and_eq_true, fitsWord_iff, and_assoc] using h
  · split_ifs with h
    · exact ⟨_, if_pos h, decode_commandWords (decide_eq_true h) rfl⟩
    · exact if_neg h

end Sys2Proof.Machine
end

section
/-! PROOFS of the statements of 40_frame_assembler.md: what one FEED does (R202, R204 to R207), RESET_ASM (R203), the invariant
of R211, a series of FEEDs against the loop over the whole sequence (R213), and what follows for frames among noise (R214)
and behind a false STX (R215). -/

namespace Sys2Proof.Machine

/-! ## Writes to one channel -/

/-- Replacing the slice of a channel and answering writes nothing else (10_state.md R63). -/
theorem outsideKept_setSlice_respond (c : Chan) (s : State) (x : Slice) (r : Response) :
    outsideKept c s ((s.setSlice c x).respond r) :=
  ⟨by simp, fun d hd => by rw [respond_slice, setSlice_slice_other s x hd], by simp, by simp, by simp⟩

/-- A run of FEEDs writes nothing outside its channel. -/
theorem feedAll_outsideKept {c : Chan} {bs : List Byte} {s t : State} (h : feedAll c bs s = .next t) :
    outsideKept c s t := by
  obtain ⟨hcfg, hin, hts, hlink, hother⟩ := feedAll_frame h
  exact ⟨hcfg, hother, hin, hts, hlink⟩

/-! ## RESET_ASM -/

/-- The word of a command whose only operand is the channel, as a number (30_encoding.md R155). -/
theorem channelWord_eq_ofNat (op : BitVec 4) (c : Chan) :
    channelWord op c = BitVec.ofNat 32 (0x10000000 * op.toNat + 0x08000000 * chanNat c) := by
  apply eq_ofNat_of_toNat
  simp only [channelWord, append_toNat, chan_bit_toNat, BitVec.toNat_ofNat]
  omega

/-- Settles O28: the number of R155 is the encoder's word, and RESET_ASM replaces one slice and answers. -/
theorem resetAsmResult : Obligations.ResetAsmResult := by
  intro s c
  have hdecode := decode_channelWord (k := .resetAsm) (mk := Instr.resetAsm) rfl (fun _ => rfl) (fun _ => rfl) c
  rw [channelWord_eq_ofNat] at hdecode
  exact ⟨hdecode, _, rfl, outsideKept_setSlice_respond c s _ _, by simp [respDone], by simp [Slice.withBuf]⟩

/-! ## The invariant -/

/-- The invariant on one slice: R211 on its buffer, and no count of a candidate while `seen` is 0. -/
def SliceInv (cfg : Cfg) (x : Slice) : Prop :=
  bufInv cfg.rxLen x.buf ∧ seenInv x

/-- The invariant of a state is the one on each of its slices. -/
theorem inv_iff {s : State} : Inv s ↔ ∀ c, SliceInv s.cfg (s.slice c) := by
  constructor
  · rintro ⟨⟨hbuf0, hbuf1⟩, hseen0, hseen1⟩ c
    cases c with
    | ch0 => exact ⟨hbuf0, hseen0⟩
    | ch1 => exact ⟨hbuf1, hseen1⟩
  · intro h
    obtain ⟨hbuf0, hseen0⟩ := h .ch0
    obtain ⟨hbuf1, hseen1⟩ := h .ch1
    exact ⟨⟨hbuf0, hbuf1⟩, hseen0, hseen1⟩

/-- A state whose slices are at their reset values meets the invariant. -/
theorem inv_of_slices_reset {s : State} (h : ∀ c, s.slice c = Slice.reset) : Inv s :=
  inv_iff.mpr fun c => by
    rw [h c]
    exact ⟨.inl rfl, fun _ => ⟨rfl, rfl, rfl⟩⟩

/-- Settles O10. -/
theorem invariantAtReset : Obligations.InvariantAtReset :=
  inv_of_slices_reset fun c => by cases c <;> rfl

/-- A candidate sets `seen`, and a malformed one leaves `ok`, `ckf` and `last_ts` alone (44_channel_stats.md R401). -/
theorem statsUpdateIf_seenInv {x : Slice} (h : seenInv x) (ev : Option FrameOutcome) (ts : Word) :
    seenInv (statsUpdateIf ev ts x) := by
  cases ev with
  | none => exact h
  | some out =>
    cases out with
    | record | checksumError => exact fun hseen => nomatch hseen
    | lengthMismatch | markerError => exact h

/-- A write of one slice keeps the invariant if the new slice meets it. -/
theorem inv_setSlice_respond {s : State} (hs : Inv s) (c : Chan) {x : Slice} (hx : SliceInv s.cfg x) (r : Response) :
    Inv ((s.setSlice c x).respond r) := by
  refine inv_iff.mpr fun d => ?_
  rw [respond_cfg, setSlice_cfg, respond_slice]
  by_cases hd : d = c
  · rw [hd, setSlice_slice_same]
    exact hx
  · rw [setSlice_slice_other s x hd]
    exact inv_iff.mp hs d

/-- Every FEED keeps the invariant. -/
theorem feedByte_inv {c : Chan} {b : Byte} {s t : State} (hs : Inv s) (h : feedByte c b s = .next t) : Inv t := by
  have hbuf := feedByte_bufInv h
  obtain ⟨buf, ev, -, rfl⟩ := feedByte_next h
  have hseen : seenInv ((s.slice c).withBuf buf) := (inv_iff.mp hs c).2
  exact inv_setSlice_respond hs c ⟨by simpa using hbuf, statsUpdateIf_seenInv hseen ev s.tsIn⟩ _

/-- So does a run of them. -/
theorem feedAll_inv {c : Chan} {bs : List Byte} {s t : State} (hs : Inv s) (h : feedAll c bs s = .next t) : Inv t :=
  feedAll_induct (fun _ _ _ => feedByte_inv) bs s t hs h

/-- A new configuration keeps the expected length or empties the buffer (45_configuration.md R451). -/
theorem sliceInv_bufAfterCfg {old : Cfg} {x : Slice} (h : SliceInv old x) (new : Cfg) :
    SliceInv new (bufAfterCfg old new x) := by
  obtain ⟨hbuf, hseen⟩ := h
  unfold bufAfterCfg
  split_ifs with hchange
  · exact ⟨.inl rfl, hseen⟩
  · obtain ⟨hver, hdir⟩ : new.ver = old.ver ∧ new.rxdir = old.rxdir := by simpa using hchange
    have hlen : new.rxLen = old.rxLen := by rw [Cfg.rxLen, Cfg.rxLen, hver, hdir]
    exact ⟨hlen ▸ hbuf, hseen⟩

/-- Every instruction keeps the invariant. -/
theorem exec_inv {i : Instr} {s t : State} (hs : Inv s) (h : exec i s = .next t) : Inv t := by
  have ht := exec_next h
  cases i with
  | feed => exact feedByte_inv hs ht
  | frameSysv | frameSlave | frameCmdV1 | frameCmdV2 => exact feedAll_inv hs ht
  | decode | encode | readStats | readCfg | reserved =>
    subst ht
    exact hs
  | resetAsm c =>
    subst ht
    exact inv_setSlice_respond hs c (x := (s.slice c).withBuf []) ⟨.inl rfl, (inv_iff.mp hs c).2⟩ _
  | resetStats c =>
    subst ht
    exact inv_setSlice_respond hs c (x := (s.slice c).clearStats) ⟨(inv_iff.mp hs c).1, fun _ => ⟨rfl, rfl, rfl⟩⟩ _
  | resetCh c =>
    subst ht
    exact inv_setSlice_respond hs c (x := ((s.slice c).withBuf []).clearStats) ⟨.inl rfl, fun _ => ⟨rfl, rfl, rfl⟩⟩ _
  | writeCfg =>
    subst ht
    refine inv_iff.mpr fun c => ?_
    rw [respond_slice, setCfg_slice]
    exact sliceInv_bufAfterCfg (inv_iff.mp hs c) _

/-- Settles O11: a step runs an instruction or FEEDs, resets, refuses, or does nothing (`step_next`). -/
theorem invariantKeptByStep : Obligations.InvariantKeptByStep := by
  intro s t hs h
  obtain ⟨-, rfl⟩ | ⟨_, _, -, rfl⟩ | ⟨_, _, _, _, -, -, rfl⟩ | ⟨_, ts, rest, _, -, -, hexec⟩ |
    ⟨link, _, ts, rest, -, hfeed⟩ := step_next h
  · exact hs
  · exact inv_of_slices_reset fun c => by cases c <;> rfl
  · exact hs
  · exact exec_inv (s := s.accept rest ts) hs hexec
  · exact feedAll_inv (s := s.acceptWire rest link ts) hs hfeed

/-! ## One FEED -/

/-- Behind a buffer that meets R211 a byte finds STX in front, unless the buffer is empty and the byte is another. -/
theorem byteAt_front_eq_stx {len : Nat} {buf : List Byte} {b : Byte} (hinv : bufInv len buf)
    (h : ¬ (buf = [] ∧ b ≠ Config.stx)) : byteAt (buf ++ [b]) 0 = Config.stx := by
  cases buf with
  | nil => simpa using h
  | cons a rest => exact (hinv.resolve_left (List.cons_ne_nil a rest)).1

/-- The count of a framed candidate: in `ckf` if its checksum is checked and wrong, else in `ok` (44_channel_stats.md
R401). -/
theorem statsUpdate_framed {cfg : Cfg} {f : List Byte} (hf : framed cfg f) (ts : Word) (x : Slice) :
    statsUpdate (candidateOutcome cfg f) ts x =
      if cfg.cken = true ∧ cks f ≠ cksByte f then { x with ckf := satInc x.ckf, lastTs := ts, seen := true }
      else { x with ok := satInc x.ok, lastTs := ts, seen := true } := by
  rw [candidateOutcome_framed hf]
  split_ifs <;> rfl

/-- Settles O22: the four cases of the scan, one `feedByte_…` rule for each. -/
theorem feedResult : Obligations.FeedResult := by
  intro s c b hinv
  have hframe (buf ev) : outsideKept c s (feedDone c buf ev s) := outsideKept_setSlice_respond c s _ _
  by_cases hgarbage : (s.slice c).buf = [] ∧ b ≠ Config.stx
  · refine ⟨_, feedByte_garbage hgarbage.1 hgarbage.2, hframe _ _, ?_⟩
    rw [if_pos hgarbage, feedDone_slice_same, feedDone_sent, ← hgarbage.1]
    exact ⟨rfl, rfl⟩
  have hstx := byteAt_front_eq_stx hinv hgarbage
  by_cases hopen : (s.slice c).buf.length + 1 < s.cfg.rxLen
  · refine ⟨_, feedByte_open hinv hstx hopen, hframe _ _, ?_⟩
    rw [if_neg hgarbage, if_pos hopen, feedDone_slice_same, feedDone_sent]
    exact ⟨rfl, rfl⟩
  have hpos := rxLen_pos s.cfg
  have hne : (s.slice c).buf ≠ [] := fun hnil => hopen (by rw [hnil, List.length_nil]; omega)
  obtain ⟨-, hlt⟩ := hinv.resolve_left hne
  have hlen : (s.slice c).buf.length + 1 = s.cfg.rxLen := by omega
  by_cases hetx : b = Config.etx
  · have hframed : framed s.cfg ((s.slice c).buf ++ [b]) :=
      ⟨by simpa using hlen, hstx, by simpa [byteAt_append_length] using hetx⟩
    refine ⟨_, feedByte_taken hinv hstx hopen hetx, hframe _ _, ?_⟩
    rw [if_neg hgarbage, if_neg hopen, if_pos hetx, feedDone_slice_same, feedDone_sent, statsUpdateIf_some,
      statsUpdate_framed hframed]
    refine ⟨rfl, ?_⟩
    split_ifs <;> rfl
  · refine ⟨_, feedByte_rejected hinv hstx hopen hetx, hframe _ _, ?_⟩
    rw [if_neg hgarbage, if_neg hopen, if_neg hetx, feedDone_slice_same, feedDone_sent, List.tail_append_of_ne_nil hne]
    exact ⟨rfl, rfl⟩

/-! ## A series of FEEDs and the loop over the whole sequence -/

theorem newResponses_of_sent {s t : State} {rs : List Response} (h : t.sent = s.sent ++ rs) : newResponses s t = rs := by
  rw [newResponses, h, List.drop_left]

/-- The response of a FEED reports its event, if it has one. -/
theorem eventResponses_respEvent_cons (cfg : Cfg) (c : Chan) (ev : Option FrameOutcome) (rs : List Response) :
    eventResponses (respEvent cfg c ev :: rs) = ev.toList.map (respOutcome c cfg.ver cfg.rxdir) ++ eventResponses rs := by
  cases ev with
  | none => exact eventResponses_done_cons rs
  | some out => exact eventResponses_outcome_cons c cfg.ver cfg.rxdir out rs

/-- Counting an event of a FEED first, then those of the FEEDs after it. -/
theorem statsUpdates_toList_append (ev : Option FrameOutcome) (evs : List FrameOutcome) (ts : Word) (x : Slice) :
    statsUpdates (ev.toList ++ evs) ts x = statsUpdates evs ts (statsUpdateIf ev ts x) := by
  cases ev <;> rfl

/-- The statistics update neither reads nor writes the buffer. -/
theorem statsUpdateIf_withBuf (ev : Option FrameOutcome) (ts : Word) (x : Slice) (buf : List Byte) :
    statsUpdateIf ev ts (x.withBuf buf) = (statsUpdateIf ev ts x).withBuf buf := by
  cases ev with
  | none => rfl
  | some out => cases out <;> rfl

/-- A run of FEEDs delivers one response for each byte, those that report an event are the loop's events in order, and it
leaves the loop's buffer with those events counted (R213). -/
theorem feedAll_stream {c : Chan} :
    ∀ (bs : List Byte) {s t : State}, bufInv s.cfg.rxLen (s.slice c).buf → feedAll c bs s = .next t →
      t.slice c = statsUpdates (streamFeed s.cfg (s.slice c).buf bs).2 s.tsIn
          ((s.slice c).withBuf (streamFeed s.cfg (s.slice c).buf bs).1) ∧
        ∃ rs, t.sent = s.sent ++ rs ∧ rs.length = bs.length ∧
          eventResponses rs = (streamFeed s.cfg (s.slice c).buf bs).2.map (respOutcome c s.cfg.ver s.cfg.rxdir)
  | [], s, t, hinv, h => by
    obtain rfl : s = t := by simpa using h
    rw [streamFeed_nil hinv]
    exact ⟨rfl, [], by simp, rfl, rfl⟩
  | b :: bs, s, t, hinv, h => by
    obtain ⟨s', hfeed, hrest⟩ := feedAll_cons_inv h
    obtain ⟨hslice, rs, hsent, hlen, hevents⟩ := feedAll_stream bs (feedByte_bufInv hfeed) hrest
    obtain ⟨buf, ev, hscan, rfl⟩ := feedByte_next hfeed
    simp only [feedDone_cfg, feedDone_tsIn, feedDone_sent, feedDone_slice_same, statsUpdateIf_buf, withBuf_buf]
      at hslice hsent hevents
    rw [feedScan_stream hscan bs]
    refine ⟨?_, respEvent s.cfg c ev :: rs, by simp [hsent], by simp [hlen], ?_⟩
    · rw [hslice, statsUpdates_toList_append, ← statsUpdateIf_withBuf, withBuf_withBuf]
    · rw [eventResponses_respEvent_cons, hevents, List.map_append]

/-- A run of FEEDs on a channel whose buffer meets R211 makes of it what the loop makes of the whole sequence. -/
theorem feedAll_receivedAs {c : Chan} {bs : List Byte} {s t : State} (hinv : bufInv s.cfg.rxLen (s.slice c).buf)
    (h : feedAll c bs s = .next t) : receivedAs c bs s t := by
  obtain ⟨hslice, rs, hsent, hlen, hevents⟩ := feedAll_stream bs hinv h
  rw [receivedAs, newResponses_of_sent hsent]
  exact ⟨hslice, hlen, hevents, feedAll_outsideKept h⟩

/-- Settles O24. -/
theorem feedSeriesEqualsLoop : Obligations.FeedSeriesEqualsLoop := by
  intro s c bs hinv
  obtain ⟨t, ht⟩ := feedAll_completes bs s hinv
  obtain ⟨hslice, hlen, hevents, -⟩ := feedAll_receivedAs hinv ht
  exact ⟨t, ht, hslice, hevents, hlen⟩

/-! ## The loop on noise and frames -/

/-- From an empty buffer the loop is the one with any fuel that is enough. -/
theorem streamFeed_eq_streamScan {cfg : Cfg} {bs : List Byte} {n : Nat} (h : bs.length ≤ n) :
    streamFeed cfg [] bs = streamScan cfg n bs :=
  streamScan_fuel cfg _ n bs (by simp) h

/-- A pass that drops a byte, as an equation of the loop without fuel. -/
theorem streamFeed_of_drop {cfg : Cfg} {bs rest : List Byte} (h : scanStep cfg bs = .drop rest) :
    streamFeed cfg [] bs = streamFeed cfg [] rest := by
  have hshort := scanStep_shortens cfg bs
  simp only [h] at hshort
  rw [streamFeed_eq_streamScan (Nat.le_succ _), streamFeed_eq_streamScan hshort.le, streamScan_succ]
  simp only [h]

/-- A pass that gives an event, as an equation of the loop without fuel. -/
theorem streamFeed_of_event {cfg : Cfg} {bs rest : List Byte} {e : FrameOutcome} (h : scanStep cfg bs = .event e rest) :
    streamFeed cfg [] bs = ((streamFeed cfg [] rest).1, e :: (streamFeed cfg [] rest).2) := by
  have hshort := scanStep_shortens cfg bs
  simp only [h] at hshort
  rw [streamFeed_eq_streamScan (Nat.le_succ _), streamFeed_eq_streamScan hshort.le, streamScan_succ]
  simp only [h]

/-- Noise in front is dropped (R205). -/
theorem streamFeed_noise_append {cfg : Cfg} (more : List Byte) :
    ∀ {noise : List Byte}, noStx noise → streamFeed cfg [] (noise ++ more) = streamFeed cfg [] more
  | [], _ => rfl
  | b :: noise, h => by
    obtain ⟨hb, hnoise⟩ := List.forall_mem_cons.mp h
    exact (streamFeed_of_drop (scanStep_drop cfg _ hb)).trans (streamFeed_noise_append more hnoise)

/-- A framed candidate in front is taken whole, and the loop goes on behind it (R207). -/
theorem scanStep_framed_append {cfg : Cfg} {f : List Byte} (hf : framed cfg f) (more : List Byte) :
    scanStep cfg (f ++ more) = .event (candidateOutcome cfg f) more := by
  obtain ⟨hlen, hstx, hetx⟩ := hf
  have hpos := rxLen_pos cfg
  cases f with
  | nil => simp only [List.length_nil] at hlen; omega
  | cons a rest =>
    obtain rfl : a = Config.stx := hstx
    have hat : byteAt (Config.stx :: (rest ++ more)) (cfg.rxLen - 1) = Config.etx := by
      rw [← hlen, ← List.cons_append, byteAt_append_left _ _ (by simp), hetx]
    rw [List.cons_append, scanStep_take cfg _ (by simp at hlen ⊢; omega) hat, ← List.cons_append, ← hlen,
      List.take_left, List.drop_left]

/-- A valid frame in front yields its record (R214). -/
theorem streamFeed_valid_append {cfg : Cfg} {f : List Byte} (hf : validFrame cfg f) (more : List Byte) :
    streamFeed cfg [] (f ++ more) =
      ((streamFeed cfg [] more).1, .record (cfgRecord cfg f) :: (streamFeed cfg [] more).2) := by
  rw [streamFeed_of_event (scanStep_framed_append hf.1 more), candidateOutcome_valid hf]

/-- Valid frames among noise yield their records and leave nothing (R214). -/
theorem streamFeed_frames_among_noise {cfg : Cfg} {noise : List Byte} (hnoise : noStx noise) :
    ∀ {parts : List (List Byte × List Byte)}, (∀ p ∈ parts, noStx p.1 ∧ validFrame cfg p.2) →
      streamFeed cfg [] (parts.flatMap (fun p => p.1 ++ p.2) ++ noise) =
        ([], (parts.map fun p => cfgRecord cfg p.2).map .record)
  | [], _ => by
    have h := streamFeed_noise_append (cfg := cfg) [] hnoise
    rwa [List.append_nil] at h
  | p :: parts, h => by
    obtain ⟨⟨hp, hf⟩, hparts⟩ := List.forall_mem_cons.mp h
    rw [List.flatMap_cons, List.append_assoc, List.append_assoc, streamFeed_noise_append _ hp,
      streamFeed_valid_append hf, streamFeed_frames_among_noise hnoise hparts]
    rfl

/-- Records count in `ok` alone. -/
theorem statsUpdates_records (ts : Word) :
    ∀ (rs : List Record) (x : Slice),
      (statsUpdates (rs.map .record) ts x).buf = x.buf ∧ (statsUpdates (rs.map .record) ts x).ckf = x.ckf ∧
        (statsUpdates (rs.map .record) ts x).mal = x.mal
  | [], _ => ⟨rfl, rfl, rfl⟩
  | r :: rs, x => statsUpdates_records ts rs (statsUpdate (.record r) ts x)

/-- What FEEDs from an empty buffer leave and deliver, by the loop over their bytes. -/
theorem feedAll_of_streamFeed {c : Chan} {s : State} {bs buf : List Byte} {evs : List FrameOutcome}
    (hempty : (s.slice c).buf = []) (hstream : streamFeed s.cfg [] bs = (buf, evs)) :
    ∃ t, feedAll c bs s = .next t ∧ t.slice c = statsUpdates evs s.tsIn ((s.slice c).withBuf buf) ∧
      eventResponses (newResponses s t) = evs.map (respOutcome c s.cfg.ver s.cfg.rxdir) := by
  obtain ⟨t, ht, hslice, hevents, -⟩ := feedSeriesEqualsLoop s c bs (.inl hempty)
  rw [hempty, hstream] at hslice hevents
  exact ⟨t, ht, hslice, hevents⟩

/-- Settles O25: the loop yields the records alone (`streamFeed_frames_among_noise`), and the FEEDs yield what it yields. -/
theorem garbageResilience : Obligations.GarbageResilience := by
  intro s c parts noise hempty hparts hnoise
  obtain ⟨t, ht, hslice, hevents⟩ := feedAll_of_streamFeed hempty (streamFeed_frames_among_noise hnoise hparts)
  obtain ⟨hbuf, hckf, hmal⟩ :=
    statsUpdates_records s.tsIn (parts.map fun p => cfgRecord s.cfg p.2) ((s.slice c).withBuf [])
  rw [← hslice] at hbuf hckf hmal
  refine ⟨t, ht, hbuf, ?_, hckf, hmal⟩
  rw [hevents, List.map_map, List.map_map]
  rfl

/-- A false STX is rejected and dropped, the noise behind it is dropped, the frame behind that is taken (R204, R205, R207). -/
theorem streamFeed_falseStx {cfg : Cfg} {noise f : List Byte} (hnoise : noStx noise) (hf : validFrame cfg f)
    (hetx : byteAt (Config.stx :: (noise ++ f)) (cfg.rxLen - 1) ≠ Config.etx) :
    streamFeed cfg [] (Config.stx :: (noise ++ f)) = ([], [rejection cfg, .record (cfgRecord cfg f)]) := by
  have hlen : cfg.rxLen ≤ (noise ++ f).length + 1 := by
    rw [List.length_append, hf.1.1]
    omega
  have hframe := streamFeed_valid_append hf []
  rw [List.append_nil] at hframe
  rw [streamFeed_of_event (scanStep_reject cfg _ hlen hetx), streamFeed_noise_append f hnoise, hframe]
  rfl

/-- Settles O26: the loop yields the rejection and the record (`streamFeed_falseStx`), and the FEEDs yield what it yields. -/
theorem falseStxThenFrameFound : Obligations.FalseStxThenFrameFound := by
  intro s c noise f hempty hnoise hf hetx
  obtain ⟨t, ht, hslice, hevents⟩ := feedAll_of_streamFeed hempty (streamFeed_falseStx hnoise hf hetx)
  exact ⟨t, ht, by rw [hslice]; rfl, hevents, by rw [hslice]; rfl, by rw [hslice]; rfl⟩

end Sys2Proof.Machine
end

section
/-! PROOFS of the statements of 41_checksum.md: the checksum as a sum (R250), what one changed byte does to it (R254), what it
does not see (R255), and the markers, which it does not cover (R256). -/

namespace Sys2Proof.Machine

/-! ## Replacing one byte of a frame -/

theorem byteAt_set_self {f : List Byte} {k : Nat} (hk : k < f.length) (b : Byte) : byteAt (f.set k b) k = b := by
  simp [byteAt, List.getD_eq_getElem?_getD, hk]

theorem byteAt_set_other (f : List Byte) {k i : Nat} (h : k ≠ i) (b : Byte) : byteAt (f.set k b) i = byteAt f i := by
  simp [byteAt, List.getD_eq_getElem?_getD, h]

/-- A replaced byte between the markers leaves a frame's length and markers as they are. -/
theorem framed_set {cfg : Cfg} {f : List Byte} (hf : framed cfg f) {k : Nat} (hk : 1 ≤ k) (hkn : k ≤ f.length - 2)
    (b : Byte) : framed cfg (f.set k b) := by
  obtain ⟨hlen, hstx, hetx⟩ := hf
  refine ⟨by simpa using hlen, ?_, ?_⟩
  · rw [byteAt_set_other f (by omega), hstx]
  · rw [List.length_set, byteAt_set_other f (by omega), hetx]

/-! ## The summed bytes -/

@[simp] theorem payload_length (f : List Byte) : (payload f).length = f.length - 3 := by
  simp only [payload, List.length_take, List.length_drop]
  omega

theorem byteAt_payload {f : List Byte} {k : Nat} (hk : k < f.length - 3) : byteAt (payload f) k = byteAt f (k + 1) := by
  simp [byteAt, payload, List.getD_eq_getElem?_getD, hk]

theorem payload_set_zero (f : List Byte) (b : Byte) : payload (f.set 0 b) = payload f := by
  simp [payload, List.drop_set]

theorem payload_set_succ (f : List Byte) (k : Nat) (b : Byte) : payload (f.set (k + 1) b) = (payload f).set k b := by
  rw [payload, List.length_set, List.drop_set, if_neg (by omega), List.take_set, Nat.add_sub_cancel, payload]

/-- The bytes from the checksum byte on are not summed. -/
theorem payload_set_of_le {f : List Byte} {k : Nat} (hk : f.length - 2 ≤ k + 1) (b : Byte) :
    payload (f.set (k + 1) b) = payload f := by
  rw [payload_set_succ, List.set_eq_of_length_le (by rw [payload_length]; omega)]

theorem payload_around (a k e : Byte) (body : List Byte) : payload (a :: (body ++ [k, e])) = body := by
  simp [payload]

theorem cksByte_around (a k e : Byte) (body : List Byte) : cksByte (a :: (body ++ [k, e])) = k := by
  simp [cksByte, byteAt, List.getD_eq_getElem?_getD]

/-! ## The sum -/

theorem byteSum_cons (b : Byte) (bs : List Byte) : byteSum (b :: bs) = b + byteSum bs := by
  apply BitVec.eq_of_toNat_eq
  simp [byteSum_toNat]

theorem byteSum_eq_iff {p q : List Byte} :
    byteSum p = byteSum q ↔ (p.map BitVec.toNat).sum % 256 = (q.map BitVec.toNat).sum % 256 := by
  rw [← BitVec.toNat_inj, byteSum_toNat, byteSum_toNat]

/-- The sum over a list of bytes, by index. -/
theorem sum_map_toNat_eq_sum_byteAt (bs : List Byte) :
    (bs.map BitVec.toNat).sum = ∑ k ∈ Finset.range bs.length, (byteAt bs k).toNat := by
  rw [Finset.sum_range, ← Fin.sum_univ_fun_getElem]
  simp [byteAt]

/-- One replaced byte shows in the sum: the others cancel (41_checksum.md R254). -/
theorem byteAt_eq_of_byteSum_set {b : Byte} :
    ∀ {bs : List Byte} {k : Nat}, k < bs.length → byteSum (bs.set k b) = byteSum bs → b = byteAt bs k
  | a :: bs, 0, _, h => by
    rw [List.set_cons_zero, byteSum_cons, byteSum_cons] at h
    exact (BitVec.add_left_inj _).mp h
  | a :: bs, k + 1, hk, h => by
    rw [List.set_cons_succ, byteSum_cons, byteSum_cons] at h
    rw [byteAt_cons_succ]
    exact byteAt_eq_of_byteSum_set (Nat.lt_of_succ_lt_succ hk) ((BitVec.add_right_inj _).mp h)

/-- Settles O45: the summed bytes are `f[1..n-3]`, and their sum goes by index. -/
theorem checksumIsByteSum : Obligations.ChecksumIsByteSum := by
  refine ⟨fun f _ => ⟨?_, rfl⟩, fun a e k => ?_⟩
  · rw [cks, byteSum_toNat, sum_map_toNat_eq_sum_byteAt, payload_length]
    congr 1
    exact Finset.sum_congr rfl fun k hk => by rw [byteAt_payload (Finset.mem_range.mp hk)]
  · have hpayload : payload [a, 0x00#8, 0x0B#8, 0xB8#8, 0x00#8, k, e] = [0x00#8, 0x0B#8, 0xB8#8, 0x00#8] := rfl
    rw [cks, hpayload]
    decide

/-! ## The checks of DECODE_FRAME -/

/-- DECODE_FRAME of a frame with its length and markers right: only the checksum decides (41_checksum.md R252). -/
theorem decodeFrame_framed {f : List Byte} {dir : Direction} {ver : Version} {cken : Bool}
    (hf : framed ⟨ver, cken, dir⟩ f) :
    decodeFrame f dir ver cken =
      if cken = true ∧ cks f ≠ cksByte f then .checksumError (cks f) (cksByte f) else .record (recordOf f dir ver) :=
  candidateOutcome_framed hf

/-- A record comes of the frames that pass all three checks, and of no other (42_field_decode.md R301). -/
theorem decodeFrame_eq_record_iff {f : List Byte} {dir : Direction} {ver : Version} {cken : Bool} {r : Record} :
    decodeFrame f dir ver cken = .record r ↔ validFrame ⟨ver, cken, dir⟩ f ∧ recordOf f dir ver = r := by
  constructor
  · intro h
    unfold decodeFrame at h
    split_ifs at h with hlen hmark hcks
    have hmarkers : byteAt f 0 = Config.stx ∧ byteAt f (f.length - 1) = Config.etx := by
      simpa [stxBad, etxBad] using hmark
    exact ⟨⟨⟨not_not.mp hlen, hmarkers⟩, by simpa using hcks⟩, FrameOutcome.record.inj h⟩
  · rintro ⟨⟨hf, hcks⟩, rfl⟩
    rw [decodeFrame_framed hf, if_neg fun hbad => hbad.2 (hcks hbad.1)]

/-- Settles O46: the summed bytes hold neither end of the frame, and the marker check stands before the checksum. -/
theorem markersJudgedBeforeChecksum : Obligations.MarkersJudgedBeforeChecksum := by
  constructor
  · intro f a b hn
    have hlast : f.length - 1 = (f.length - 2) + 1 := by omega
    rw [cks, hlast, payload_set_of_le (by simp), payload_set_zero, cks]
  · intro f dir ver cken hlen hmark
    have hbad : (stxBad f || etxBad f) = true := by simpa [stxBad, etxBad] using hmark
    rw [decodeFrame, if_neg (not_not.mpr hlen), if_pos hbad]
    simp [stxBad, etxBad, bne, beq_eq_decide]

/-! ## One changed byte -/

/-- One changed byte between the markers makes a right checksum wrong: a summed byte changes the sum alone, and the checksum
byte changes itself alone (41_checksum.md R254). -/
theorem cks_ne_cksByte_of_set {f : List Byte} (hcks : cks f = cksByte f) {k : Nat} {b : Byte} (hk : 1 ≤ k)
    (hkn : k ≤ f.length - 2) (hb : b ≠ byteAt f k) : cks (f.set k b) ≠ cksByte (f.set k b) := by
  obtain ⟨i, rfl⟩ := Nat.exists_eq_add_of_le' hk
  rw [cks, cksByte, List.length_set]
  rcases Nat.lt_or_eq_of_le hkn with hlt | heq
  · have hi : i < f.length - 3 := by omega
    rw [byteAt_set_other f hlt.ne, payload_set_succ, ← cksByte, ← hcks]
    intro hsame
    apply hb
    rw [byteAt_eq_of_byteSum_set (by simpa using hi) hsame, byteAt_payload hi]
  · rw [← heq, byteAt_set_self (by omega), payload_set_of_le heq.ge, ← cks, hcks, cksByte, ← heq]
    exact hb.symm

theorem flipped_ne (b : Byte) {j : Nat} (hj : j < 8) : b ^^^ (1#8 <<< j) ≠ b := by
  intro h
  have hbit := congrArg (fun v => v.getLsbD j) h
  simp [hj] at hbit

/-- Settles O47: the flip changes one byte between the markers, so length and markers pass and the checksum does not. -/
theorem singleBitFlipDetected : Obligations.SingleBitFlipDetected := by
  intro f dir ver r k j hrec hk hkn hj
  obtain ⟨⟨hf, hcks⟩, -⟩ := decodeFrame_eq_record_iff.mp hrec
  have hne := flipped_ne (byteAt f k) hj
  have hbyte : byteAt (flipBit f k j) k = byteAt f k ^^^ (1#8 <<< j) := byteAt_set_self (by omega) _
  have hflip : framed ⟨ver, true, dir⟩ (flipBit f k j) := framed_set hf hk hkn _
  have hwrong : cks (flipBit f k j) ≠ cksByte (flipBit f k j) := cks_ne_cksByte_of_set (hcks rfl) hk hkn hne
  refine ⟨?_, ?_, hbyte, hbyte ▸ hne⟩
  · rw [decodeFrame_framed hflip, if_pos ⟨rfl, hwrong⟩]
  · exact decodeFrame_eq_record_iff.mpr ⟨⟨hflip, nofun⟩, rfl⟩

/-! ## What the sum does not see -/

/-- Whether a frame around some bytes passes with the check on is a matter of how many they are and of their sum. -/
theorem validFrame_around_congr {cfg : Cfg} {p q : List Byte} (hlen : p.length = q.length)
    (hsum : byteSum p = byteSum q) {k : Byte} (h : validFrame cfg (Config.stx :: (p ++ [k, Config.etx]))) :
    validFrame cfg (Config.stx :: (q ++ [k, Config.etx])) := by
  obtain ⟨⟨hn, -, -⟩, hcks⟩ := h
  refine ⟨⟨by simpa [hlen] using hn, rfl, ?_⟩, fun hc => ?_⟩
  · simp [byteAt, List.getD_eq_getElem?_getD]
  · have hp := hcks hc
    rw [cks, payload_around, cksByte_around] at hp ⊢
    rw [← hsum, hp]

/-- Settles O48: a reordering keeps the number of bytes and their sum, so both kinds of change are one. -/
theorem checksumBlindSpots : Obligations.ChecksumBlindSpots := by
  intro p q k dir ver hchange ⟨r, hr⟩
  have hsame : p.length = q.length ∧ byteSum p = byteSum q := by
    rcases hchange with hperm | ⟨hlen, hsum⟩
    · exact ⟨hperm.length_eq, byteSum_eq_iff.mpr (by rw [(hperm.map BitVec.toNat).sum_eq])⟩
    · exact ⟨hlen, byteSum_eq_iff.mpr hsum⟩
  obtain ⟨hvalid, -⟩ := decodeFrame_eq_record_iff.mp hr
  exact ⟨_, decodeFrame_eq_record_iff.mpr ⟨validFrame_around_congr hsame.1 hsame.2 hvalid, rfl⟩⟩

end Sys2Proof.Machine
end

section
/-! PROOFS of the statements of 42_field_decode.md: the checks of DECODE_FRAME and the response of DECODE (R301 to R303, R310,
R311), the fields of each layout (R305 to R309), a candidate against DECODE (R312, R315), and the four wire frames received
on a link (40_frame_assembler.md R202, R213). -/

namespace Sys2Proof.Machine

/-! ## Center-offset fields -/

/-- The value of a center-offset field, as a number (R305). -/
theorem co16_eq (r : Half) : co16 r = (r.toNat : Int) - 32768 := rfl

/-- Settles O43. -/
theorem centerOffsetDecoding : Obligations.CenterOffsetDecoding := by
  refine ⟨fun r => ?_, by decide, by decide, by decide, by decide, by decide⟩
  have hr := r.isLt
  rw [co16_eq]
  omega

/-! ## The checks in their order -/

/-- A wrong length is reported before any byte is read (R302). -/
theorem decodeFrame_of_length_ne {f : List Byte} {dir : Direction} {ver : Version} (h : f.length ≠ frameLen dir ver)
    (cken : Bool) : decodeFrame f dir ver cken = .lengthMismatch f.length :=
  if_pos h

/-- A frame of the right length is never reported as one of a wrong length. -/
theorem decodeFrame_ne_lengthMismatch {f : List Byte} {dir : Direction} {ver : Version}
    (h : f.length = frameLen dir ver) (cken : Bool) (n : Nat) : decodeFrame f dir ver cken ≠ .lengthMismatch n := by
  rw [decodeFrame, if_neg (not_not.mpr h)]
  split_ifs <;> nofun

/-- Settles O37: the length decides whether the outcome is LengthMismatch, and then all of it. -/
theorem lengthCheckFirst : Obligations.LengthCheckFirst := by
  intro f g dir ver cken cken'
  refine ⟨⟨fun h => decodeFrame_of_length_ne h cken, fun h hlen => decodeFrame_ne_lengthMismatch hlen cken _ h⟩,
    fun h hg => ?_⟩
  rw [decodeFrame_of_length_ne h, decodeFrame_of_length_ne (hg ▸ h), hg]

/-- DECODE delivers the outcome's response with CH 0 and does nothing else (R310, R311). -/
theorem exec_decode (dir : Direction) (ver : Version) (f : List Byte) (s : State) :
    exec (.decode dir ver f) s = .next (s.respond (respOutcome .ch0 ver dir (decodeFrame f dir ver s.cfg.cken))) :=
  rfl

/-- MALFORMED on channel 0 as a number (30_encoding.md R176). -/
theorem respMalformed_ch0 (ver : Version) (dir : Direction) {len : Nat} (hlen : len ≤ 255) (stxbad etxbad : Bool)
    (reason : BitVec 4) :
    respMalformed .ch0 ver dir len stxbad etxbad reason =
      [BitVec.ofNat 32 (0x50000000 + 0x04000000 * verNat ver + 0x02000000 * dirNat dir + 256 * len +
        32 * bitNat stxbad + 16 * bitNat etxbad + reason.toNat)] := by
  rw [respMalformed, malformedWord_eq .ch0 ver dir stxbad etxbad reason hlen]
  rfl

/-- CKFAIL on channel 0 as a number (30_encoding.md R175). -/
theorem respCkfail_ch0 (ver : Version) (dir : Direction) (computed received : Byte) :
    respCkfail .ch0 ver dir computed received =
      [BitVec.ofNat 32 (0x40000000 + 0x04000000 * verNat ver + 0x02000000 * dirNat dir + 256 * computed.toNat +
        received.toNat)] := by
  rw [respCkfail, ckfailWord_eq]
  rfl

/-- Settles O36: DECODE_FRAME check by check, each outcome with its response word. -/
theorem decodeResult : Obligations.DecodeResult := by
  intro s dir ver f hf
  rw [exec_decode]
  refine congrArg (fun r => Host.Outcome.next (s.respond r)) ?_
  split_ifs with hlen hmark hcks
  · rw [decodeFrame_of_length_ne hlen]
    exact respMalformed_ch0 ver dir hf false false 1#4
  · rw [markersJudgedBeforeChecksum.2 f dir ver s.cfg.cken (not_not.mp hlen) hmark]
    exact respMalformed_ch0 ver dir hf _ _ 2#4
  all_goals
    have hframed : framed ⟨ver, s.cfg.cken, dir⟩ f :=
      ⟨not_not.mp hlen, not_not.mp fun h => hmark (.inl h), not_not.mp fun h => hmark (.inr h)⟩
    rw [decodeFrame_framed hframed]
  · rw [if_pos hcks]
    exact respCkfail_ch0 ver dir (cks f) (cksByte f)
  · rw [if_neg hcks]
    rfl

/-! ## A candidate and DECODE -/

/-- A framed candidate is what stands before its ETX, and ETX. -/
theorem dropLast_append_etx {cfg : Cfg} {f : List Byte} (hf : framed cfg f) : f.dropLast ++ [Config.etx] = f := by
  obtain ⟨hlen, -, hetx⟩ := hf
  have hpos := rxLen_pos cfg
  obtain rfl | ⟨g, e, rfl⟩ := List.eq_nil_or_concat f
  · simp only [List.length_nil] at hlen
    omega
  · simp only [List.concat_eq_append, List.length_append, List.length_singleton, Nat.add_sub_cancel,
      byteAt_append_length] at hetx
    simp [hetx]

/-- What stands before the ETX of a framed candidate is an open candidate (40_frame_assembler.md R211). -/
theorem dropLast_bufInv {cfg : Cfg} {f : List Byte} (hf : framed cfg f) : bufInv cfg.rxLen f.dropLast := by
  have happ := dropLast_append_etx hf
  obtain ⟨hlen, hstx, -⟩ := hf
  have hpos := rxLen_pos cfg
  have hdrop : f.dropLast.length = f.length - 1 := List.length_dropLast
  rw [← happ, byteAt_append_left _ _ (by omega)] at hstx
  exact .inr ⟨hstx, by omega⟩

/-- The FEED of its ETX takes a framed candidate whose other bytes are in the buffer (40_frame_assembler.md R207). -/
theorem feedByte_completes_candidate {c : Chan} {f : List Byte} {s : State} (hf : framed s.cfg f)
    (hbuf : (s.slice c).buf = f.dropLast) :
    feedByte c Config.etx s = .next (feedDone c [] (some (candidateOutcome s.cfg f)) s) := by
  have hinv := hbuf.symm ▸ dropLast_bufInv hf
  have happ : (s.slice c).buf ++ [Config.etx] = f := hbuf.symm ▸ dropLast_append_etx hf
  have hfull : (s.slice c).buf.length + 1 = s.cfg.rxLen := by
    rw [← hf.1, ← happ, List.length_append, List.length_singleton]
  have hfeed := feedByte_taken hinv (happ.symm ▸ hf.2.1) hfull.not_lt rfl
  rwa [happ] at hfeed

/-- Settles O23: FEED and DECODE both judge the candidate by DECODE_FRAME, which it can fail only by its checksum. -/
theorem candidateMatchesDecode : Obligations.CandidateMatchesDecode := by
  intro s c f hf hbuf
  refine ⟨_, _, candidateOutcome s.cfg f, feedByte_completes_candidate hf hbuf, exec_decode _ _ f s,
    feedDone_sent c [] _ s, respond_sent s _, ?_⟩
  rw [candidateOutcome_framed hf]
  split_ifs
  · exact .inr rfl
  · exact .inl rfl

/-! ## A frame around its body -/

theorem length_around (a k e : Byte) (body : List Byte) : (a :: (body ++ [k, e])).length = body.length + 3 := by
  simp

theorem framed_around {cfg : Cfg} {body : List Byte} (hlen : body.length + 3 = cfg.rxLen) (k : Byte) :
    framed cfg (Config.stx :: (body ++ [k, Config.etx])) :=
  ⟨(length_around ..).trans hlen, rfl, by simp [byteAt, List.getD_eq_getElem?_getD]⟩

/-- DECODE_FRAME of a frame of the right length between its markers: the checksum byte against the sum of the body decides
(41_checksum.md R250, R252). -/
theorem decodeFrame_around {body : List Byte} {dir : Direction} {ver : Version}
    (hlen : body.length + 3 = frameLen dir ver) (k : Byte) (cken : Bool) :
    decodeFrame (Config.stx :: (body ++ [k, Config.etx])) dir ver cken =
      if cken = true ∧ k ≠ byteSum body then .checksumError (byteSum body) k
      else .record (recordOf (Config.stx :: (body ++ [k, Config.etx])) dir ver) := by
  rw [decodeFrame_framed (framed_around hlen k), cks, payload_around, cksByte_around]
  simp only [ne_comm]

/-- A right checksum byte, or none checked, gives the record. -/
theorem decodeFrame_around_valid {body : List Byte} {dir : Direction} {ver : Version} {k : Byte} {cken : Bool}
    (hlen : body.length + 3 = frameLen dir ver)
    (hcks : cken = true → k.toNat = (body.map BitVec.toNat).sum % 256) :
    decodeFrame (Config.stx :: (body ++ [k, Config.etx])) dir ver cken =
      .record (recordOf (Config.stx :: (body ++ [k, Config.etx])) dir ver) := by
  rw [decodeFrame_around hlen, if_neg]
  rintro ⟨hcken, hne⟩
  exact hne (BitVec.eq_of_toNat_eq (by rw [byteSum_toNat, hcks hcken]))

/-! ## The fields of each layout, by the frame's bytes -/

/-- ID 0 is a system-voltage frame (R304, R306). -/
theorem recordOf_sysv {f1 : Byte} (hid : idField f1 = 0#5) (f0 f2 f3 f4 : Byte) (rest : List Byte) (ver : Version) :
    recordOf (f0 :: f1 :: f2 :: f3 :: f4 :: rest) .m2s ver =
      .sysv (chanField f1) f1 (be16 f2 f3) (if ver = .v1 then sext16 (be16 f2 f3) else zext16 (be16 f2 f3)) f4 := by
  rw [recordOf, byteAt_cons_succ, byteAt_cons_zero, if_pos hid]
  cases ver <;> simp [sysvFields, halfAt]

/-- Any other ID is a slave-data frame (R304, R307). -/
theorem recordOf_slave {f1 : Byte} (hid : idField f1 ≠ 0#5) (f0 f2 f3 f4 : Byte) (rest : List Byte) (ver : Version) :
    recordOf (f0 :: f1 :: f2 :: f3 :: f4 :: rest) .m2s ver =
      .slave f1 (lowFlag f1) (be16 f2 f3) (if ver = .v1 then sext16 (be16 f2 f3) else co16 (be16 f2 f3)) f4 := by
  rw [recordOf, byteAt_cons_succ, byteAt_cons_zero, if_neg hid]
  cases ver <;> simp [slaveFields, halfAt]

theorem recordOf_cmdV1 (f0 f1 f2 f3 f4 f5 f6 : Byte) (rest : List Byte) :
    recordOf (f0 :: f1 :: f2 :: f3 :: f4 :: f5 :: f6 :: rest) .s2m .v1 =
      .cmd f1 (lowFlag f1) false 0#2 (sext16 (be16 f2 f3)) (sext16 (be16 f4 f5)) (sext8 f6) (0#8 ++ f6) :=
  rfl

theorem recordOf_cmdV2 (f0 f1 f2 f3 f4 f5 f6 f7 : Byte) (rest : List Byte) :
    recordOf (f0 :: f1 :: f2 :: f3 :: f4 :: f5 :: f6 :: f7 :: rest) .s2m .v2 =
      .cmd f1 (lowFlag f1) true (modeField f1) (sext16 (be16 f2 f3)) (sext16 (be16 f4 f5)) (co16 (be16 f6 f7))
        (be16 f6 f7) :=
  rfl

/-- Settles O38: the frame passes its checks, and its fields are numbers of its bytes. -/
theorem sysvFrameFields : Obligations.SysvFrameFields := by
  intro f1 f2 f3 f4 k ver cken hid hcks
  refine (decodeFrame_around_valid (body := [f1, f2, f3, f4]) rfl (by simpa [add_assoc] using hcks)).trans ?_
  refine congrArg FrameOutcome.record ((recordOf_sysv ((idField_eq_zero f1).mpr hid) ..).trans ?_)
  rw [chanField_eq, sext16_be16, zext16_be16, be16_eq_ofNat]
  cases ver <;> rfl

/-- Settles O39. -/
theorem slaveFrameFields : Obligations.SlaveFrameFields := by
  intro f1 f2 f3 f4 k ver cken hid hcks
  refine (decodeFrame_around_valid (body := [f1, f2, f3, f4]) rfl (by simpa [add_assoc] using hcks)).trans ?_
  refine congrArg FrameOutcome.record ((recordOf_slave (mt (idField_eq_zero f1).mp hid) ..).trans ?_)
  rw [lowFlag_eq, sext16_be16, co16_be16, be16_eq_ofNat]
  cases ver <;> rfl

/-- A byte as a 16-bit number: CURRAW of a V1 frame (30_encoding.md R174). -/
theorem byteHalf_eq (b : Byte) : 0#8 ++ b = BitVec.ofNat 16 b.toNat :=
  eq_ofNat_of_toNat (by rw [append_toNat, BitVec.toNat_ofNat]; omega)

/-- Settles O40. -/
theorem cmdV1FrameFields : Obligations.CmdV1FrameFields := by
  intro f1 f2 f3 f4 f5 f6 k cken hcks
  refine (decodeFrame_around_valid (body := [f1, f2, f3, f4, f5, f6]) rfl
    (by simpa [add_assoc] using hcks)).trans ?_
  refine congrArg FrameOutcome.record ((recordOf_cmdV1 ..).trans ?_)
  rw [lowFlag_eq, sext16_be16, sext16_be16, sext8_eq, byteHalf_eq]

/-- Settles O41. -/
theorem cmdV2FrameFields : Obligations.CmdV2FrameFields := by
  intro f1 f2 f3 f4 f5 f6 f7 k cken hcks
  refine (decodeFrame_around_valid (body := [f1, f2, f3, f4, f5, f6, f7]) rfl
    (by simpa [add_assoc] using hcks)).trans ?_
  refine congrArg FrameOutcome.record ((recordOf_cmdV2 ..).trans ?_)
  rw [lowFlag_eq, modeField_eq, sext16_be16, sext16_be16, co16_be16, be16_eq_ofNat f6 f7]

/-! ## The record of each wire frame, by its fields -/

theorem lowFlag_slaveHeader (id : BitVec 5) (status : BitVec 3) : lowFlag (id ++ status) = status.getLsbD 0 := by
  rw [lowFlag_eq, append_toNat, BitVec.getLsbD, Nat.testBit_zero]
  exact decide_eq_decide.mpr (by omega)

theorem recordOf_sysvBytes (rsv : BitVec 1) (chan : BitVec 2) (raw : Half) (f4 k : Byte) (ver : Version) :
    recordOf (sysvBytes rsv chan raw f4 k) .m2s ver =
      .sysv chan (0#5 ++ rsv ++ chan) raw (if ver = .v1 then raw.toInt else (raw.toNat : Int)) f4 := by
  obtain ⟨hid, -, hchan⟩ := sysvHeader_slices 0#5 rsv chan
  rw [sysvBytes, recordOf_sysv hid, be16_hi_lo, chanField, hchan]
  rfl

theorem recordOf_slaveBytes {id : BitVec 5} (hid : id ≠ 0#5) (status : BitVec 3) (raw : Half) (temp k : Byte)
    (ver : Version) :
    recordOf (slaveBytes id status raw temp k) .m2s ver =
      .slave (id ++ status) (status.getLsbD 0) raw
        (if ver = .v1 then raw.toInt else (raw.toNat : Int) - 32768) temp := by
  have hfield : idField (id ++ status) = id := (slaveHeader_slices id status).1
  rw [slaveBytes, recordOf_slave (hfield.symm ▸ hid), be16_hi_lo, lowFlag_slaveHeader]
  rfl

theorem recordOf_cmdV1Bytes (undef : BitVec 7) (start : Bool) (maxv minv : Half) (cur k : Byte) :
    recordOf (cmdV1Bytes undef start maxv minv cur k) .s2m .v1 =
      .cmd (undef ++ flagBit start) start false 0#2 maxv.toInt minv.toInt cur.toInt (0#8 ++ cur) := by
  obtain ⟨-, hstart⟩ := cmdV1Header_slices undef (flagBit start)
  rw [cmdV1Bytes, recordOf_cmdV1, be16_hi_lo, be16_hi_lo, lowFlag, hstart, bitFlag_flagBit]
  rfl

theorem recordOf_cmdV2Bytes (undef : BitVec 5) (mode : BitVec 2) (start : Bool) (maxv minv cur : Half) (k : Byte) :
    recordOf (cmdV2Bytes undef mode start maxv minv cur k) .s2m .v2 =
      .cmd (undef ++ mode ++ flagBit start) start true mode maxv.toInt minv.toInt ((cur.toNat : Int) - 32768) cur := by
  obtain ⟨-, hmode, hstart⟩ := cmdV2Header_slices undef mode (flagBit start)
  rw [cmdV2Bytes, recordOf_cmdV2, be16_hi_lo, be16_hi_lo, be16_hi_lo, lowFlag, hstart, bitFlag_flagBit, modeField, hmode]
  rfl

/-! ## A wire frame received on a link -/

/-- On a link whose buffer meets R211: what the loop over its bytes makes of the channel (40_frame_assembler.md R213). -/
theorem exec_receivedAs {i : Instr} {bs : List Byte} {s : State} (henc : encode i = .bytes bs)
    (hinv : bufInv s.cfg.rxLen (s.slice s.rxLink).buf) : ∃ t, exec i s = .next t ∧ receivedAs s.rxLink bs s t := by
  obtain ⟨t, ht⟩ := feedAll_completes bs s hinv
  exact ⟨t, (exec_of_encode_bytes henc s).trans ht, feedAll_receivedAs hinv ht⟩

/-- On a link whose buffer is empty, bytes that are fewer than the expected ones stay as an open candidate, one DONE for each
(40_frame_assembler.md R202). -/
theorem exec_openCandidate {i : Instr} {bs : List Byte} {s : State} (henc : encode i = .bytes bs)
    (hempty : (s.slice s.rxLink).buf = []) (hstx : byteAt bs 0 = Config.stx) (hshort : bs.length < s.cfg.rxLen) :
    ∃ t, exec i s = .next t ∧ outsideKept s.rxLink s t ∧
      t.slice s.rxLink = { s.slice s.rxLink with buf := bs } ∧
      t.sent = s.sent ++ List.replicate bs.length [0#32] := by
  have hrun := feedAll_open bs s (.inl hempty) (by rwa [hempty]) (by simpa [hempty] using hshort)
  rw [hempty, List.nil_append] at hrun
  exact ⟨_, (exec_of_encode_bytes henc s).trans hrun, feedAll_outsideKept hrun,
    by rw [deliver_slice, holding_slice_same, Slice.withBuf], by rw [deliver_sent, holding_sent, respDone]⟩

/-- On a link whose buffer is empty, a frame of the expected length is taken whole: DONE for each byte but the last, then
CKFAIL or the record, counted with TS_IN (40_frame_assembler.md R202, R207; 44_channel_stats.md R401). -/
theorem exec_wholeFrame {i : Instr} {body : List Byte} {k : Byte} {dir : Direction} {ver : Version} {r : Record}
    {s : State} (henc : encode i = .bytes (Config.stx :: (body ++ [k, Config.etx])))
    (hempty : (s.slice s.rxLink).buf = []) (hdir : s.cfg.rxdir = dir) (hver : s.cfg.ver = ver)
    (hlen : body.length + 3 = frameLen dir ver)
    (hrec : recordOf (Config.stx :: (body ++ [k, Config.etx])) dir ver = r) :
    ∃ t, exec i s = .next t ∧ outsideKept s.rxLink s t ∧
      (if s.cfg.cken = true ∧ k ≠ byteSum body then
        t.slice s.rxLink = { s.slice s.rxLink with
          ckf := satInc (s.slice s.rxLink).ckf, lastTs := s.tsIn, seen := true } ∧
          t.sent = s.sent ++ List.replicate (body.length + 2) [0#32] ++
            [respCkfail s.rxLink ver dir (byteSum body) k]
      else
        t.slice s.rxLink = { s.slice s.rxLink with
          ok := satInc (s.slice s.rxLink).ok, lastTs := s.tsIn, seen := true } ∧
          t.sent = s.sent ++ List.replicate (body.length + 2) [0#32] ++ [respRecord s.rxLink ver r]) := by
  subst hdir hver hrec
  have hrun := feedAll_framed hempty (framed_around hlen k)
  refine ⟨_, (exec_of_encode_bytes henc s).trans hrun, feedAll_outsideKept hrun, ?_⟩
  have hbuf : (s.slice s.rxLink).withBuf [] = s.slice s.rxLink := by rw [← hempty, withBuf_self]
  simp only [feedDone_slice_same, feedDone_sent, deliver_slice, deliver_tsIn, deliver_cfg, deliver_sent,
    holding_slice_same, holding_tsIn, holding_cfg, holding_sent, withBuf_withBuf, hbuf, length_around]
  rw [candidateOutcome, decodeFrame_around hlen]
  split_ifs <;> exact ⟨rfl, rfl⟩

/-- An S2M frame is longer than an M2S one (00_scope.md R6). -/
theorem seven_lt_frameLen_s2m (ver : Version) : 7 < frameLen .s2m ver := by
  cases ver <;> decide

/-- Settles O57: too short for an S2M candidate, a whole one under M2S. -/
theorem frameSysvReceived : Obligations.FrameSysvReceived := by
  refine ⟨fun s rsv chan raw f4 k hinv => exec_receivedAs rfl hinv, fun s rsv chan raw f4 k hempty => ?_⟩
  cases hdir : s.cfg.rxdir with
  | s2m =>
    exact exec_openCandidate (i := .frameSysv rsv chan raw f4 k) rfl hempty rfl
      (by rw [Cfg.rxLen, hdir]; exact seven_lt_frameLen_s2m _)
  | m2s =>
    exact exec_wholeFrame (i := .frameSysv rsv chan raw f4 k) (body := [0#5 ++ rsv ++ chan, hi raw, lo raw, f4]) rfl
      hempty hdir rfl rfl (recordOf_sysvBytes rsv chan raw f4 k s.cfg.ver)

/-- Settles O58. -/
theorem frameSlaveReceived : Obligations.FrameSlaveReceived := by
  refine ⟨fun s id status raw temp k _ hinv => exec_receivedAs rfl hinv,
    fun s id status raw temp k hid hempty => ?_⟩
  cases hdir : s.cfg.rxdir with
  | s2m =>
    exact exec_openCandidate (i := .frameSlave id status raw temp k) rfl hempty rfl
      (by rw [Cfg.rxLen, hdir]; exact seven_lt_frameLen_s2m _)
  | m2s =>
    exact exec_wholeFrame (i := .frameSlave id status raw temp k) (body := [id ++ status, hi raw, lo raw, temp]) rfl
      hempty hdir rfl rfl (recordOf_slaveBytes hid status raw temp k s.cfg.ver)

/-- Settles O59: too short for a V2 candidate, a whole one under V1. -/
theorem frameCmdV1Received : Obligations.FrameCmdV1Received := by
  refine ⟨fun s undef start maxv minv cur k hinv => exec_receivedAs rfl hinv,
    fun s undef start maxv minv cur k hdir hempty => ?_⟩
  cases hver : s.cfg.ver with
  | v2 =>
    exact exec_openCandidate (i := .frameCmdV1 undef start maxv minv cur k) rfl hempty rfl
      (by rw [Cfg.rxLen, hdir, hver]; exact Nat.lt_succ_self 9)
  | v1 =>
    exact exec_wholeFrame (i := .frameCmdV1 undef start maxv minv cur k)
      (body := [undef ++ flagBit start, hi maxv, lo maxv, hi minv, lo minv, cur]) rfl hempty hdir hver rfl
      (recordOf_cmdV1Bytes undef start maxv minv cur k)

/-- Settles O60. -/
theorem frameCmdV2Received : Obligations.FrameCmdV2Received :=
  ⟨fun _ _ _ _ _ _ _ _ hinv => exec_receivedAs rfl hinv,
    fun _ undef mode start maxv minv cur k hdir hver hempty =>
      exec_wholeFrame (i := .frameCmdV2 undef mode start maxv minv cur k)
        (body := [undef ++ mode ++ flagBit start, hi maxv, lo maxv, hi minv, lo minv, hi cur, lo cur]) rfl hempty hdir
        hver rfl (recordOf_cmdV2Bytes undef mode start maxv minv cur k)⟩

end Sys2Proof.Machine
end

section
/-! PROOFS of the statements of 43_field_encode.md: the range check (R351), the constructed frames and their FRAME responses
(R352 to R355), and ENCODE against DECODE: the round trip (R356), the frame fed byte by byte (R357), the inverse direction
(R358). -/

namespace Sys2Proof.Machine

/-! ## The range check -/

theorem outside16_iff {x : Int} : outside16 x = true ↔ x < -32768 ∨ x > 32767 := by
  rw [outside16, decide_eq_true_iff, gt_iff_lt]

theorem outside8_iff {x : Int} : outside8 x = true ↔ x < -128 ∨ x > 127 := by
  rw [outside8, decide_eq_true_iff, gt_iff_lt]

theorem outside16_eq_false_iff {x : Int} : outside16 x = false ↔ -32768 ≤ x ∧ x ≤ 32767 := by
  rw [← Bool.not_eq_true, outside16_iff]
  omega

theorem outside8_eq_false_iff {x : Int} : outside8 x = false ↔ -128 ≤ x ∧ x ≤ 127 := by
  rw [← Bool.not_eq_true, outside8_iff]
  omega

/-- V1 carries no mode, V2 has no mode 3. -/
theorem modeBad_iff {ver : Version} {mode : BitVec 2} :
    modeBad ver mode = true ↔ (ver = .v1 ∧ mode ≠ 0#2) ∨ (ver = .v2 ∧ mode = 3#2) := by
  cases ver <;> simp [modeBad]

/-- The current has 8 bits in V1 and 16 in V2. -/
theorem curBad_iff {ver : Version} {cur : Int} :
    curBad ver cur = true ↔
      (ver = .v1 ∧ (cur < -128 ∨ cur > 127)) ∨ (ver = .v2 ∧ (cur < -32768 ∨ cur > 32767)) := by
  cases ver with
  | v1 => simp [curBad, outside8_iff]
  | v2 => simp [curBad, outside16_iff]

/-- The operands pass when each of the four checks does (R351). -/
theorem rangeCheck_eq_none_iff {ver : Version} {mode : BitVec 2} {maxv minv cur : Int} :
    rangeCheck ver mode maxv minv cur = none ↔
      modeBad ver mode = false ∧ outside16 maxv = false ∧ outside16 minv = false ∧ curBad ver cur = false := by
  rw [rangeCheck]
  split_ifs <;> simp_all

theorem rangeCheck_v1_eq_none_iff {mode : BitVec 2} {maxv minv cur : Int} :
    rangeCheck .v1 mode maxv minv cur = none ↔
      mode = 0#2 ∧ outside16 maxv = false ∧ outside16 minv = false ∧ outside8 cur = false := by
  simp [rangeCheck_eq_none_iff, modeBad, curBad]

theorem rangeCheck_v2_eq_none_iff {mode : BitVec 2} {maxv minv cur : Int} :
    rangeCheck .v2 mode maxv minv cur = none ↔
      mode ≠ 3#2 ∧ outside16 maxv = false ∧ outside16 minv = false ∧ outside16 cur = false := by
  simp [rangeCheck_eq_none_iff, modeBad, curBad]

/-- The number of the operand that a range check names (30_encoding.md R178); 0 if it names none. -/
def rangeNumber : Option RangeField → Nat
  | none => 0
  | some field => (fieldCode field).toNat

theorem rangeNumber_some_ne_zero (field : RangeField) : rangeNumber (some field) ≠ 0 := by
  cases field <;> decide

theorem rangeNumber_rangeCheck (ver : Version) (mode : BitVec 2) (maxv minv cur : Int) :
    rangeNumber (rangeCheck ver mode maxv minv cur) =
      if (ver = .v1 ∧ mode ≠ 0#2) ∨ (ver = .v2 ∧ mode = 3#2) then 1
      else if maxv < -32768 ∨ maxv > 32767 then 2
      else if minv < -32768 ∨ minv > 32767 then 3
      else if (ver = .v1 ∧ (cur < -128 ∨ cur > 127)) ∨ (ver = .v2 ∧ (cur < -32768 ∨ cur > 32767)) then 4
      else 0 := by
  simp only [rangeCheck, modeBad_iff, outside16_iff, curBad_iff]
  split_ifs <;> rfl

/-- RANGEERR as a number (30_encoding.md R178). -/
theorem respRangeErr_eq (field : RangeField) :
    respRangeErr field = [BitVec.ofNat 32 (0x70000000 + rangeNumber (some field))] := by
  cases field <;> rfl

/-! ## The response of ENCODE -/

/-- Operands that pass the range check give the FRAME response of their frame (R355). -/
theorem exec_encode_of_passes {ver : Version} {mode : BitVec 2} {maxv minv cur : Word}
    (h : rangeCheck ver mode maxv.toInt minv.toInt cur.toInt = none) (start : Bool) (s : State) :
    exec (.encode ver mode start maxv minv cur) s =
      .next (s.respond (respFrame (buildFrame ver mode start maxv.toInt minv.toInt cur.toInt))) := by
  rw [execEncode_eq]
  simp only [sext32, h]

/-- Operands that fail it give the RANGEERR response of the first that fails (R351). -/
theorem exec_encode_of_fails {ver : Version} {mode : BitVec 2} {maxv minv cur : Word} {field : RangeField}
    (h : rangeCheck ver mode maxv.toInt minv.toInt cur.toInt = some field) (start : Bool) (s : State) :
    exec (.encode ver mode start maxv minv cur) s = .next (s.respond (respRangeErr field)) := by
  rw [execEncode_eq]
  simp only [sext32, h]

/-- Settles O49: the number of the statement is that of the range check, which decides between the two responses. -/
theorem encodeRangeErrors : Obligations.EncodeRangeErrors := by
  intro s ver mode start maxv minv cur n hn
  rw [← rangeNumber_rangeCheck] at hn
  subst hn
  cases h : rangeCheck ver mode maxv.toInt minv.toInt cur.toInt with
  | none => exact ⟨fun hne => absurd rfl hne, fun _ => exec_encode_of_passes h start s⟩
  | some field =>
    refine ⟨fun _ => ?_, fun hzero => absurd hzero (rangeNumber_some_ne_zero field)⟩
    rw [exec_encode_of_fails h, respRangeErr_eq]
    rfl

/-! ## The bytes of the fields -/

/-- The header byte of a V1 command frame without undefined bits (R352). -/
theorem cmdV1Header_toNat (start : Bool) : (0#7 ++ flagBit start).toNat = bitNat start := by
  rw [append_toNat, flagBit_toNat, BitVec.toNat_ofNat]
  omega

/-- The header byte of a V2 command frame without undefined bits (R353). -/
theorem cmdV2Header_toNat (mode : BitVec 2) (start : Bool) :
    (0#5 ++ mode ++ flagBit start).toNat = 2 * mode.toNat + bitNat start := by
  simp only [append_toNat, flagBit_toNat, BitVec.toNat_ofNat]
  omega

theorem hi_lo_toNat (v : Half) : 256 * (hi v).toNat + (lo v).toNat = v.toNat := by
  rw [← be16_toNat, be16_hi_lo]

/-- `t16(x)` is `x` mod 65536, high byte first (R352). -/
theorem t16_bytes (x : Int) : 256 * ((hi (t16 x)).toNat : Int) + (lo (t16 x)).toNat = x % 65536 := by
  have h := hi_lo_toNat (t16 x)
  rw [t16, BitVec.toNat_ofInt] at h
  rw [t16]
  omega

/-- `t8(x)` is `x` mod 256 (R352). -/
theorem t8_toNat (x : Int) : ((t8 x).toNat : Int) = x % 256 := by
  rw [t8, BitVec.toNat_ofInt]
  omega

/-- A center-offset field holds `x + 32768`, high byte first (R353). -/
theorem coRaw_bytes {x : Int} (h : outside16 x = false) :
    256 * ((hi (coRaw x)).toNat : Int) + (lo (coRaw x)).toNat = x + 32768 := by
  have hbytes := hi_lo_toNat (coRaw x)
  have hco := co16_coRaw h
  rw [co16_eq] at hco
  omega

/-- FRAME as a number and the packed bytes (30_encoding.md R177). -/
theorem respFrame_eq {f : List Byte} (hlen : f.length ≤ 255) :
    respFrame f = BitVec.ofNat 32 (0x60000000 + f.length) :: packWords f := by
  refine congrArg (· :: packWords f) (eq_ofNat_of_toNat ?_)
  simp only [append_toNat, BitVec.toNat_ofNat]
  omega

/-- FRAME of nine bytes, around a body of six. -/
theorem respFrame_wrapFrame_six (f1 f2 f3 f4 f5 f6 : Byte) :
    respFrame (wrapFrame [f1, f2, f3, f4, f5, f6]) =
      [0x60000009#32, 0x02#8 ++ f1 ++ f2 ++ f3, f4 ++ f5 ++ f6 ++ byteSum [f1, f2, f3, f4, f5, f6],
        0x03#8 ++ 0#24] :=
  respFrame_eq (Nat.le_of_ble_eq_true rfl)

/-- FRAME of ten bytes, around a body of seven. -/
theorem respFrame_wrapFrame_seven (f1 f2 f3 f4 f5 f6 f7 : Byte) :
    respFrame (wrapFrame [f1, f2, f3, f4, f5, f6, f7]) =
      [0x6000000A#32, 0x02#8 ++ f1 ++ f2 ++ f3, f4 ++ f5 ++ f6 ++ f7,
        byteSum [f1, f2, f3, f4, f5, f6, f7] ++ 0x03#8 ++ 0#16] :=
  respFrame_eq (Nat.le_of_ble_eq_true rfl)

/-- Settles O50: the bytes of the constructed frame, and each as a number. -/
theorem encodeV1Frame : Obligations.EncodeV1Frame := by
  intro s start maxv minv cur hmax hmax' hmin hmin' hcur hcur'
  have hpass : rangeCheck .v1 0#2 maxv.toInt minv.toInt cur.toInt = none :=
    rangeCheck_v1_eq_none_iff.mpr ⟨rfl, outside16_eq_false_iff.mpr ⟨hmax, hmax'⟩,
      outside16_eq_false_iff.mpr ⟨hmin, hmin'⟩, outside8_eq_false_iff.mpr ⟨hcur, hcur'⟩⟩
  have hexec := exec_encode_of_passes hpass start s
  rw [buildFrame, buildV1, respFrame_wrapFrame_six] at hexec
  refine ⟨_, _, _, _, _, _, _, hexec, cmdV1Header_toNat start, t16_bytes _, t16_bytes _, t8_toNat _, ?_⟩
  rw [byteSum_toNat]
  simp [add_assoc]

/-- Settles O51. -/
theorem encodeV2Frame : Obligations.EncodeV2Frame := by
  intro s mode start maxv minv cur hmode hmax hmax' hmin hmin' hcur hcur'
  have hin : outside16 cur.toInt = false := outside16_eq_false_iff.mpr ⟨hcur, hcur'⟩
  have hpass : rangeCheck .v2 mode maxv.toInt minv.toInt cur.toInt = none :=
    rangeCheck_v2_eq_none_iff.mpr ⟨hmode, outside16_eq_false_iff.mpr ⟨hmax, hmax'⟩,
      outside16_eq_false_iff.mpr ⟨hmin, hmin'⟩, hin⟩
  have hexec := exec_encode_of_passes hpass start s
  rw [buildFrame, buildV2, respFrame_wrapFrame_seven] at hexec
  refine ⟨_, _, _, _, _, _, _, _, hexec, cmdV2Header_toNat mode start, t16_bytes _, t16_bytes _, coRaw_bytes hin, ?_⟩
  rw [byteSum_toNat]
  simp [add_assoc]

/-! ## DECODE_FRAME of a constructed frame -/

/-- A frame wrapped around a body of the right length is valid, whether or not the checksum is checked (41_checksum.md
R253). -/
theorem validFrame_wrapFrame {cfg : Cfg} {body : List Byte} (hlen : body.length + 3 = cfg.rxLen) :
    validFrame cfg (wrapFrame body) := by
  obtain ⟨hcks, hbyte⟩ := wrapFrame_cks body
  exact ⟨framed_around hlen _, fun _ => hcks.trans hbyte.symm⟩

/-- A constructed frame has a right checksum byte. -/
theorem cksByte_buildFrame (ver : Version) (mode : BitVec 2) (start : Bool) (maxv minv cur : Int) :
    cksByte (buildFrame ver mode start maxv minv cur) = cks (buildFrame ver mode start maxv minv cur) := by
  cases ver with
  | v1 | v2 => exact (wrapFrame_cks _).2.trans (wrapFrame_cks _).1.symm

/-- A constructed frame is valid where S2M frames of its version are expected (R357). -/
theorem validFrame_buildFrame {cfg : Cfg} {ver : Version} (hdir : cfg.rxdir = .s2m) (hver : cfg.ver = ver)
    (mode : BitVec 2) (start : Bool) (maxv minv cur : Int) :
    validFrame cfg (buildFrame ver mode start maxv minv cur) := by
  have hlen : cfg.rxLen = frameLen .s2m ver := by rw [Cfg.rxLen, hdir, hver]
  cases ver with
  | v1 | v2 => exact validFrame_wrapFrame hlen.symm

/-- The record of a constructed frame holds the operands that passed the range check (R356). -/
theorem recordOf_buildFrame {ver : Version} {mode : BitVec 2} {maxv minv cur : Int}
    (h : rangeCheck ver mode maxv minv cur = none) (start : Bool) :
    ∃ f1 raw, recordOf (buildFrame ver mode start maxv minv cur) .s2m ver =
      .cmd f1 start (decide (ver = .v2)) mode maxv minv cur raw := by
  cases ver with
  | v1 =>
    obtain ⟨rfl, hmax, hmin, hcur⟩ := rangeCheck_v1_eq_none_iff.mp h
    have hrec := recordOf_cmdV1Bytes 0#7 start (t16 maxv) (t16 minv) (t8 cur)
    rw [← sext16, ← sext16, ← sext8, sext16_t16 hmax, sext16_t16 hmin, sext8_t8 hcur] at hrec
    exact ⟨_, _, hrec _⟩
  | v2 =>
    obtain ⟨-, hmax, hmin, hcur⟩ := rangeCheck_v2_eq_none_iff.mp h
    have hrec := recordOf_cmdV2Bytes 0#5 mode start (t16 maxv) (t16 minv) (coRaw cur)
    rw [← sext16, ← sext16, ← co16_eq, sext16_t16 hmax, sext16_t16 hmin, co16_coRaw hcur] at hrec
    exact ⟨_, _, hrec _⟩

/-- DECODE_FRAME never fails on a constructed frame (R357). -/
theorem decodeFrame_buildFrame (ver : Version) (mode : BitVec 2) (start : Bool) (maxv minv cur : Int) (cken : Bool) :
    decodeFrame (buildFrame ver mode start maxv minv cur) .s2m ver cken =
      .record (recordOf (buildFrame ver mode start maxv minv cur) .s2m ver) :=
  decodeFrame_eq_record_iff.mpr ⟨validFrame_buildFrame rfl rfl mode start maxv minv cur, rfl⟩

/-- Settles O52: DECODE finds the constructed frame valid, and its record holds the operands. -/
theorem encodeDecodeRoundTrip : Obligations.EncodeDecodeRoundTrip := by
  intro s ver mode start maxv minv cur h
  obtain ⟨f1, raw, hrec⟩ := recordOf_buildFrame h start
  refine ⟨_, exec_encode_of_passes h start s, fun u => ⟨f1, raw, ?_⟩⟩
  rw [exec_decode, decodeFrame_buildFrame, hrec]
  rfl

/-- Settles O53: the constructed frame is valid, so the loop over its bytes yields its record alone. -/
theorem encodedFrameYieldsOneCommand : Obligations.EncodedFrameYieldsOneCommand := by
  intro ver mode start maxv minv cur h
  constructor
  · obtain ⟨⟨hlen, hstx, hetx⟩, -⟩ :=
      validFrame_buildFrame (cfg := ⟨ver, true, .s2m⟩) rfl rfl mode start maxv minv cur
    rw [hlen] at hetx
    exact ⟨hlen, hstx, hetx, cksByte_buildFrame .., fun cken => ⟨_, decodeFrame_buildFrame ..⟩⟩
  · intro s c hdir hver hempty
    obtain ⟨f1, raw, hrec⟩ := recordOf_buildFrame h start
    have hstream := streamFeed_valid_append (validFrame_buildFrame hdir hver mode start maxv minv cur) []
    rw [List.append_nil, cfgRecord, hdir, hver, hrec] at hstream
    obtain ⟨t, ht, hslice, hevents⟩ := feedAll_of_streamFeed hempty hstream
    rw [hver] at hevents
    exact ⟨t, f1, raw, ht, by rw [hslice]; rfl, hevents, by rw [hslice]; rfl, by rw [hslice]; rfl,
      by rw [hslice]; rfl⟩

/-! ## The frame of decoded fields -/

/-- A signed 16-bit field is in range and is the pattern of its value. -/
theorem outside16_sext16 (v : Half) : outside16 (sext16 v) = false :=
  outside16_eq_false_iff.mpr ⟨BitVec.le_toInt v, Int.le_of_lt_add_one BitVec.toInt_lt⟩

theorem t16_sext16 (v : Half) : t16 (sext16 v) = v :=
  BitVec.ofInt_toInt

theorem outside8_sext8 (b : Byte) : outside8 (sext8 b) = false :=
  outside8_eq_false_iff.mpr ⟨BitVec.le_toInt b, Int.le_of_lt_add_one BitVec.toInt_lt⟩

theorem t8_sext8 (b : Byte) : t8 (sext8 b) = b :=
  BitVec.ofInt_toInt

theorem outside16_co16 (v : Half) : outside16 (co16 v) = false :=
  outside16_eq_false_iff.mpr (centerOffsetDecoding.1 v).2

theorem coRaw_co16 (v : Half) : coRaw (co16 v) = v := by
  apply BitVec.eq_of_toNat_eq
  have hv := v.isLt
  rw [coRaw, co16_eq, Config.center, BitVec.toNat_ofInt]
  omega

theorem toInt_i32_of_inRange {x : Int} (h : outside16 x = false) : (i32 x).toInt = x := by
  obtain ⟨hlo, hhi⟩ := outside16_eq_false_iff.mp h
  exact toInt_ofInt_of_fits (fitsWord_iff.mpr (by omega))

/-- The V1 header byte with its undefined bits 0 is START (R308, R352). -/
theorem cmdV1Header_of_lt {f1 : Byte} (h : f1.toNat < 2) : 0#7 ++ flagBit (lowFlag f1) = f1 := by
  have hundef : f1.extractLsb' 1 7 = 0#7 := by
    rw [← BitVec.toNat_inj, slice_toNat, BitVec.toNat_ofNat]
    omega
  rw [lowFlag, flagBit_bitFlag, ← hundef]
  exact (byte_slices f1).2.2.1.symm

/-- The V2 header byte with its undefined bits 0 is MODE and START (R309, R353). -/
theorem cmdV2Header_of_lt {f1 : Byte} (h : f1.toNat < 8) : 0#5 ++ modeField f1 ++ flagBit (lowFlag f1) = f1 := by
  have hundef : f1.extractLsb' 3 5 = 0#5 := by
    rw [← BitVec.toNat_inj, slice_toNat, BitVec.toNat_ofNat]
    omega
  rw [modeField, lowFlag, flagBit_bitFlag, ← hundef]
  exact (byte_slices f1).2.2.2.symm

theorem exists_eq_around {f : List Byte} (h : 3 ≤ f.length) : ∃ a body k e, f = a :: (body ++ [k, e]) := by
  cases f with
  | nil => simp at h
  | cons a rest =>
    obtain rfl | ⟨front, e, rfl⟩ := rest.eq_nil_or_concat'
    · simp at h
    obtain rfl | ⟨body, k, rfl⟩ := front.eq_nil_or_concat'
    · simp at h
    exact ⟨a, body, k, e, by simp⟩

/-- A framed candidate with a right checksum byte is the frame wrapped around some body (41_checksum.md R253). -/
theorem exists_eq_wrapFrame {cfg : Cfg} {f : List Byte} (hf : framed cfg f) (hcks : cksByte f = cks f) :
    ∃ body, f = wrapFrame body ∧ body.length + 3 = cfg.rxLen := by
  have happ := dropLast_append_etx hf
  obtain ⟨hlen, hstx, -⟩ := hf
  have hpos := rxLen_pos cfg
  obtain ⟨a, body, k, e, rfl⟩ := exists_eq_around (f := f) (by omega)
  rw [length_around] at hlen
  rw [cksByte_around, cks, payload_around] at hcks
  obtain rfl : a = Config.stx := hstx
  obtain rfl : Config.etx = e := by simpa [List.dropLast_cons_of_ne_nil, List.dropLast_append_cons] using happ
  exact ⟨body, by rw [wrapFrame, hcks], hlen⟩

/-- V1: construction from the fields of a body without undefined bits gives the frame around it (R358). -/
theorem buildV1_of_fields {f1 : Byte} (h : f1.toNat < 2) (f2 f3 f4 f5 f6 : Byte) :
    buildV1 (lowFlag f1) (sext16 (be16 f2 f3)) (sext16 (be16 f4 f5)) (sext8 f6) =
      wrapFrame [f1, f2, f3, f4, f5, f6] := by
  rw [buildV1, cmdV1Header_of_lt h, t16_sext16, t16_sext16, t8_sext8, hi_be16, lo_be16, hi_be16, lo_be16]

/-- V2: construction from the fields of such a body gives the frame around it (R358). -/
theorem buildV2_of_fields {f1 : Byte} (h : f1.toNat < 8) (f2 f3 f4 f5 f6 f7 : Byte) :
    buildV2 (modeField f1) (lowFlag f1) (sext16 (be16 f2 f3)) (sext16 (be16 f4 f5)) (co16 (be16 f6 f7)) =
      wrapFrame [f1, f2, f3, f4, f5, f6, f7] := by
  rw [buildV2, cmdV2Header_of_lt h, t16_sext16, t16_sext16, coRaw_co16, hi_be16, lo_be16, hi_be16, lo_be16, hi_be16,
    lo_be16]

/-- The header bytes below this have no undefined bit set: START in V1, MODE and START in V2 (R308, R309). -/
def headerBound : Version → Nat
  | .v1 => 2
  | .v2 => 8

/-- The fields of an S2M frame whose undefined bits are 0 and whose mode is not 3 are in range, and the frame is the one
constructed of them (R358). -/
theorem buildFrame_of_recordOf {ver : Version} {body : List Byte} {f1 : Byte} {start mv : Bool} {mode : BitVec 2}
    {maxv minv curc : Int} {raw : Half} (hlen : body.length + 3 = frameLen .s2m ver)
    (hrec : recordOf (wrapFrame body) .s2m ver = .cmd f1 start mv mode maxv minv curc raw)
    (hundef : f1.toNat < headerBound ver) (hmode : mode ≠ 3#2) :
    rangeCheck ver mode maxv minv curc = none ∧ buildFrame ver mode start maxv minv curc = wrapFrame body := by
  cases ver with
  | v1 =>
    match body, hlen with
    | [g1, f2, f3, f4, f5, f6], _ =>
      obtain ⟨rfl, rfl, -, rfl, rfl, rfl, rfl, -⟩ := Record.cmd.inj hrec
      exact ⟨rangeCheck_v1_eq_none_iff.mpr ⟨rfl, outside16_sext16 _, outside16_sext16 _, outside8_sext8 _⟩,
        buildV1_of_fields hundef f2 f3 f4 f5 f6⟩
  | v2 =>
    match body, hlen with
    | [g1, f2, f3, f4, f5, f6, f7], _ =>
      obtain ⟨rfl, rfl, -, rfl, rfl, rfl, rfl, -⟩ := Record.cmd.inj hrec
      exact ⟨rangeCheck_v2_eq_none_iff.mpr ⟨hmode, outside16_sext16 _, outside16_sext16 _, outside16_co16 _⟩,
        buildV2_of_fields hundef f2 f3 f4 f5 f6 f7⟩

theorem outside16_of_outside8 {x : Int} (h : outside8 x = false) : outside16 x = false := by
  rw [outside8_eq_false_iff] at h
  rw [outside16_eq_false_iff]
  omega

/-- Integers that pass the range check survive their operand words (30_encoding.md R159). -/
theorem toInt_i32_of_passes {ver : Version} {mode : BitVec 2} {maxv minv cur : Int}
    (h : rangeCheck ver mode maxv minv cur = none) :
    (i32 maxv).toInt = maxv ∧ (i32 minv).toInt = minv ∧ (i32 cur).toInt = cur := by
  cases ver with
  | v1 =>
    obtain ⟨-, hmax, hmin, hcur⟩ := rangeCheck_v1_eq_none_iff.mp h
    exact ⟨toInt_i32_of_inRange hmax, toInt_i32_of_inRange hmin, toInt_i32_of_inRange (outside16_of_outside8 hcur)⟩
  | v2 =>
    obtain ⟨-, hmax, hmin, hcur⟩ := rangeCheck_v2_eq_none_iff.mp h
    exact ⟨toInt_i32_of_inRange hmax, toInt_i32_of_inRange hmin, toInt_i32_of_inRange hcur⟩

/-- The header byte of a constructed frame has no undefined bit set and no mode 3 (R358). -/
theorem buildFrame_header {ver : Version} {mode : BitVec 2} {maxv minv cur : Int}
    (h : rangeCheck ver mode maxv minv cur = none) (start : Bool) :
    (byteAt (buildFrame ver mode start maxv minv cur) 1).toNat < headerBound ver ∧
      (byteAt (buildFrame ver mode start maxv minv cur) 1).toNat / 2 ≠ 3 := by
  have hstart := bitNat_lt start
  cases ver with
  | v1 =>
    change (0#7 ++ flagBit start).toNat < 2 ∧ (0#7 ++ flagBit start).toNat / 2 ≠ 3
    rw [cmdV1Header_toNat]
    omega
  | v2 =>
    obtain ⟨hmode, -⟩ := rangeCheck_v2_eq_none_iff.mp h
    have hne : mode.toNat ≠ 3 := fun heq => hmode (BitVec.eq_of_toNat_eq heq)
    change (0#5 ++ mode ++ flagBit start).toNat < 8 ∧ (0#5 ++ mode ++ flagBit start).toNat / 2 ≠ 3
    rw [cmdV2Header_toNat]
    omega

/-- Settles O54: an accepted frame is a wrapped body, and construction from its fields gives it back
(`buildFrame_of_recordOf`); the header byte of a constructed frame is `buildFrame_header`. -/
theorem encodeInvertsDecode : Obligations.EncodeInvertsDecode := by
  constructor
  · intro f ver cken f1 start mv mode maxv minv curc raw hdec hcks hundef hmode s
    obtain ⟨⟨hf, -⟩, hrec⟩ := decodeFrame_eq_record_iff.mp hdec
    obtain ⟨body, rfl, hlen⟩ := exists_eq_wrapFrame hf hcks
    obtain ⟨hpass, hbuild⟩ := buildFrame_of_recordOf hlen hrec (by cases ver <;> exact hundef) hmode
    obtain ⟨hmax, hmin, hcur⟩ := toInt_i32_of_passes hpass
    rw [exec_encode_of_passes (by rw [hmax, hmin, hcur, hpass]), hmax, hmin, hcur, hbuild]
    rfl
  · intro ver mode start maxv minv cur h
    have hheader := buildFrame_header h start
    cases ver with
    | v1 | v2 => exact hheader

end Sys2Proof.Machine
end

section
/-! PROOFS of the statements of 44_channel_stats.md: the update for each event (R401), the saturating counters (R402), the three
commands on the statistics (R403 to R405), the error rate (R406), what a command leaves of the other channel (R407), and the
counters against the event responses of a run of FEEDs (R408). -/

namespace Sys2Proof.Machine

/-! ## The saturating increment -/

theorem satInc_eq_ite (x : Word) : satInc x = if x = 0xFFFFFFFF#32 then x else x + 1#32 := by
  have hx := x.isLt
  apply BitVec.eq_of_toNat_eq
  rw [satInc_toNat]
  split_ifs with hmax
  · subst hmax
    rfl
  · have hne : x.toNat ≠ 0xFFFFFFFF := fun h => hmax (BitVec.eq_of_toNat_eq h)
    rw [BitVec.toNat_add, BitVec.toNat_ofNat]
    omega

theorem le_satInc (x : Word) : x ≤ satInc x := by
  have hx := x.isLt
  rw [BitVec.le_def, satInc_toNat]
  omega

/-! ## The order on the counters -/

/-- Each of the three counters is in the second slice at least what it is in the first. -/
def CountersLe (x y : Slice) : Prop :=
  x.ok ≤ y.ok ∧ x.ckf ≤ y.ckf ∧ x.mal ≤ y.mal

theorem CountersLe.refl (x : Slice) : CountersLe x x :=
  ⟨BitVec.le_refl _, BitVec.le_refl _, BitVec.le_refl _⟩

theorem CountersLe.trans {x y z : Slice} (hxy : CountersLe x y) (hyz : CountersLe y z) : CountersLe x z := by
  obtain ⟨hok, hckf, hmal⟩ := hxy
  obtain ⟨hok', hckf', hmal'⟩ := hyz
  exact ⟨BitVec.le_trans hok hok', BitVec.le_trans hckf hckf', BitVec.le_trans hmal hmal'⟩

/-- Slices that differ in the buffer alone have the same counters. -/
theorem countersLe_of_withBuf_eq {x y : Slice} (h : y.withBuf [] = x.withBuf []) : CountersLe x y :=
  ⟨BitVec.le_of_eq (congrArg Slice.ok h).symm, BitVec.le_of_eq (congrArg Slice.ckf h).symm,
    BitVec.le_of_eq (congrArg Slice.mal h).symm⟩

/-- An event increments one counter and keeps the other two (44_channel_stats.md R401). -/
theorem countersLe_statsUpdate (ev : FrameOutcome) (ts : Word) (x : Slice) : CountersLe x (statsUpdate ev ts x) := by
  cases ev with
  | record => exact ⟨le_satInc x.ok, BitVec.le_refl _, BitVec.le_refl _⟩
  | checksumError => exact ⟨BitVec.le_refl _, le_satInc x.ckf, BitVec.le_refl _⟩
  | lengthMismatch | markerError => exact ⟨BitVec.le_refl _, BitVec.le_refl _, le_satInc x.mal⟩

theorem countersLe_statsUpdateIf (ev : Option FrameOutcome) (ts : Word) (x : Slice) :
    CountersLe x (statsUpdateIf ev ts x) := by
  cases ev with
  | none => exact .refl x
  | some out => exact countersLe_statsUpdate out ts x

/-- A FEED lowers no counter of either channel. -/
theorem feedByte_countersLe {c : Chan} {b : Byte} {s t : State} (h : feedByte c b s = .next t) (d : Chan) :
    CountersLe (s.slice d) (t.slice d) := by
  obtain ⟨buf, ev, -, rfl⟩ := feedByte_next h
  by_cases hd : d = c
  · rw [hd, feedDone_slice_same]
    exact countersLe_statsUpdateIf ev s.tsIn ((s.slice c).withBuf buf)
  · rw [feedDone_slice_other buf ev s hd]
    exact .refl _

theorem feedAll_countersLe {c : Chan} {bs : List Byte} {s t : State} (h : feedAll c bs s = .next t) (d : Chan) :
    CountersLe (s.slice d) (t.slice d) :=
  feedAll_induct (P := fun u => CountersLe (s.slice d) (u.slice d))
    (fun _ _ _ hu hfeed => hu.trans (feedByte_countersLe hfeed d)) bs s t (.refl _) h

/-! ## What an instruction does to the statistics -/

/-- The instructions that feed bytes to the assembler: FEED and the wire frames (10_state.md R49). `exec_feedsBytes` ties it
to the model. -/
def feedsBytes : Instr → Bool
  | .feed _ _ | .frameSysv _ _ _ _ _ | .frameSlave _ _ _ _ _ | .frameCmdV1 _ _ _ _ _ _ | .frameCmdV2 _ _ _ _ _ _ _ => true
  | _ => false

/-- An instruction that feeds bytes is a run of FEEDs on one channel. -/
theorem exec_feedsBytes {i : Instr} {s t : State} (hi : feedsBytes i = true) (h : exec i s = .next t) :
    ∃ link bs, feedAll link bs s = .next t := by
  have ht := exec_next h
  cases i with
  | feed ch b => exact ⟨ch, [b], feedAll_cons_next ht⟩
  | frameSysv | frameSlave | frameCmdV1 | frameCmdV2 => exact ⟨_, _, ht⟩
  | decode | encode | resetAsm | resetStats | resetCh | readStats | writeCfg | readCfg | reserved => exact nomatch hi

/-- The slice of any channel after the slice of one was replaced. -/
theorem setSlice_respond_slice (s : State) (c d : Chan) (x : Slice) (r : Response) :
    ((s.setSlice c x).respond r).slice d = if d = c then x else s.slice d := by
  rw [respond_slice]
  split_ifs with hd
  · rw [hd, setSlice_slice_same]
  · exact setSlice_slice_other s x hd

/-- A new configuration touches no statistics element (45_configuration.md R450). -/
theorem bufAfterCfg_withBuf (old new : Cfg) (x : Slice) (buf : List Byte) :
    (bufAfterCfg old new x).withBuf buf = x.withBuf buf := by
  unfold bufAfterCfg
  split_ifs <;> rfl

/-- An instruction that feeds no bytes keeps the five statistics elements of a channel, or is RESET_STATS or RESET_CH on it
and clears them. -/
theorem exec_keeps_or_clears_stats {i : Instr} {s t : State} (hi : feedsBytes i = false) (h : exec i s = .next t)
    (c : Chan) :
    (t.slice c).withBuf [] = (s.slice c).withBuf [] ∨
      ((i = .resetStats c ∨ i = .resetCh c) ∧ (t.slice c).withBuf [] = Slice.reset) := by
  have ht := exec_next h
  cases i with
  | feed | frameSysv | frameSlave | frameCmdV1 | frameCmdV2 => exact nomatch hi
  | decode | encode | readStats | readCfg | reserved =>
    left
    rw [ht, respond_slice]
  | writeCfg =>
    left
    rw [ht, respond_slice, setCfg_slice, bufAfterCfg_withBuf]
  | resetAsm ch =>
    left
    rw [ht, setSlice_respond_slice]
    split_ifs with hc
    · rw [hc, withBuf_withBuf]
    · rfl
  | resetStats ch =>
    rw [ht, setSlice_respond_slice]
    split_ifs with hc
    · exact .inr ⟨.inl (congrArg _ hc.symm), rfl⟩
    · exact .inl rfl
  | resetCh ch =>
    rw [ht, setSlice_respond_slice]
    split_ifs with hc
    · exact .inr ⟨.inr (congrArg _ hc.symm), rfl⟩
    · exact .inl rfl

/-- An instruction lowers no counter of a channel that it does not clear. -/
theorem exec_countersLe {i : Instr} {s t : State} {c : Chan} (h : exec i s = .next t)
    (hstats : i ≠ .resetStats c) (hch : i ≠ .resetCh c) : CountersLe (s.slice c) (t.slice c) := by
  cases hi : feedsBytes i with
  | true =>
    obtain ⟨link, bs, hfeed⟩ := exec_feedsBytes hi h
    exact feedAll_countersLe hfeed c
  | false =>
    obtain hkept | ⟨hclears, -⟩ := exec_keeps_or_clears_stats hi h c
    · exact countersLe_of_withBuf_eq hkept
    · exact (hclears.elim hstats hch).elim

/-- Settles O13: of what a step can be (`step_next`), the reset pulse is excluded, an instruction that is no clear keeps or
raises each counter (`exec_countersLe`), so do FEEDs, and a refusal or an idle step touches no slice. -/
theorem countersNeverDecrease : Obligations.CountersNeverDecrease := by
  refine ⟨satInc_eq_ite, fun s t c h hrst hclear => ?_⟩
  change CountersLe (s.slice c) (t.slice c)
  obtain ⟨-, rfl⟩ | ⟨d, rest, hin, -⟩ | ⟨_, ts, rest, _, -, -, rfl⟩ | ⟨ws, ts, rest, i, hin, hdec, hexec⟩ |
    ⟨link, _, ts, rest, -, hfeed⟩ := step_next h
  · exact .refl _
  · exact absurd hin (hrst d rest)
  · rw [raiseIllegal, raiseError, respond_slice, accept_slice]
    exact .refl _
  · obtain ⟨hstats, hch⟩ := hclear ws ts rest hin
    rw [← accept_slice s rest ts c]
    exact exec_countersLe hexec (fun hi => hstats (hi ▸ hdec)) (fun hi => hch (hi ▸ hdec))
  · rw [← acceptWire_slice s rest link ts c]
    exact feedAll_countersLe hfeed c

/-- Settles O15: the statement is about the instructions that feed no bytes, which `exec_keeps_or_clears_stats` covers. -/
theorem onlyFeedsCount : Obligations.OnlyFeedsCount := by
  intro i s t c h
  cases i with
  | feed | frameSysv | frameSlave | frameCmdV1 | frameCmdV2 => trivial
  | decode | encode | resetAsm | resetStats | resetCh | readStats | writeCfg | readCfg | reserved =>
    exact (exec_keeps_or_clears_stats rfl h c).imp_right And.right

/-- Settles O16: a command on a channel replaces that channel's slice or, for READ_STATS, none. -/
theorem siblingChannelUntouched : Obligations.SiblingChannelUntouched := by
  intro i c s t hi h d hd
  have ht := exec_next h
  cases i with
  | feed =>
    obtain rfl := Option.some.inj hi
    obtain ⟨-, -, -, -, hother, -⟩ := feedByte_frame ht
    exact hother d hd
  | resetAsm | resetStats | resetCh =>
    obtain rfl := Option.some.inj hi
    rw [ht, setSlice_respond_slice, if_neg hd]
  | readStats => rw [ht, respond_slice]
  | decode | encode | writeCfg | readCfg | reserved | frameSysv | frameSlave | frameCmdV1 | frameCmdV2 =>
    exact nomatch hi

/-! ## The counters and the events of a run -/

/-- The event counts in `ok` (44_channel_stats.md R401). -/
def FrameOutcome.isRecord : FrameOutcome → Bool
  | .record _ => true
  | _ => false

/-- The event counts in `ckf`. -/
def FrameOutcome.isCkfail : FrameOutcome → Bool
  | .checksumError _ _ => true
  | _ => false

/-- The event counts in `mal`. -/
def FrameOutcome.isMalformed : FrameOutcome → Bool
  | .lengthMismatch _ | .markerError _ _ _ => true
  | _ => false

theorem statsUpdate_ok (ev : FrameOutcome) (ts : Word) (x : Slice) :
    (statsUpdate ev ts x).ok = if ev.isRecord then satInc x.ok else x.ok := by
  cases ev <;> rfl

theorem statsUpdate_ckf (ev : FrameOutcome) (ts : Word) (x : Slice) :
    (statsUpdate ev ts x).ckf = if ev.isCkfail then satInc x.ckf else x.ckf := by
  cases ev <;> rfl

theorem statsUpdate_mal (ev : FrameOutcome) (ts : Word) (x : Slice) :
    (statsUpdate ev ts x).mal = if ev.isMalformed then satInc x.mal else x.mal := by
  cases ev <;> rfl

/-- A counter `k` that the events of a kind `p` increment has grown by their number, up to saturation (R402). -/
theorem statsUpdates_counter {k : Slice → Word} {p : FrameOutcome → Bool} {ts : Word}
    (hk : ∀ ev x, k (statsUpdate ev ts x) = if p ev then satInc (k x) else k x) :
    ∀ (evs : List FrameOutcome) (x : Slice),
      (k (statsUpdates evs ts x)).toNat = min ((k x).toNat + evs.countP p) (2 ^ 32 - 1)
  | [], x => by
    have hx := (k x).isLt
    simp only [statsUpdates, List.foldl_nil, List.countP_nil]
    omega
  | ev :: evs, x => by
    have ih := statsUpdates_counter hk evs (statsUpdate ev ts x)
    rw [hk] at ih
    rw [List.countP_cons]
    refine ih.trans ?_
    split_ifs with hp
    · rw [satInc_toNat]
      omega
    · rfl

/-- Without saturation it has grown by just their number. -/
theorem statsUpdates_counter_of_lt {k : Slice → Word} {p : FrameOutcome → Bool} {ts : Word}
    (hk : ∀ ev x, k (statsUpdate ev ts x) = if p ev then satInc (k x) else k x) {evs : List FrameOutcome} {x : Slice}
    (hlt : (k x).toNat + evs.length < 2 ^ 32) :
    (k (statsUpdates evs ts x)).toNat = (k x).toNat + evs.countP p := by
  have hle : evs.countP p ≤ evs.length := List.countP_le_length
  rw [statsUpdates_counter hk]
  omega

/-- Every event is of one of the three kinds. -/
theorem countP_kinds (evs : List FrameOutcome) :
    evs.countP FrameOutcome.isRecord + evs.countP FrameOutcome.isCkfail + evs.countP FrameOutcome.isMalformed =
      evs.length := by
  induction evs with
  | nil => rfl
  | cons ev evs ih =>
    have hkind :
        (if ev.isRecord then 1 else 0) + (if ev.isCkfail then 1 else 0) + (if ev.isMalformed then 1 else 0) = 1 := by
      cases ev <;> rfl
    simp only [List.countP_cons, List.length_cons]
    omega

theorem rcode_respOutcome_malformed (ch : Chan) (ver : Version) (dir : Direction) (ev : FrameOutcome) :
    (rcode (respOutcome ch ver dir ev) == 0x5#4) = ev.isMalformed := by
  rw [rcode_respOutcome]
  cases ev with
  | record r => cases r <;> simp [FrameOutcome.isMalformed]
  | _ => rfl

theorem rcode_respOutcome_ckfail (ch : Chan) (ver : Version) (dir : Direction) (ev : FrameOutcome) :
    (rcode (respOutcome ch ver dir ev) == 0x4#4) = ev.isCkfail := by
  rw [rcode_respOutcome]
  cases ev with
  | record r => cases r <;> simp [FrameOutcome.isCkfail]
  | _ => rfl

/-- The responses with an RCODE other than DONE's are all among those that report an event. -/
theorem filter_rcode_eventResponses {q : BitVec 4} (hq : q ≠ 0x0#4) (rs : List Response) :
    (eventResponses rs).filter (rcode · == q) = rs.filter (rcode · == q) := by
  rw [eventResponses, List.filter_filter]
  refine List.filter_congr fun r _ => ?_
  by_cases hr : rcode r = q <;> simp [hr, hq]

/-- If the event responses are those of a list of events, as many have the RCODE of a kind as events are of it. -/
theorem length_filter_rcode {ch : Chan} {ver : Version} {dir : Direction} {rs : List Response} {evs : List FrameOutcome}
    (hevents : eventResponses rs = evs.map (respOutcome ch ver dir)) {q : BitVec 4} (hq : q ≠ 0x0#4)
    {p : FrameOutcome → Bool} (hp : ∀ ev, (rcode (respOutcome ch ver dir ev) == q) = p ev) :
    (rs.filter (rcode · == q)).length = evs.countP p := by
  rw [← filter_rcode_eventResponses hq, hevents, ← List.countP_eq_length_filter, List.countP_map]
  exact List.countP_congr fun ev _ => by rw [Function.comp_apply, hp]

/-- Settles O27: the run counts the events of the loop (`feedAll_stream`), no more of them than bytes, and its event
responses are theirs. -/
theorem countersCountEvents : Obligations.CountersCountEvents := by
  intro s t c bs hinv h hok hckf hmal
  obtain ⟨hslice, rs, hsent, hlen, hevents⟩ := feedAll_stream bs hinv h
  rw [newResponses_of_sent hsent, length_filter_rcode hevents (by decide) (rcode_respOutcome_malformed c _ _),
    length_filter_rcode hevents (by decide) (rcode_respOutcome_ckfail c _ _), hevents, List.length_map, hslice]
  have hle : (streamFeed s.cfg (s.slice c).buf bs).2.length ≤ bs.length := by
    rw [← hlen, ← List.length_map (respOutcome c s.cfg.ver s.cfg.rxdir), ← hevents]
    exact List.length_filter_le _ rs
  generalize (streamFeed s.cfg (s.slice c).buf bs).1 = buf
  generalize (streamFeed s.cfg (s.slice c).buf bs).2 = evs at hle
  have hkinds := countP_kinds evs
  have hok' := statsUpdates_counter_of_lt (statsUpdate_ok · s.tsIn ·) (evs := evs) (x := (s.slice c).withBuf buf)
    (by rw [withBuf_ok]; omega)
  have hckf' := statsUpdates_counter_of_lt (statsUpdate_ckf · s.tsIn ·) (evs := evs) (x := (s.slice c).withBuf buf)
    (by rw [withBuf_ckf]; omega)
  have hmal' := statsUpdates_counter_of_lt (statsUpdate_mal · s.tsIn ·) (evs := evs) (x := (s.slice c).withBuf buf)
    (by rw [withBuf_mal]; omega)
  rw [withBuf_ok] at hok'
  rw [withBuf_ckf] at hckf'
  rw [withBuf_mal] at hmal'
  refine ⟨?_, hmal', hckf'⟩
  omega

/-! ## The update for each event -/

/-- Settles O29: one equation of `statsUpdate` for each constructor of the outcome. -/
theorem statsUpdateByEvent : Obligations.StatsUpdateByEvent :=
  fun _ _ _ _ _ _ _ _ => ⟨rfl, rfl, rfl, rfl⟩

/-! ## The commands on the statistics -/

/-- A command whose only operand is the channel decodes from its word as a number (30_encoding.md R155). -/
theorem decode_channelNumber {k : Opcode} {mk : Chan → Instr} (hk : reservedMask k = reservedMask .resetAsm)
    (hlen : ∀ w, commandLength k w = 1) (hfields : ∀ w, commandFields k w [] = mk (Chan.ofBit (w.extractLsb' 27 1)))
    (c : Chan) :
    decode (.words [BitVec.ofNat 32 (0x10000000 * (opcodeBits k).toNat + 0x08000000 * chanNat c)]) = .ok (mk c) := by
  rw [← channelWord_eq_ofNat]
  exact decode_channelWord hk hlen hfields c

/-- Settles O30: RESET_STATS replaces the slice by one with its statistics cleared, and answers. -/
theorem resetStatsResult : Obligations.ResetStatsResult := fun s c =>
  ⟨decode_channelNumber (k := .resetStats) (mk := .resetStats) rfl (fun _ => rfl) (fun _ => rfl) c, _, rfl,
    outsideKept_setSlice_respond c s _ _, by simp [respDone], by simp [Slice.clearStats]⟩

/-- Settles O31: RESET_CH replaces the slice by an empty one, and answers. -/
theorem resetChResult : Obligations.ResetChResult := fun s c =>
  ⟨decode_channelNumber (k := .resetCh) (mk := .resetCh) rfl (fun _ => rfl) (fun _ => rfl) c, _, rfl,
    outsideKept_setSlice_respond c s _ _, by simp [respDone], by simp [Slice.clearStats, Slice.withBuf]⟩

/-- A buffer that meets R211 is shorter than the longest frame. -/
theorem length_le_of_bufInv {cfg : Cfg} {buf : List Byte} (h : bufInv cfg.rxLen buf) : buf.length ≤ 9 := by
  obtain rfl | ⟨-, hlt⟩ := h
  · exact Nat.zero_le 9
  · have hmax := rxLen_le cfg
    omega

/-- The words of STATS, the first as a number (30_encoding.md R179). -/
theorem respStats_eq (c : Chan) {x : Slice} (hlen : x.buf.length ≤ 9) :
    respStats c x =
      [BitVec.ofNat 32 (0x80000000 + 0x08000000 * chanNat c + 0x04000000 * bitNat x.seen + x.buf.length),
        x.ok, x.ckf, x.mal, x.lastTs] := by
  refine congrArg (· :: [x.ok, x.ckf, x.mal, x.lastTs]) (eq_ofNat_of_toNat ?_)
  simp only [append_toNat, chan_bit_toNat, flagBit_toNat, BitVec.toNat_ofNat]
  omega

/-- Settles O32: READ_STATS only answers, with the words of `respStats_eq`. -/
theorem readStatsResult : Obligations.ReadStatsResult := fun s c =>
  ⟨decode_channelNumber (k := .readStats) (mk := .readStats) rfl (fun _ => rfl) (fun _ => rfl) c, length_le_of_bufInv,
    fun hlen => by
      rw [← respStats_eq c hlen]
      rfl⟩

/-! ## The error rate -/

/-- Settles O33: a quotient of naturals whose denominator is positive and at least the numerator. -/
theorem errorRateExact : Obligations.ErrorRateExact := by
  intro ok ckf
  have heq : errorRate ok ckf = (ckf.toNat : ℚ) / (max 1 (ok.toNat + ckf.toNat) : ℕ) := by
    rw [errorRate, Rat.mkRat_eq_div, Int.cast_natCast]
  have hle : (ckf.toNat : ℚ) ≤ (max 1 (ok.toNat + ckf.toNat) : ℕ) := Nat.cast_le.mpr (by omega)
  rw [heq]
  refine ⟨rfl, by positivity, div_le_one_of_le₀ hle (Nat.cast_nonneg _), ?_, ?_⟩
  · rintro rfl
    simp
  · rintro rfl hckf
    have hpos : ckf.toNat ≠ 0 := fun h => hckf (BitVec.eq_of_toNat_eq h)
    have hmax : max 1 ((0#32 : Word).toNat + ckf.toNat) = ckf.toNat := by
      rw [BitVec.toNat_ofNat]
      omega
    rw [hmax, div_self (Nat.cast_ne_zero.mpr hpos)]

end Sys2Proof.Machine
end

section
/-! PROOFS of the statements of 45_configuration.md: what WRITE_CFG makes of the configuration and the buffers (R450, R451),
and the response of READ_CFG (R452). -/

namespace Sys2Proof.Machine

/-- The layout that the command WRITE_CFG and the response CFG share (30_encoding.md R156, R180), as a number. -/
theorem cfgWord_eq_ofNat (op : BitVec 4) (rxdir : Direction) (cken : Bool) (ver : Version) :
    op ++ 0#25 ++ rxdir.bit ++ flagBit cken ++ ver.bit =
      BitVec.ofNat 32 (0x10000000 * op.toNat + 4 * dirNat rxdir + 2 * bitNat cken + verNat ver) := by
  apply eq_ofNat_of_toNat
  simp only [append_toNat, direction_bit_toNat, flagBit_toNat, version_bit_toNat, BitVec.toNat_ofNat]
  omega

/-- The word of CFG as a number (30_encoding.md R180). -/
theorem respCfg_eq_ofNat (cfg : Cfg) :
    respCfg cfg =
      [BitVec.ofNat 32 (0x90000000 + 4 * dirNat cfg.rxdir + 2 * bitNat cfg.cken + verNat cfg.ver)] :=
  congrArg ([·]) (cfgWord_eq_ofNat 0x9#4 cfg.rxdir cfg.cken cfg.ver)

/-- Settles O34: the number of R156 is the encoder's word, and WRITE_CFG replaces the configuration (`State.setCfg`) and
answers. Each slice is the one `bufAfterCfg` gives. -/
theorem writeCfgResult : Obligations.WriteCfgResult := by
  intro s rxdir cken ver
  have hdecode := decode_encode_writeCfg rxdir cken ver
  rw [encode, cfgWord_eq_ofNat] at hdecode
  refine ⟨hdecode, _, rfl, ⟨rfl, rfl, rfl⟩, rfl, rfl, fun c => ?_⟩
  rw [respond_slice, setCfg_slice]
  rfl

/-- Settles O35: the word is the encoder's, and READ_CFG only answers, with the configuration's number. -/
theorem readCfgResult : Obligations.ReadCfgResult := by
  intro s
  refine ⟨decodeOfEncode .readCfg rfl, ?_⟩
  rw [← respCfg_eq_ofNat]
  rfl

end Sys2Proof.Machine
end

section
/-! PROOFS of the statements of 60_exceptions.md: no transaction stops the core (R500, R505, R506). -/

namespace Sys2Proof.Machine

/-- From buffers that meet R211 no instruction stops the core (R500, R506): a FEED, or a wire frame's run of FEEDs, assigns
no second event (40_frame_assembler.md R210), and every other command only answers. -/
theorem exec_completes (i : Instr) {s : State} (h : AsmInv s) : Completes (exec i s) := by
  cases i with
  | feed c b => exact feedByte_completes c b s (asmInv_slice h c)
  | frameSysv | frameSlave | frameCmdV1 | frameCmdV2 => exact feedAll_completes _ s (asmInv_slice h s.rxLink)
  | encode ver mode start maxv minv cur => exact ⟨_, execEncode_eq ver mode start maxv minv cur s⟩
  | decode | resetAsm | resetStats | resetCh | readStats | writeCfg | readCfg | reserved => exact ⟨_, rfl⟩

/-- With nothing pending the state stays as it is (R512; log 7). -/
theorem step_idle {s : State} (h : s.inputs = []) : step s = .next s := by
  simp [step, fetch, h]

/-- The step that takes a pulse of RST is the power-on reset (70_reset_and_hazards.md R600). -/
theorem step_rst {s : State} {during : Option (List Word)} {rest : List PortInput} (h : s.inputs = .rst during :: rest) :
    step s = .next (s.powerOn rest) := by
  simp [step, fetch, h]

/-- Settles O12, by the kind of the next transaction: accepting it keeps the buffers, so a command that decodes answers by
`exec_completes` and a run of bytes by `feedAll_completes`; the other steps are given in full. -/
theorem stepAlwaysCompletes : Obligations.StepAlwaysCompletes := by
  intro s hs
  cases hin : s.inputs with
  | nil => exact ⟨s, step_idle hin⟩
  | cons input rest =>
    cases input with
    | rst => exact ⟨_, step_rst hin⟩
    | command ws ts =>
      cases hd : decode (.words ws) with
      | error e => exact ⟨_, step_refused hin hd⟩
      | ok i =>
        rw [step_command hin hd]
        exact exec_completes i (s := s.accept rest ts) hs
    | wire link bs ts =>
      rw [step_wire hin]
      exact feedAll_completes bs _ (asmInv_slice (s := s.acceptWire rest link ts) hs link)

end Sys2Proof.Machine
end

section
/-! PROOFS of the statements of 70_reset_and_hazards.md: power-on reset (R600, R601) and the version mismatch on an M2S link
(R606). -/

namespace Sys2Proof.Machine

/-- The M2S frame length is the same under both versions (42_field_decode.md R302). -/
theorem frameLen_m2s (ver : Version) : frameLen .m2s ver = 7 := by
  cases ver with
  | v1 => rfl
  | v2 => rfl

/-- Settles O44, by the check that decides: length, markers and checksum all read the bytes alone, and only the fields of a
record depend on the version. -/
theorem versionMismatchUndetected : Obligations.VersionMismatchUndetected := by
  intro f cken
  by_cases hlen : f.length = 7
  · have hlen_eq (ver : Version) : f.length = frameLen .m2s ver := hlen.trans (frameLen_m2s ver).symm
    by_cases hmark : byteAt f 0 = Config.stx ∧ byteAt f (f.length - 1) = Config.etx
    · have hframed (ver : Version) : framed ⟨ver, cken, .m2s⟩ f := ⟨hlen_eq ver, hmark⟩
      rw [decodeFrame_framed (hframed .v1), decodeFrame_framed (hframed .v2)]
      by_cases hcks : cken = true ∧ cks f ≠ cksByte f
      · simp only [if_pos hcks]
      · simp only [if_neg hcks]
        exact ⟨_, rfl⟩
    · have hmarkerError (ver : Version) :=
        markersJudgedBeforeChecksum.2 f .m2s ver cken (hlen_eq ver) (not_and_or.mp hmark)
      rw [hmarkerError .v1]
      exact hmarkerError .v2
  · have hmismatch (ver : Version) : decodeFrame f .m2s ver cken = .lengthMismatch f.length :=
      decodeFrame_of_length_ne (frameLen_m2s ver ▸ hlen) cken
    rw [hmismatch .v1]
    exact hmismatch .v2

/-- Settles O8: the reset state as R601 lists it. READ_CFG and READ_STATS only answer, with the numbers of `respCfg_eq_ofNat`
and `respStats_eq` at the reset values. -/
theorem powerOnValues : Obligations.PowerOnValues := by
  have hcfg : answerOf .readCfg State.reset = some [0x90000003#32] := congrArg some (respCfg_eq_ofNat Cfg.reset)
  have hstats (c : Chan) : answerOf (.readStats c) State.reset =
      some [BitVec.ofNat 32 (0x80000000 + 0x08000000 * chanNat c), 0#32, 0#32, 0#32, 0#32] := by
    cases c with
    | ch0 => exact congrArg some (respStats_eq .ch0 (x := Slice.reset) (Nat.zero_le 9))
    | ch1 => exact congrArg some (respStats_eq .ch1 (x := Slice.reset) (Nat.zero_le 9))
  refine ⟨rfl, fun c => ?_, exec_of_answerOf hcfg, exec_of_answerOf (hstats .ch0), exec_of_answerOf (hstats .ch1)⟩
  cases c with
  | ch0 => rfl
  | ch1 => rfl

/-- Settles O9: the step that takes the pulse is `step_rst`, whatever command the pulse interrupts, and `State.powerOn`
writes the core and the pending transactions alone. -/
theorem resetPulseRestoresPowerOnState : Obligations.ResetPulseRestoresPowerOnState := fun s _ rest h =>
  ⟨s.powerOn rest, step_rst h, rfl, powerOn_sent s rest, powerOn_inputs s rest, powerOn_tsIn s rest,
    powerOn_rxLink s rest⟩

end Sys2Proof.Machine
end
